-- ==== Sys2Proof/Word.lean ====
section
/-! DEFINITION. The bit vectors of the block: what the spec itself treats as bits. Big integers are
naturals (rules R8, R20), so they have no type here. -/

namespace Sys2Proof

/-- A control register, a command word, one bus access: `XLEN = 32` bits (rule R6). -/
abbrev Word := BitVec 32

/-- One byte of the block buffer `BUF` (rule R41). -/
abbrev Byte := BitVec 8

/-- A 4-bit register field, naming `R0` to `R15` (rule R96). -/
abbrev RegIx := BitVec 4

/-- The only immediate, `imm16` of `LDI` (rule R97). -/
abbrev Imm16 := BitVec 16

/-- The 64-bit seed `SEED_HI || SEED_LO` (rules R6, R36). -/
abbrev Seed := BitVec 64

end Sys2Proof
end

