-- ==== Sys2Proof/Config.lean ====
section
/-! DEFINITION. What an implementation fixes: the width `W` (rule R5) and the random source
(rules R7, R10). The draw functions have no body: nothing can be proved about a value they give
beyond the range laws of rule R10, which `Machine/Random.lean` builds in. -/

namespace Sys2Proof

/-- The widths rule R5 admits: a multiple of 32 and at least 64. That `W` also fits the 32-bit
register `WPARAM` is read from rule R30 (DEDUCED, safe, log entry 2). -/
abbrev Config.LegalWidth (w : Nat) : Prop := 64 ≤ w ∧ w % 32 = 0 ∧ w < 2 ^ 32

/-- The width `State.reset` is built at: rule R5's suggested value (DESIGN CHOICE, unsafe for a claim
about the run from `State.reset`, safe for a claim about every state: log entry 1). -/
def Config.suggestedWidth : Nat := 4096

/-- A random source (rule R10) whose generator states are numbered by naturals (DESIGN CHOICE, safe,
log entry 3): `bits g b` and `below g m` give a raw number and the next generator state. The range
laws are applied to the raw number by `Machine/Random.lean`. -/
structure RandSource where
  init : Seed → Nat
  bits : Nat → Nat → Nat × Nat
  below : Nat → Nat → Nat × Nat

/-- `RandInit` of rule R10, left open: a free value (log entry 3). -/
opaque Config.randInit : Seed → Nat

/-- The raw draw behind `RandBits` of rule R10, left open: a free value (log entry 3). -/
opaque Config.randBits : Nat → Nat → Nat × Nat

/-- The raw draw behind `RandBelow` of rule R10, left open: a free value (log entry 3). -/
opaque Config.randBelow : Nat → Nat → Nat × Nat

/-- The block's random source: three open functions. -/
def Config.source : RandSource := ⟨Config.randInit, Config.randBits, Config.randBelow⟩

end Sys2Proof
end

