-- ==== Sys2Proof/Machine/State.lean ====
section
/-! DEFINITION. The state of the block, plain data (`10_state.md`), the reasons a step can stop, and the
state after reset (rules R45, R300). INVENTORY.md, under State, lists every field with its rule. -/

namespace Sys2Proof.Machine

open Sys2Proof

/-- Why a step stops with a fault. -/
inductive Fault where
  /-- A host access at or above `BUFBASE + W/8`, which the block does not decode (rule R69; "the model
  has no move for it", U18). Raised by `hostRead` and `hostWrite`. Safe: the model stops (log entry 11). -/
  | outsideBlock (off : Nat)
  deriving DecidableEq, Repr

/-- Why a step is refused. -/
inductive Refusal where
  /-- A command with no meaning yet. Raised by no arm of `exec`: all 19 commands have their meaning.
  Safe. -/
  | notModelled (mnemonic : String)
  deriving DecidableEq, Repr

/-- What `ERRCODE` can hold: the codes 0 to 8 of rule R260, by name. Codes 9 to 255 are never produced
(U15), so they are no constructor. -/
inductive ErrCode where
  | none
  | illegal
  | norng
  | param
  | divzero
  | smalln
  | overflow
  | badblock
  | aborted
  deriving DecidableEq, Repr

/-- One thing that can happen next at the block's port, or the command engine's turn (rules R62, R72,
R107, R300, R312). -/
inductive Event where
  /-- the host reads `size` bytes at byte offset `off` -/
  | read (off size : Nat)
  /-- the host writes `size` bytes at byte offset `off`; `v` is the data of a 32-bit write -/
  | write (off size : Nat) (v : Word)
  /-- the host polls `STATUS` until `BUSY` reads 0 (rule R107) -/
  | wait
  /-- the reset input is asserted and released (rule R300) -/
  | reset
  /-- the command engine moves before the host does anything else -/
  | engine
  deriving DecidableEq, Repr

/-- What the block last answered at its bus port (rules R62, R68). -/
inductive Response where
  /-- nothing has been accessed since reset -/
  | none
  /-- a read returned this word -/
  | data (v : Word)
  /-- a write was taken (performed, ignored or refused) -/
  | written
  /-- the access was answered with a bus error (rule R68) -/
  | busError
  deriving DecidableEq, Repr

/-- What a byte offset of the host register space names (rules R44, R61, R69). -/
inductive Target where
  | id
  | cmd
  | status
  | errcode
  | errcmd
  | ctrl
  | action
  | iters
  | bits
  | len
  | kbytes
  | seedLo
  | seedHi
  | cmdcnt
  | wparam
  /-- `0x03C` to `0xFFF` -/
  | reserved
  /-- word `j` of `R[r]` -/
  | regWord (r : RegIx) (j : Nat)
  /-- word `j` of `BUF` -/
  | bufWord (j : Nat)
  /-- not decoded by the block -/
  | outside
  deriving DecidableEq, Repr

/-- The byte store behind `BUF` (rule R41): address and byte pairs, addresses strictly rising, no byte
0 listed. An unlisted byte reads 0, its reset value (rule R45; log entry 14). -/
abbrev Memory := List Host.Cell

/-- The whole state (`10_state.md`, opening tuple), with `CTRL.IE` the only bit of `CTRL` and `SEEDED`
the view "`g` holds a value" (rule R40), and with the model's own fields `width`, `passes`, `pending`,
`resp`. -/
structure State where
  /-- the parameter `W` (rule R5), carried here and changed by no step (log entry 1) -/
  width : Nat
  /-- `R0` to `R15` (rule R20) -/
  regs : Vector Nat 16
  /-- `BUF[0 .. W/8 - 1]` (rule R41) -/
  buf : Memory
  /-- `LEN` (rule R34) -/
  len : Word
  /-- `KBYTES` (rule R35) -/
  kbytes : Word
  /-- `ITERS` (rule R32) -/
  iters : Word
  /-- `BITS` (rule R33) -/
  bits : Word
  /-- `SEED_LO` (rule R36) -/
  seedLo : Word
  /-- `SEED_HI` (rule R36) -/
  seedHi : Word
  /-- `CTRL.IE` (rule R29) -/
  ie : Bool
  /-- `STATUS.BUSY` (rule R26) -/
  busy : Bool
  /-- `STATUS.DONE` (rule R26) -/
  done : Bool
  /-- `STATUS.ERR` (rule R26) -/
  err : Bool
  /-- the result flag `T` (rule R25) -/
  tflag : Bool
  /-- `STATUS.HOSTERR` (rule R26) -/
  hosterr : Bool
  /-- `ERRCODE` (rule R27) -/
  errcode : ErrCode
  /-- `ERRCMD` (rule R28) -/
  errcmd : Word
  /-- `CMDCNT` (rule R37) -/
  cmdcnt : Word
  /-- the generator state `g`, or no value; `SEEDED` says which (rule R40) -/
  g : Option Nat
  /-- `CMDLATCH`, meaningful only while `BUSY = 1` (rule R42) -/
  cmdlatch : Word
  /-- how many moves the running search has had without coming to its end: a measure of the time it
  has run (rules R46, R93, R320), no quantity of its rule (log entry 8) -/
  passes : Nat
  /-- what happens next, oldest first: the host's actions and the engine's turns (rule R312, log
  entry 5) -/
  pending : List Event
  /-- the last answer at the bus port (log entry 10) -/
  resp : Response
  deriving DecidableEq, Repr

/-- The state after reset of a block of width `w` (rules R45, R300): every element 0, no generator
state. `cmdlatch` has no value in rule R45; the model holds 0 there, which nothing reads while
`BUSY = 0` (DESIGN CHOICE, unsafe, log entry 9). -/
def State.resetAt (w : Nat) : State where
  width := w
  regs := Vector.replicate 16 0
  buf := []
  len := 0
  kbytes := 0
  iters := 0
  bits := 0
  seedLo := 0
  seedHi := 0
  ie := false
  busy := false
  done := false
  err := false
  tflag := false
  hosterr := false
  errcode := .none
  errcmd := 0
  cmdcnt := 0
  g := none
  cmdlatch := 0
  passes := 0
  pending := []
  resp := .none

/-- The machine right after reset, at rule R5's suggested width (log entry 1). -/
def State.reset : State := State.resetAt Config.suggestedWidth

end Sys2Proof.Machine
end

