-- ==== Sys2Proof/Machine/Numbers.lean ====
section
/-! DEFINITION. Integer size and byte functions (rule R9) and the 32-bit words of a big integer
(rules R64, R66). -/

namespace Sys2Proof.Machine

open Sys2Proof

/-- `bitlength(x)`: 0 for 0, else the `k` with `2^(k-1) <= x < 2^k` (rule R9). -/
def bitlength (x : Nat) : Nat := if x = 0 then 0 else Nat.log2 x + 1

/-- `bytelen(x)`: the bytes the integer occupies; `bytelen(0) = 0` (rule R9). -/
def bytelen (x : Nat) : Nat := (bitlength x + 7) / 8

/-- One more byte below the bytes read so far. -/
def appendByte (acc : Nat) (b : Byte) : Nat := acc * 256 + b.toNat

/-- `BE(b[0..j-1])`: the big-endian value of a byte string (rule R9). -/
def beValue (bs : List Byte) : Nat := bs.foldl appendByte 0

/-- Byte `i` of the `j` big-endian bytes of `x`. -/
def beByte (x j i : Nat) : Byte := BitVec.ofNat 8 (x / 256 ^ (j - 1 - i))

/-- `ToBE(x, j)`: the `j` big-endian bytes of `x < 256^j` (rule R9). -/
def toBE (x j : Nat) : List Byte := (List.range j).map (beByte x j)

/-- Bits `32j+31 : 32j` of a big integer (rule R64). -/
def wordOf (x j : Nat) : Word := BitVec.ofNat 32 (x / 2 ^ (32 * j))

/-- The big integer with bits `32j+31 : 32j` replaced, every other bit kept (rule R66). -/
def replaceWord (x j : Nat) (v : Word) : Nat :=
  x % 2 ^ (32 * j) + v.toNat * 2 ^ (32 * j) + x / 2 ^ (32 * j + 32) * 2 ^ (32 * j + 32)

end Sys2Proof.Machine
end

