-- ==== Sys2Proof/Machine/Arith.lean ====
section
/-! DEFINITION. The document's number theory: `Gcd`, `ModInv`, `ModMul`, `PowMod`, `Lcm` (rules R141,
R143, R146, R148, R150), over exact integers (rule R8). Each loop runs on a fuel that its own bound
makes large enough (rule R321). -/

namespace Sys2Proof.Machine

open Sys2Proof

/-- The loop of `Gcd`: `(a, b) <- (b, a mod b)` while `b != 0` (rule R141). -/
def gcdLoop : Nat → Nat → Nat → Nat
  | 0, a, _ => a
  | fuel + 1, a, b => if b = 0 then a else gcdLoop fuel b (a % b)

/-- `Gcd(a, b)` (rule R141). `b` strictly decreases, so `b` passes are enough. -/
def gcdFn (a b : Nat) : Nat := gcdLoop b a b

/-- The loop of `ModInv` on the pairs `(r, r')` and `(t, t')`; it answers the final `r` and `t`
(rule R143). -/
def modInvLoop : Nat → Nat → Nat → Int → Int → Nat × Int
  | 0, r, _, t, _ => (r, t)
  | fuel + 1, r, r', t, t' =>
    if r' = 0 then (r, t)
    else modInvLoop fuel r' (r - r / r' * r') t' (t - (r / r' : Nat) * t')

/-- `t` brought into `[0, n)` by at most one addition of `n` (rule R143). -/
def normalise (t : Int) (n : Nat) : Nat := if t < 0 then (t + n).toNat else t.toNat

/-- `ModInv(a, n)`: the inverse and whether there is one; sentinel 0 if not (rule R143). The start
values of the pairs are the ones the rule gives (log entry 15). -/
def modInv (a n : Nat) : Nat × Bool :=
  if 1 < (modInvLoop a n a 0 1).1 then (0, false)
  else (normalise (modInvLoop a n a 0 1).2 n, true)

/-- `ModMul(a, b, m) = (a*b) mod m`, for `m > 0` (rule R146). -/
def modMul (a b m : Nat) : Nat := a * b % m

/-- The loop of `PowMod` on accumulator `v`, running power `p`, remaining exponent `d` (rule R148). -/
def powModLoop : Nat → Nat → Nat → Nat → Nat → Nat
  | 0, v, _, _, _ => v
  | fuel + 1, v, p, d, m =>
    if d = 0 then v
    else powModLoop fuel (if d % 2 = 1 then modMul v p m else v) (modMul p p m) (d / 2) m

/-- `PowMod(base, exponent, modulus)`, for `modulus > 0`: right-to-left square-and-multiply, one pass
per bit of the exponent (rule R148). -/
def powMod (base exponent modulus : Nat) : Nat :=
  powModLoop (bitlength exponent) 1 base exponent modulus

/-- `Lcm(a, b) = (a div g) * b` with `g = Gcd(a, b)`; `Lcm(0, 0)` is `DIVZERO` (rule R150). -/
def lcmFn (a b : Nat) : Except ErrCode Nat :=
  if gcdFn a b = 0 then .error .divzero else .ok (a / gcdFn a b * b)

end Sys2Proof.Machine
end

