-- ==== Sys2Proof/Syntax.lean ====
section
/-! DEFINITION. The 19 commands of rule R98, in the order of the table. A constructor's arguments are
the command's fields in the order `a, b, c, d` of its row. -/

namespace Sys2Proof

/-- A command of the block (rule R98). The pseudo-commands of rule R106 are other spellings of these
and live in `Machine/Assembler.lean`. -/
inductive Instr where
  /-- `NOP` (R120) -/
  | nop
  /-- `MOV rd, rs` (R121) -/
  | mov (rd rs : RegIx)
  /-- `LDI rd, imm16` (R122) -/
  | ldi (rd : RegIx) (imm : Imm16)
  /-- `CLR rd` (R123) -/
  | clr (rd : RegIx)
  /-- `CLRALL` (R124) -/
  | clrall
  /-- `SEED` (R126) -/
  | seed
  /-- `RNGCLR` (R127) -/
  | rngclr
  /-- `GCD rd, ra, rb` (R142) -/
  | gcd (rd ra rb : RegIx)
  /-- `MODINV rd, ra, rn` (R144) -/
  | modinv (rd ra rn : RegIx)
  /-- `MODMUL rd, ra, rb, rm` (R147) -/
  | modmul (rd ra rb rm : RegIx)
  /-- `POWMOD rd, rb, re, rm` (R149) -/
  | powmod (rd rb re rm : RegIx)
  /-- `ISPRIME rn` (R172) -/
  | isprime (rn : RegIx)
  /-- `MKPRIME rd` (R176) -/
  | mkprime (rd : RegIx)
  /-- `MKPUB rp, rq, rn, re` (R191) -/
  | mkpub (rp rq rn re : RegIx)
  /-- `MKPRIV rd, re, rp, rq` (R193) -/
  | mkpriv (rd re rp rq : RegIx)
  /-- `VERIFY rs, re, rn, rm` (R196) -/
  | verify (rs re rn rm : RegIx)
  /-- `BLKSZ rn` (R211) -/
  | blksz (rn : RegIx)
  /-- `ENCBLK rd, re, rn` (R213) -/
  | encblk (rd re rn : RegIx)
  /-- `DECBLK rc, rd, rn` (R215) -/
  | decblk (rc rd rn : RegIx)
  deriving DecidableEq, Repr

end Sys2Proof
end

