-- ==== Sys2Proof/WellFormed.lean ====
section
/-! DEFINITION. Which commands are well formed. Every field value is legal (rule R96), and the one
constraint on registers is `MKPUB`'s (rule R101). -/

namespace Sys2Proof

/-- The four destinations of `MKPUB` are pairwise different (rule R101). -/
def pairwiseDistinct (a b c d : RegIx) : Bool :=
  a != b && a != c && a != d && b != c && b != d && c != d

/-- A command that rule R101 does not make illegal. -/
def Instr.wf : Instr → Bool
  | .mkpub rp rq rn re => pairwiseDistinct rp rq rn re
  | .nop => true
  | .mov _ _ => true
  | .ldi _ _ => true
  | .clr _ => true
  | .clrall => true
  | .seed => true
  | .rngclr => true
  | .gcd _ _ _ => true
  | .modinv _ _ _ => true
  | .modmul _ _ _ _ => true
  | .powmod _ _ _ _ => true
  | .isprime _ => true
  | .mkprime _ => true
  | .mkpriv _ _ _ _ => true
  | .verify _ _ _ _ => true
  | .blksz _ => true
  | .encblk _ _ _ => true
  | .decblk _ _ _ => true

end Sys2Proof
end

