-- ==== Sys2Proof/Decode.lean ====
section
/-! DEFINITION. The command word (rules R90, R95 to R101): fields, formats, the opcode table, the
decoder, the encoder. -/

namespace Sys2Proof

/-- The six formats of rule R95. -/
inductive Format where
  | n
  | r1
  | r2
  | r3
  | r4
  | i
  deriving DecidableEq, Repr

/-- Why a word is no command (rules R100, R101). Each ends in the command error `ILLEGAL`. -/
inductive DecodeError where
  /-- the opcode value is in no row of rule R98 -/
  | unassignedOpcode (op : BitVec 8)
  /-- a bit in a field its format marks 0 is 1 -/
  | reservedBits (op : BitVec 8)
  /-- `MKPUB` with two equal destinations -/
  | coincidingDestinations
  deriving DecidableEq, Repr

/-- One row of rule R98's table: opcode, format, and the command its fields make. -/
structure OpcodeRow where
  code : BitVec 8
  fmt : Format
  make : RegIx → RegIx → RegIx → RegIx → Imm16 → Instr

/-! ## Fields (rules R90, R95) -/

/-- The opcode, bits 31:24. -/
def opcodeField (v : Word) : BitVec 8 := v.extractLsb' 24 8

/-- Field `a`, bits 23:20. -/
def fieldA (v : Word) : RegIx := v.extractLsb' 20 4

/-- Field `b`, bits 19:16. -/
def fieldB (v : Word) : RegIx := v.extractLsb' 16 4

/-- Field `c`, bits 15:12. -/
def fieldC (v : Word) : RegIx := v.extractLsb' 12 4

/-- Field `d`, bits 11:8. -/
def fieldD (v : Word) : RegIx := v.extractLsb' 8 4

/-- `imm16`, bits 15:0, unbroken. -/
def fieldImm (v : Word) : Imm16 := v.extractLsb' 0 16

/-- The bits a format marks 0 (rule R95's table) are all 0. -/
def reservedClear (f : Format) (v : Word) : Bool :=
  match f with
  | .n => v.extractLsb' 0 24 == 0#24
  | .r1 => v.extractLsb' 0 20 == 0#20
  | .r2 => v.extractLsb' 0 16 == 0#16
  | .r3 => v.extractLsb' 0 12 == 0#12
  | .r4 => v.extractLsb' 0 8 == 0#8
  | .i => fieldB v == 0#4

/-! ## The opcode table (rule R98) -/

/-- The 19 rows of rule R98. -/
def opcodeTable : List OpcodeRow :=
  [ ⟨0x00, .n, fun _ _ _ _ _ => .nop⟩,
    ⟨0x01, .r2, fun a b _ _ _ => .mov a b⟩,
    ⟨0x02, .i, fun a _ _ _ imm => .ldi a imm⟩,
    ⟨0x03, .r1, fun a _ _ _ _ => .clr a⟩,
    ⟨0x04, .n, fun _ _ _ _ _ => .clrall⟩,
    ⟨0x08, .n, fun _ _ _ _ _ => .seed⟩,
    ⟨0x09, .n, fun _ _ _ _ _ => .rngclr⟩,
    ⟨0x10, .r3, fun a b c _ _ => .gcd a b c⟩,
    ⟨0x11, .r3, fun a b c _ _ => .modinv a b c⟩,
    ⟨0x12, .r4, fun a b c d _ => .modmul a b c d⟩,
    ⟨0x13, .r4, fun a b c d _ => .powmod a b c d⟩,
    ⟨0x20, .r1, fun a _ _ _ _ => .isprime a⟩,
    ⟨0x21, .r1, fun a _ _ _ _ => .mkprime a⟩,
    ⟨0x30, .r4, fun a b c d _ => .mkpub a b c d⟩,
    ⟨0x31, .r4, fun a b c d _ => .mkpriv a b c d⟩,
    ⟨0x32, .r4, fun a b c d _ => .verify a b c d⟩,
    ⟨0x40, .r1, fun a _ _ _ _ => .blksz a⟩,
    ⟨0x41, .r3, fun a b c _ _ => .encblk a b c⟩,
    ⟨0x42, .r3, fun a b c _ _ => .decblk a b c⟩ ]

/-- The mask of rule R99 by format. -/
def formatMask : Format → Word
  | .n => 0xFFFFFFFF
  | .r1 => 0xFF0FFFFF
  | .r2 => 0xFF00FFFF
  | .r3 => 0xFF000FFF
  | .r4 => 0xFF0000FF
  | .i => 0xFF0F0000

/-- `match(X) = opcode(X) << 24` of rule R99. -/
def matchWord (op : BitVec 8) : Word := op ++ 0#24

/-! ## Decoding -/

/-- The command a word stands for, or the name of what makes it illegal (rules R99, R100, R101). Total
on all `2^32` words. -/
def decode (v : Word) : Except DecodeError Instr :=
  match opcodeTable.find? (fun row => row.code == opcodeField v) with
  | none => .error (.unassignedOpcode (opcodeField v))
  | some row =>
    if reservedClear row.fmt v then
      if (row.make (fieldA v) (fieldB v) (fieldC v) (fieldD v) (fieldImm v)).wf then
        .ok (row.make (fieldA v) (fieldB v) (fieldC v) (fieldD v) (fieldImm v))
      else .error .coincidingDestinations
    else .error (.reservedBits (opcodeField v))

/-- The command in the low `nbits` bits of `w`, the bits above `nbits` being 0. A command word has 32
bits and no other length (rule R90). -/
def decodeTableWord (nbits w : Nat) : Option Instr :=
  if nbits ≤ 32 then (decode (BitVec.ofNat 32 (w % 2 ^ nbits))).toOption else none

/-! ## Encoding (rule R105), written from rule R95's formats -/

/-- Format N. -/
def wordN (op : BitVec 8) : Word := op ++ 0#24

/-- Format R1. -/
def wordR1 (op : BitVec 8) (a : RegIx) : Word := op ++ a ++ 0#20

/-- Format R2. -/
def wordR2 (op : BitVec 8) (a b : RegIx) : Word := op ++ a ++ b ++ 0#16

/-- Format R3. -/
def wordR3 (op : BitVec 8) (a b c : RegIx) : Word := op ++ a ++ b ++ c ++ 0#12

/-- Format R4. -/
def wordR4 (op : BitVec 8) (a b c d : RegIx) : Word := op ++ a ++ b ++ c ++ d ++ 0#8

/-- Format I. -/
def wordI (op : BitVec 8) (a : RegIx) (imm : Imm16) : Word := op ++ a ++ 0#4 ++ imm

/-- The word of a command (rule R105). -/
def encode : Instr → Word
  | .nop => wordN 0x00
  | .mov rd rs => wordR2 0x01 rd rs
  | .ldi rd imm => wordI 0x02 rd imm
  | .clr rd => wordR1 0x03 rd
  | .clrall => wordN 0x04
  | .seed => wordN 0x08
  | .rngclr => wordN 0x09
  | .gcd rd ra rb => wordR3 0x10 rd ra rb
  | .modinv rd ra rn => wordR3 0x11 rd ra rn
  | .modmul rd ra rb rm => wordR4 0x12 rd ra rb rm
  | .powmod rd rb re rm => wordR4 0x13 rd rb re rm
  | .isprime rn => wordR1 0x20 rn
  | .mkprime rd => wordR1 0x21 rd
  | .mkpub rp rq rn re => wordR4 0x30 rp rq rn re
  | .mkpriv rd re rp rq => wordR4 0x31 rd re rp rq
  | .verify rs re rn rm => wordR4 0x32 rs re rn rm
  | .blksz rn => wordR1 0x40 rn
  | .encblk rd re rn => wordR3 0x41 rd re rn
  | .decblk rc rd rn => wordR3 0x42 rc rd rn

end Sys2Proof
end

