-- ==== Sys2Proof/Machine/Operands.lean ====
section
/-! DEFINITION. Every operand form: register sources and destinations (rules R11, R96), the immediate
(rule R97), the arguments in control registers (rules R32 to R36, R97), the bytes of the buffer
(rule R41). -/

namespace Sys2Proof.Machine

open Sys2Proof

/-- `R[i]` as a source (rule R11). While a command runs no host write reaches it (rule R70), so this
is the snapshot taken at issue (rule R22, log entry 7). -/
def State.reg (s : State) (r : RegIx) : Nat := s.regs[r.toNat]'r.isLt

/-- The register file with `R[i]` holding `v`, unchecked. -/
def State.putReg (s : State) (r : RegIx) (v : Nat) : State :=
  { s with regs := s.regs.set r.toNat v r.isLt }

/-- `R[i] <- v`: `OVERFLOW` when `v` does not fit `W` bits, never a wrapped value (rule R11). -/
def State.writeReg (s : State) (r : RegIx) (v : Nat) : Except ErrCode State :=
  if v < 2 ^ s.width then .ok (s.putReg r v) else .error .overflow

/-- `zext_W(imm16)` (rule R97). -/
def immediate (imm : Imm16) : Nat := imm.toNat

/-- The seed `SEED_HI || SEED_LO` (rule R36). -/
def State.seedValue (s : State) : Seed := s.seedHi ++ s.seedLo

/-- The `iterations` argument (rule R32). -/
def State.itersArg (s : State) : Nat := s.iters.toNat

/-- The `bits` argument (rule R33). -/
def State.bitsArg (s : State) : Nat := s.bits.toNat

/-- The chunk length argument (rule R34). -/
def State.lenArg (s : State) : Nat := s.len.toNat

/-- `BUF[i]` (rule R41). -/
def State.bufByte (s : State) (i : Nat) : Byte := Memory.read s.buf i

/-- `BUF[0 .. n-1]` (rule R41). -/
def State.bufBytes (s : State) (n : Nat) : List Byte := Memory.readBytes s.buf 0 n

/-- `BUF[0 .. ]` overwritten by a byte string, the bytes above it kept (rules R41, R215). -/
def State.putBufBytes (s : State) (bs : List Byte) : State :=
  { s with buf := Memory.writeBytes s.buf 0 bs }

/-- `LEN <- n` (rule R34). -/
def State.putLen (s : State) (n : Nat) : State := { s with len := BitVec.ofNat 32 n }

/-- `KBYTES <- k` (rule R35). -/
def State.putKbytes (s : State) (k : Nat) : State := { s with kbytes := BitVec.ofNat 32 k }

/-- `g <- v` and `SEEDED <- 1` (rule R40). -/
def State.putGen (s : State) (v : Nat) : State := { s with g := some v }

/-- `SEEDED <- 0`; `g` holds no value from now on (rules R40, R127). -/
def State.dropGen (s : State) : State := { s with g := none }

end Sys2Proof.Machine
end

