-- ==== Sys2Proof/Machine/Flags.lean ====
section
/-! DEFINITION. The flags: `T` (rule R25), the `STATUS` word (rule R26), the error code's number
(rules R27, R260), the interrupt output (rules R43, R273). -/

namespace Sys2Proof.Machine

open Sys2Proof

/-- `T <- b` (rule R25). -/
def State.putT (s : State) (b : Bool) : State := { s with tflag := b }

/-- `SEEDED`: the random source holds a generator state (rules R26, R40). -/
def State.seeded (s : State) : Bool := s.g.isSome

/-- The number of an error code (rule R260). -/
def ErrCode.number : ErrCode → BitVec 8
  | .none => 0
  | .illegal => 1
  | .norng => 2
  | .param => 3
  | .divzero => 4
  | .smalln => 5
  | .overflow => 6
  | .badblock => 7
  | .aborted => 8

/-- The `STATUS` register, bits 31:6 reading 0 (rule R26). -/
def State.statusWord (s : State) : Word :=
  0#26 ++ BitVec.ofBool s.hosterr ++ BitVec.ofBool s.seeded ++ BitVec.ofBool s.tflag
    ++ BitVec.ofBool s.err ++ BitVec.ofBool s.done ++ BitVec.ofBool s.busy

/-- The interrupt output `IRQ = CTRL.IE and STATUS.DONE`, a function of the state (rule R43). -/
def State.irq (s : State) : Bool := s.ie && s.done

end Sys2Proof.Machine
end

