-- ==== Sys2Proof/Machine/Ops.lean ====
section
/-! DEFINITION. The life of a command as shared operations: issue (rule R92), successful completion
(rule R93), error completion (rule R270, the block's taking of an exception), abort (rule R274), and
what leaves an error (rule R275). -/

namespace Sys2Proof.Machine

open Sys2Proof

/-- Issue: the word is latched and the block is busy (rule R92). `ERRCODE`, `ERRCMD`, `T`, `HOSTERR`,
`CMDCNT` are unchanged. The operands are not copied: no host write reaches them until completion
(rules R22, R70; log entry 7). -/
def State.issue (s : State) (v : Word) : State :=
  { s with cmdlatch := v, busy := true, done := false, err := false, passes := 0 }

/-- Successful completion, after the rule's own writes (rule R93). -/
def State.complete (s : State) : State :=
  { s with busy := false, done := true, err := false, errcode := .none,
           cmdcnt := s.cmdcnt + 1, passes := 0 }

/-- The status fields of a completion with an error code (rules R270, R274). -/
def State.failWith (s : State) (c : ErrCode) : State :=
  { s with busy := false, done := true, err := true, errcode := c, errcmd := s.cmdlatch,
           cmdcnt := s.cmdcnt + 1, passes := 0 }

/-- `raise Err(code)`: error completion, the counterpart of taking an exception (rule R270). It is
given the state at issue, for a drawing command with `g` after the draws made. -/
def State.raise (s : State) (c : ErrCode) : Host.Outcome State Fault Refusal := .next (s.failWith c)

/-- A command's evaluation ends: its writes are applied, or its error is raised and none of them is
(rules R93, R270). -/
def State.commit (s : State) : Except ErrCode State → Host.Outcome State Fault Refusal
  | .ok t => .next t.complete
  | .error c => s.raise c

/-- A search has not come to its end in the passes it was given: the command keeps running, with no
write of it applied and `g` as at issue (rules R93, R320; log entry 8). -/
def State.goOn (s : State) : State := { s with passes := s.passes + 1 }

/-- A drawing command's evaluation ends, after draws that leave the generator state `r.2`: with its
writes, or with an error that keeps the draws made (rules R93, R270). -/
def State.drawn {α : Type} (s : State) (r : Except ErrCode α × Nat)
    (write : α → State → Except ErrCode State) : Host.Outcome State Fault Refusal :=
  match r.1 with
  | .error c => (s.putGen r.2).raise c
  | .ok v => (s.putGen r.2).commit (write v (s.putGen r.2))

/-- A search's evaluation: cut off and to go on, or ended (rules R93, R320). -/
def State.search {α : Type} (s : State) (r : Option (Except ErrCode α × Nat))
    (write : α → State → Except ErrCode State) : Host.Outcome State Fault Refusal :=
  match r with
  | none => .next s.goOn
  | some r => s.drawn r write

/-- The commands that draw (rule R128). -/
def drawing : Instr → Bool
  | .isprime _ => true
  | .mkprime _ => true
  | .mkpub _ _ _ _ => true
  | .nop => false
  | .mov _ _ => false
  | .ldi _ _ => false
  | .clr _ => false
  | .clrall => false
  | .seed => false
  | .rngclr => false
  | .gcd _ _ _ => false
  | .modinv _ _ _ => false
  | .modmul _ _ _ _ => false
  | .powmod _ _ _ _ => false
  | .mkpriv _ _ _ _ => false
  | .verify _ _ _ _ => false
  | .blksz _ => false
  | .encblk _ _ _ => false
  | .decblk _ _ _ => false

/-- The latched word is a drawing command. An illegal word is no command, so it is none
(DEDUCED, unsafe, log entry 12). -/
def drawingWord (v : Word) : Bool :=
  match decode v with
  | .ok i => drawing i
  | .error _ => false

/-- `ACTION.ABORT`: a running command ends with `ABORTED`, none of its writes applied; the generator
state of a drawing command is dropped. Idle, it does nothing (rule R274). -/
def State.abort (s : State) : State :=
  if s.busy then
    (if drawingWord s.cmdlatch then s.dropGen else s).failWith .aborted
  else s

/-- `ACTION.ACK`: `DONE <- 0`, `HOSTERR <- 0` (rule R31). With issue, which clears `DONE` and `ERR`,
this is all that leaves a completion behind: there is no return command (rule R275). -/
def State.acknowledge (s : State) : State := { s with done := false, hosterr := false }

end Sys2Proof.Machine
end

