-- ==== Sys2Proof/Machine/BlockCipher.lean ====
section
/-! DEFINITION. The block cipher commands (`44_block_cipher.md`). -/

namespace Sys2Proof.Machine

open Sys2Proof

/-- The marker byte in front of every block (rules R213, R215). -/
def markerByte : Byte := 0xFF

/-- `k = (bitlength(n) - 1) div 8` (rule R211). -/
def blockSize (n : Nat) : Nat := (bitlength n - 1) / 8

/-- `BLKSZ rn`: `PARAM` for modulus 0, else `KBYTES` receives the block size (rule R211). -/
def execBlksz (rn : RegIx) (s : State) : Host.Outcome State Fault Refusal :=
  if s.reg rn = 0 then s.raise .param
  else s.commit (.ok (s.putKbytes (blockSize (s.reg rn))))

/-- The block integer: marker first, then the chunk, big-endian (rules R63, R213). -/
def packBlock (chunk : List Byte) : Nat := beValue (markerByte :: chunk)

/-- `ENCBLK rd, re, rn`: `PARAM` when the block integer would not fit `W` bits, `DIVZERO` for modulus
0, else `R[rd] <- PowMod(m, R[re], R[rn])` for the block integer `m` of `BUF[0 .. LEN-1]`
(rule R213). -/
def execEncblk (rd re rn : RegIx) (s : State) : Host.Outcome State Fault Refusal :=
  if s.width / 8 < s.lenArg + 1 then s.raise .param
  else if s.reg rn = 0 then s.raise .divzero
  else s.commit (s.writeReg rd (powMod (packBlock (s.bufBytes s.lenArg)) (s.reg re) (s.reg rn)))

/-- A decrypted integer's bytes without the leading one, which is not compared with the marker
(rule R215, U8). -/
def unpackBlock (m : Nat) : List Byte := (toBE m (bytelen m)).tail

/-- `BUF` and `LEN` receive an unpacked block (rule R215). -/
def State.storeBlock (s : State) (m : Nat) : State :=
  (s.putBufBytes (unpackBlock m)).putLen (bytelen m - 1)

/-- `DECBLK rc, rd, rn`: `DIVZERO` for modulus 0, `BADBLOCK` when the decrypted integer is 0, else its
bytes without the marker go to `BUF[0 .. j-2]` and `LEN <- j - 1` (rule R215). -/
def execDecblk (rc rd rn : RegIx) (s : State) : Host.Outcome State Fault Refusal :=
  if s.reg rn = 0 then s.raise .divzero
  else if bytelen (powMod (s.reg rc) (s.reg rd) (s.reg rn)) = 0 then s.raise .badblock
  else s.commit (.ok (s.storeBlock (powMod (s.reg rc) (s.reg rd) (s.reg rn))))

end Sys2Proof.Machine
end

