-- ==== Sys2Proof/Machine/ModArith.lean ====
section
/-! DEFINITION. The modular arithmetic commands (`41_modular_arithmetic.md`). -/

namespace Sys2Proof.Machine

open Sys2Proof

/-- `GCD rd, ra, rb`: `R[rd] <- Gcd(R[ra], R[rb])` (rule R142). -/
def execGcd (rd ra rb : RegIx) (s : State) : Host.Outcome State Fault Refusal :=
  s.commit (s.writeReg rd (gcdFn (s.reg ra) (s.reg rb)))

/-- `R[rd]` receives an inverse or the sentinel, `T` whether there is one (rules R144, R193). -/
def State.writeInverse (s : State) (rd : RegIx) (inv : Nat × Bool) : Except ErrCode State :=
  (s.writeReg rd inv.1).map (fun t => t.putT inv.2)

/-- `MODINV rd, ra, rn`: `R[rd]`, `T` from `ModInv(R[ra], R[rn])`; no inverse is a successful
completion with result 0 and `T = 0` (rule R144). -/
def execModinv (rd ra rn : RegIx) (s : State) : Host.Outcome State Fault Refusal :=
  s.commit (s.writeInverse rd (modInv (s.reg ra) (s.reg rn)))

/-- `MODMUL rd, ra, rb, rm`: `DIVZERO` for modulus 0, else `R[rd] <- (R[ra]*R[rb]) mod R[rm]`
(rule R147). -/
def execModmul (rd ra rb rm : RegIx) (s : State) : Host.Outcome State Fault Refusal :=
  if s.reg rm = 0 then s.raise .divzero
  else s.commit (s.writeReg rd (modMul (s.reg ra) (s.reg rb) (s.reg rm)))

/-- `POWMOD rd, rb, re, rm`: `DIVZERO` for modulus 0, checked before the loop, else
`R[rd] <- PowMod(R[rb], R[re], R[rm])` (rule R149). -/
def execPowmod (rd rb re rm : RegIx) (s : State) : Host.Outcome State Fault Refusal :=
  if s.reg rm = 0 then s.raise .divzero
  else s.commit (s.writeReg rd (powMod (s.reg rb) (s.reg re) (s.reg rm)))

end Sys2Proof.Machine
end

