-- ==== Sys2Proof/Machine/Random.lean ====
section
/-! DEFINITION. The draws of rule R10 over any random source: the raw number of `Config.lean`'s open
functions brought under the bound the range law gives (log entry 4). -/

namespace Sys2Proof.Machine

open Sys2Proof

/-- `RandInit` (rule R10). -/
def seedGenerator (src : RandSource) (seed : Seed) : Nat := src.init seed

/-- `RandBits(g, b)`: a value below `2^b` and the next generator state (rule R10). -/
def randBits (src : RandSource) (g b : Nat) : Nat × Nat :=
  ((src.bits g b).1 % 2 ^ b, (src.bits g b).2)

/-- `RandBelow(g, m)`, for `m > 0`: a value below `m` and the next generator state (rule R10). -/
def randBelow (src : RandSource) (g m : Nat) : Nat × Nat :=
  ((src.below g m).1 % m, (src.below g m).2)

end Sys2Proof.Machine
end

