-- ==== Sys2Proof/Machine/MillerRabin.lean ====
section
/-! DEFINITION. The Miller-Rabin engine: `IsPrime` (rule R171) and `MakePrime`'s candidate loop (rule R174),
over any random source. A result comes with the generator state after the draws made,
also when it is an error (rule R270). -/

namespace Sys2Proof.Machine

open Sys2Proof

/-- The factoring loop: halve `r` while it is even, counting in `s`; the answer is `(s, r)`. -/
def factorTwosLoop : Nat → Nat → Nat → Nat × Nat
  | 0, r, s => (s, r)
  | fuel + 1, r, s => if r % 2 = 0 then factorTwosLoop fuel (r / 2) (s + 1) else (s, r)

/-- `n - 1 = 2^s * r` with `r` odd, as `(s, r)`, for `n >= 2` (rule R171). -/
def factorTwos (n : Nat) : Nat × Nat := factorTwosLoop (bitlength (n - 1)) (n - 1) 0

/-- Up to `k` squarings of `y`: true when one reaches `n - 1`, false when one reaches 1 first or none
reaches `n - 1` (rule R171). -/
def squaringsPass : Nat → Nat → Nat → Bool
  | 0, _, _ => false
  | k + 1, y, n =>
    if modMul y y n = 1 then false
    else if modMul y y n = n - 1 then true
    else squaringsPass k (modMul y y n) n

/-- One round with witness `a`, for `n - 1 = 2^s * r`: `y = a^r mod n` is 1 or `n - 1`, or one of up
to `s - 1` squarings passes (rule R171). -/
def roundPasses (a n s r : Nat) : Bool :=
  if powMod a r n = 1 ∨ powMod a r n = n - 1 then true
  else squaringsPass (s - 1) (powMod a r n) n

/-- `k` rounds, one witness draw each; a round that rejects ends them at once (rule R171). -/
def roundsPass (src : RandSource) (n s r : Nat) : Nat → Nat → Bool × Nat
  | 0, g => (true, g)
  | k + 1, g =>
    if roundPasses (2 + (randBelow src g (n - 3)).1) n s r then
      roundsPass src n s r k (randBelow src g (n - 3)).2
    else (false, (randBelow src g (n - 3)).2)

/-- `IsPrime(n, iters)`: `SMALLN` for `n <= 4`, before any draw (rule R171). -/
def isPrime (src : RandSource) (n iters g : Nat) : Except ErrCode Bool × Nat :=
  if n ≤ 4 then (.error .smalln, g)
  else
    (.ok (roundsPass src n (factorTwos n).1 (factorTwos n).2 iters g).1,
      (roundsPass src n (factorTwos n).1 (factorTwos n).2 iters g).2)

/-- What a test of candidate `c` tells the search: an error, `c` itself, or another pass. -/
def acceptCandidate (c : Nat) : Except ErrCode Bool → Except ErrCode (Option Nat)
  | .error e => .error e
  | .ok true => .ok (some c)
  | .ok false => .ok none

/-- One pass of `MakePrime(bits, iters)`: draw, force the top bit on by adding `2^bits`, test
(rule R174). `some c` ends the loop with `c`, `none` goes round again. -/
def makePrimePass (src : RandSource) (bits iters g : Nat) : Except ErrCode (Option Nat) × Nat :=
  (acceptCandidate ((randBits src g bits).1 + 2 ^ bits)
      (isPrime src ((randBits src g bits).1 + 2 ^ bits) iters (randBits src g bits).2).1,
    (isPrime src ((randBits src g bits).1 + 2 ^ bits) iters (randBits src g bits).2).2)

/-- `MakePrime(bits, iters)`, cut off after `fuel` candidates (`none`), and the generator state after it
(rule R174). The loop has no cap of its own: a search that never ends is `none` for every `fuel`
(rule R320). -/
def makePrimeWithin (src : RandSource) (bits iters : Nat) :
    Nat → Nat → Option (Except ErrCode Nat × Nat)
  | 0, _ => none
  | fuel + 1, g =>
    match makePrimePass src bits iters g with
    | (.error c, g') => some (.error c, g')
    | (.ok (some c), g') => some (.ok c, g')
    | (.ok none, g') => makePrimeWithin src bits iters fuel g'

end Sys2Proof.Machine
end

