-- ==== Sys2Proof/Machine/Primality.lean ====
section
/-! DEFINITION. The primality commands (`42_primality.md`). -/

namespace Sys2Proof.Machine

open Sys2Proof

/-- `ISPRIME rn` over any random source: `NORNG` unseeded, `SMALLN` for a candidate up to 4, else `T`
says whether all rounds passed (rule R172). -/
def isprimeWith (src : RandSource) (rn : RegIx) (s : State) : Host.Outcome State Fault Refusal :=
  match s.g with
  | none => s.raise .norng
  | some g => s.drawn (isPrime src (s.reg rn) s.itersArg g) fun passed t => .ok (t.putT passed)

/-- `ISPRIME rn` (rule R172). -/
def execIsprime (rn : RegIx) (s : State) : Host.Outcome State Fault Refusal :=
  isprimeWith Config.source rn s

/-- `MKPRIME rd` over any random source (rule R176): `NORNG`, `PARAM`, then `MakePrime` from the `g` of
issue, given one candidate more than at the move before (rule R320, log entry 8). -/
def mkprimeWith (src : RandSource) (rd : RegIx) (s : State) : Host.Outcome State Fault Refusal :=
  match s.g with
  | none => s.raise .norng
  | some g =>
    if s.width < s.bitsArg + 1 then s.raise .param
    else
      s.search (makePrimeWithin src s.bitsArg s.itersArg (s.passes + 1) g) fun c t => t.writeReg rd c

/-- `MKPRIME rd` (rule R176). -/
def execMkprime (rd : RegIx) (s : State) : Host.Outcome State Fault Refusal :=
  mkprimeWith Config.source rd s

end Sys2Proof.Machine
end

