-- ==== Sys2Proof/Machine/KeyGen.lean ====
section
/-! DEFINITION. Key generation, private-key derivation and verification
(`43_keygen_and_signature.md`). `make_public` is one function of the arguments and the generator state,
its three loops cut off after a number of passes that grows with every move of the engine (log
entry 8). -/

namespace Sys2Proof.Machine

open Sys2Proof

/-- `lo = BITS div 4` (rule R191). -/
def splitLow (bits : Nat) : Nat := bits / 4

/-- `hi = (3*BITS) div 4` (rule R191). -/
def splitHigh (bits : Nat) : Nat := 3 * bits / 4

/-- The `e` loop of `MKPUB` with at most `fuel` candidates (rule R191). -/
def exponentWithin (src : RandSource) (bits tot : Nat) : Nat → Nat → Option (Nat × Nat)
  | 0, _ => none
  | fuel + 1, g =>
    if gcdFn (randBits src g bits).1 tot = 1 then some (randBits src g bits)
    else exponentWithin src bits tot fuel (randBits src g bits).2

/-- The key material `(p, q, n, e)` of `make_public`. -/
structure PublicMaterial where
  p : Nat
  q : Nat
  n : Nat
  e : Nat
  deriving DecidableEq, Repr

/-- `make_public`'s tail once `p` and `q` are found: the totient and the `e` loop (rule R191). -/
def publicTail (src : RandSource) (bits fuel p q g : Nat) :
    Option (Except ErrCode PublicMaterial × Nat) :=
  match lcmFn (p - 1) (q - 1) with
  | .error c => some (.error c, g)
  | .ok tot =>
    (exponentWithin src bits tot fuel g).map fun r => (.ok ⟨p, q, p * q, r.1⟩, r.2)

/-- `make_public(bits, iterations)` with each of its three loops cut off after `fuel` passes (`none`):
the empty split range, the split, `p`'s search, `q`'s search, `n`, the totient, the `e` candidates, in
that order of draws (rule R191). -/
def makePublicWithin (src : RandSource) (bits iters fuel g : Nat) :
    Option (Except ErrCode PublicMaterial × Nat) :=
  if splitHigh bits - splitLow bits = 0 then some (.error .param, g)
  else
    let split := randBelow src g (splitHigh bits - splitLow bits)
    let pbits := splitLow bits + split.1
    match makePrimeWithin src pbits iters fuel split.2 with
    | none => none
    | some (.error c, g1) => some (.error c, g1)
    | some (.ok p, g1) =>
      match makePrimeWithin src (bits - pbits) iters fuel g1 with
      | none => none
      | some (.error c, g2) => some (.error c, g2)
      | some (.ok q, g2) => publicTail src bits fuel p q g2

/-- `R[rp] <- p ; R[rq] <- q ; R[rn] <- n ; R[re] <- e`, all or none (rules R11, R191). -/
def State.writeKey (s : State) (rp rq rn re : RegIx) (p q e : Nat) : Except ErrCode State := do
  let s1 ← s.writeReg rp p
  let s2 ← s1.writeReg rq q
  let s3 ← s2.writeReg rn (p * q)
  s3.writeReg re e

/-- `MKPUB rp, rq, rn, re` over any random source (rule R191): `ILLEGAL` for coinciding destinations
(rule R101, log entry 21), `NORNG`, `PARAM`, then `make_public` from the `g` of issue, each loop given one
pass more than at the move before. Either order of the two `PARAM` checks answers the same. -/
def mkpubWith (src : RandSource) (rp rq rn re : RegIx) (s : State) :
    Host.Outcome State Fault Refusal :=
  if pairwiseDistinct rp rq rn re then
    match s.g with
    | none => s.raise .norng
    | some g =>
      if s.width < s.bitsArg + 2 then s.raise .param
      else
        s.search (makePublicWithin src s.bitsArg s.itersArg (s.passes + 1) g) fun m t =>
          t.writeKey rp rq rn re m.p m.q m.e
  else s.raise .illegal

/-- `MKPUB rp, rq, rn, re` (rule R191). -/
def execMkpub (rp rq rn re : RegIx) (s : State) : Host.Outcome State Fault Refusal :=
  mkpubWith Config.source rp rq rn re s

/-- `MKPRIV rd, re, rp, rq`: `PARAM` for a zero `p` or `q`, `DIVZERO` for `p = q = 1`, else `R[rd]`,
`T` from `ModInv(e, Lcm(p - 1, q - 1))`, which may not fit (rule R193). -/
def execMkpriv (rd re rp rq : RegIx) (s : State) : Host.Outcome State Fault Refusal :=
  if s.reg rp = 0 ∨ s.reg rq = 0 then s.raise .param
  else
    match lcmFn (s.reg rp - 1) (s.reg rq - 1) with
    | .error c => s.raise c
    | .ok tot => s.commit (s.writeInverse rd (modInv (s.reg re) tot))

/-- `VERIFY rs, re, rn, rm`: `DIVZERO` for modulus 0, else `T` says whether
`PowMod(R[rs], R[re], R[rn])` equals the expected message as it stands (rule R196). -/
def execVerify (rs re rn rm : RegIx) (s : State) : Host.Outcome State Fault Refusal :=
  if s.reg rn = 0 then s.raise .divzero
  else s.commit (.ok (s.putT (powMod (s.reg rs) (s.reg re) (s.reg rn) == s.reg rm)))

end Sys2Proof.Machine
end

