-- ==== Sys2Proof/Machine/RegFile.lean ====
section
/-! DEFINITION. The register-file and random-source commands (`40_regfile_and_rng.md`). -/

namespace Sys2Proof.Machine

open Sys2Proof

/-- `NOP`: what every successful completion writes, and nothing else (rule R120). -/
def execNop (s : State) : Host.Outcome State Fault Refusal := s.commit (.ok s)

/-- `MOV rd, rs`: `R[rd] <- R[rs]` (rule R121). -/
def execMov (rd rs : RegIx) (s : State) : Host.Outcome State Fault Refusal :=
  s.commit (s.writeReg rd (s.reg rs))

/-- `LDI rd, imm16`: `R[rd] <- zext_W(imm16)` (rule R122). -/
def execLdi (rd : RegIx) (imm : Imm16) (s : State) : Host.Outcome State Fault Refusal :=
  s.commit (s.writeReg rd (immediate imm))

/-- `CLR rd`: `R[rd] <- 0` (rule R123). -/
def execClr (rd : RegIx) (s : State) : Host.Outcome State Fault Refusal :=
  s.commit (s.writeReg rd 0)

/-- What `CLRALL` clears: everything that can hold key-dependent data (rule R124). -/
def State.wipe (s : State) : State :=
  { s with regs := Vector.replicate 16 0, buf := [], len := 0, kbytes := 0,
           seedLo := 0, seedHi := 0, g := none, tflag := false }

/-- `CLRALL` (rule R124). -/
def execClrall (s : State) : Host.Outcome State Fault Refusal := s.commit (.ok s.wipe)

/-- `SEED` over any random source: `g <- RandInit(SEED_HI || SEED_LO)`, `SEEDED <- 1` (rule R126). -/
def seedWith (src : RandSource) (s : State) : Host.Outcome State Fault Refusal :=
  s.commit (.ok (s.putGen (seedGenerator src s.seedValue)))

/-- `SEED` (rule R126). -/
def execSeed (s : State) : Host.Outcome State Fault Refusal := seedWith Config.source s

/-- `RNGCLR`: `SEEDED <- 0`, `g` holds no value; the seed registers keep theirs (rule R127). -/
def execRngclr (s : State) : Host.Outcome State Fault Refusal := s.commit (.ok s.dropGen)

end Sys2Proof.Machine
end

