-- ==== Sys2Proof/Machine/Dispatch.lean ====
section
/-! DEFINITION. The one match over the 19 commands: what the engine does with a latched command. -/

namespace Sys2Proof.Machine

open Sys2Proof

/-- The command engine runs a latched command on the state it is latched in. -/
def exec (i : Instr) (s : State) : Host.Outcome State Fault Refusal :=
  match i with
  | .nop => Sys2Proof.Machine.execNop s
  | .mov rd rs => Sys2Proof.Machine.execMov rd rs s
  | .ldi rd imm => Sys2Proof.Machine.execLdi rd imm s
  | .clr rd => Sys2Proof.Machine.execClr rd s
  | .clrall => Sys2Proof.Machine.execClrall s
  | .seed => Sys2Proof.Machine.execSeed s
  | .rngclr => Sys2Proof.Machine.execRngclr s
  | .gcd rd ra rb => Sys2Proof.Machine.execGcd rd ra rb s
  | .modinv rd ra rn => Sys2Proof.Machine.execModinv rd ra rn s
  | .modmul rd ra rb rm => Sys2Proof.Machine.execModmul rd ra rb rm s
  | .powmod rd rb re rm => Sys2Proof.Machine.execPowmod rd rb re rm s
  | .isprime rn => Sys2Proof.Machine.execIsprime rn s
  | .mkprime rd => Sys2Proof.Machine.execMkprime rd s
  | .mkpub rp rq rn re => Sys2Proof.Machine.execMkpub rp rq rn re s
  | .mkpriv rd re rp rq => Sys2Proof.Machine.execMkpriv rd re rp rq s
  | .verify rs re rn rm => Sys2Proof.Machine.execVerify rs re rn rm s
  | .blksz rn => Sys2Proof.Machine.execBlksz rn s
  | .encblk rd re rn => Sys2Proof.Machine.execEncblk rd re rn s
  | .decblk rc rd rn => Sys2Proof.Machine.execDecblk rc rd rn s

end Sys2Proof.Machine
end

