-- ==== Sys2Proof/Machine/HostPort.lean ====
section
/-! DEFINITION. The bus port: the register map (rules R44, R61), what a host read returns and what a
host write does, idle (rule R62) and busy (rule R70), bus errors (rule R68) and offsets the block does
not decode (rule R69). -/

namespace Sys2Proof.Machine

open Sys2Proof

/-! ## The register map (rules R44, R61) -/

/-- Bytes of one big integer, and of `BUF`: `W/8` (rule R6). -/
def regBytes (w : Nat) : Nat := w / 8

/-- `BUFBASE = 0x1000 + 16*(W/8)` (rule R44). -/
def bufBase (w : Nat) : Nat := 0x1000 + 16 * regBytes w

/-- The first byte offset the block does not decode, `BUFBASE + W/8` (rules R61, R69). -/
def decodedLimit (w : Nat) : Nat := bufBase w + regBytes w

/-- The control registers' offsets (rule R44); the rest of the first 4096 bytes is reserved. -/
def controlTarget (off : Nat) : Target :=
  if off = 0x000 then .id
  else if off = 0x004 then .cmd
  else if off = 0x008 then .status
  else if off = 0x00C then .errcode
  else if off = 0x010 then .errcmd
  else if off = 0x014 then .ctrl
  else if off = 0x018 then .action
  else if off = 0x01C then .iters
  else if off = 0x020 then .bits
  else if off = 0x024 then .len
  else if off = 0x028 then .kbytes
  else if off = 0x02C then .seedLo
  else if off = 0x030 then .seedHi
  else if off = 0x034 then .cmdcnt
  else if off = 0x038 then .wparam
  else .reserved

/-- What a word-aligned byte offset names in a block of width `w` (rules R44, R62, R69). -/
def targetOf (w off : Nat) : Target :=
  if off < 0x1000 then controlTarget off
  else if off < bufBase w then
    .regWord (BitVec.ofNat 4 ((off - 0x1000) / regBytes w)) ((off - 0x1000) % regBytes w / 4)
  else if off < decodedLimit w then .bufWord ((off - bufBase w) / 4)
  else .outside

/-- The byte offset of a target, in a block of width `w` (rule R44). -/
def offsetOf (w : Nat) : Target → Nat
  | .id => 0x000
  | .cmd => 0x004
  | .status => 0x008
  | .errcode => 0x00C
  | .errcmd => 0x010
  | .ctrl => 0x014
  | .action => 0x018
  | .iters => 0x01C
  | .bits => 0x020
  | .len => 0x024
  | .kbytes => 0x028
  | .seedLo => 0x02C
  | .seedHi => 0x030
  | .cmdcnt => 0x034
  | .wparam => 0x038
  | .reserved => 0x03C
  | .regWord r j => 0x1000 + r.toNat * regBytes w + 4 * j
  | .bufWord j => bufBase w + 4 * j
  | .outside => decodedLimit w

/-! ## Reads -/

/-- `ID`, the constant "RSA" and version 1 (rule R30). -/
def idWord : Word := 0x52534101

/-- Word `j` of the buffer window: `BUF[4j+3] || BUF[4j+2] || BUF[4j+1] || BUF[4j]` (rules R65, R67). -/
def State.bufWordAt (s : State) (j : Nat) : Word :=
  s.bufByte (4 * j + 3) ++ s.bufByte (4 * j + 2) ++ s.bufByte (4 * j + 1) ++ s.bufByte (4 * j)

/-- What a read of a target returns when it is not refused (rule R62). -/
def State.readValue (s : State) : Target → Word
  | .id => idWord
  | .cmd => 0
  | .status => s.statusWord
  | .errcode => BitVec.setWidth 32 s.errcode.number
  | .errcmd => s.errcmd
  | .ctrl => BitVec.setWidth 32 (BitVec.ofBool s.ie)
  | .action => 0
  | .iters => s.iters
  | .bits => s.bits
  | .len => s.len
  | .kbytes => s.kbytes
  | .seedLo => s.seedLo
  | .seedHi => s.seedHi
  | .cmdcnt => s.cmdcnt
  | .wparam => BitVec.ofNat 32 s.width
  | .reserved => 0
  | .regWord r j => wordOf (s.reg r) j
  | .bufWord j => s.bufWordAt j
  | .outside => 0

/-- The targets a busy block refuses to read: the windows (rule R70). -/
def refusedRead : Target → Bool
  | .regWord _ _ => true
  | .bufWord _ => true
  | .id => false
  | .cmd => false
  | .status => false
  | .errcode => false
  | .errcmd => false
  | .ctrl => false
  | .action => false
  | .iters => false
  | .bits => false
  | .len => false
  | .kbytes => false
  | .seedLo => false
  | .seedHi => false
  | .cmdcnt => false
  | .wparam => false
  | .reserved => false
  | .outside => false

/-- A refused access: nothing but the sticky mark (rule R70). -/
def State.refuse (s : State) : State := { s with hosterr := true }

/-- The last answer at the bus port (log entry 10). -/
def State.answer (s : State) (r : Response) : State := { s with resp := r }

/-- A read of a target: refused while busy with 0 and `HOSTERR`, else the value (rules R62, R70). -/
def State.readTarget (s : State) (t : Target) : State :=
  if s.busy && refusedRead t then s.refuse.answer (.data 0) else s.answer (.data (s.readValue t))

/-! ## Writes -/

/-- The targets a busy block refuses to write (rule R70). -/
def refusedWrite : Target → Bool
  | .cmd => true
  | .iters => true
  | .bits => true
  | .len => true
  | .seedLo => true
  | .seedHi => true
  | .regWord _ _ => true
  | .bufWord _ => true
  | .id => false
  | .status => false
  | .errcode => false
  | .errcmd => false
  | .ctrl => false
  | .action => false
  | .kbytes => false
  | .cmdcnt => false
  | .wparam => false
  | .reserved => false
  | .outside => false

/-- A write to `ACTION`: `ACK` (bit 1) before `ABORT` (bit 0), other bits ignored (rule R31). -/
def State.action (s : State) (v : Word) : State :=
  if v.getLsbD 0 then (if v.getLsbD 1 then s.acknowledge else s).abort
  else if v.getLsbD 1 then s.acknowledge
  else s

/-- The four bytes of a word, byte lane 0 first (rule R65). -/
def laneBytes (v : Word) : List Byte :=
  [v.extractLsb' 0 8, v.extractLsb' 8 8, v.extractLsb' 16 8, v.extractLsb' 24 8]

/-- Word `j` of `BUF` replaced, `LEN` kept (rule R67). -/
def State.putBufWord (s : State) (j : Nat) (v : Word) : State :=
  { s with buf := Memory.writeBytes s.buf (4 * j) (laneBytes v) }

/-- Word `j` of `R[r]` replaced, its other bits kept (rule R66). -/
def State.putRegWord (s : State) (r : RegIx) (j : Nat) (v : Word) : State :=
  s.putReg r (replaceWord (s.reg r) j v)

/-- What a write to a target does when it is not refused (rule R62). -/
def State.writeValue (s : State) (v : Word) : Target → State
  | .cmd => s.issue v
  | .ctrl => { s with ie := v.getLsbD 0 }
  | .action => s.action v
  | .iters => { s with iters := v }
  | .bits => { s with bits := v }
  | .len => { s with len := v }
  | .seedLo => { s with seedLo := v }
  | .seedHi => { s with seedHi := v }
  | .regWord r j => s.putRegWord r j v
  | .bufWord j => s.putBufWord j v
  | .id => s
  | .status => s
  | .errcode => s
  | .errcmd => s
  | .kbytes => s
  | .cmdcnt => s
  | .wparam => s
  | .reserved => s
  | .outside => s

/-- A write to a target: refused while busy with `HOSTERR`, else performed (rules R62, R70). -/
def State.writeTarget (s : State) (t : Target) (v : Word) : State :=
  if s.busy && refusedWrite t then s.refuse.answer .written
  else (s.writeValue v t).answer .written

/-! ## The two access primitives -/

/-- The block takes an access of four bytes at a multiple of 4 and no other (rule R68). -/
def aligned (off size : Nat) : Bool := size == 4 && off % 4 == 0

/-- `MemRead` at the port (rules R62, R68, R69, R70). -/
def hostRead (off size : Nat) (s : State) : Host.Outcome State Fault Refusal :=
  if decodedLimit s.width ≤ off then .fault (.outsideBlock off)
  else if aligned off size then .next (s.readTarget (targetOf s.width off))
  else .next (s.answer .busError)

/-- `MemWrite` at the port (rules R62, R68, R69, R70). -/
def hostWrite (off size : Nat) (v : Word) (s : State) : Host.Outcome State Fault Refusal :=
  if decodedLimit s.width ≤ off then .fault (.outsideBlock off)
  else if aligned off size then .next (s.writeTarget (targetOf s.width off) v)
  else .next (s.answer .busError)

end Sys2Proof.Machine
end

