-- ==== Sys2Proof/Machine/Engine.lean ====
section
/-! DEFINITION. The two agents' moves (rule R72): the command engine's, and the host's actions. -/

namespace Sys2Proof.Machine

open Sys2Proof

/-- The engine runs the latched word: its command, or `ILLEGAL` for a word that is none (rules R93,
R100, R261). -/
def runLatched (s : State) : Host.Outcome State Fault Refusal :=
  match decode s.cmdlatch with
  | .ok i => exec i s
  | .error _ => s.raise .illegal

/-- The engine's turn: it runs the latched word while busy, and does nothing while idle (rules R287,
R301). -/
def engineTurn (s : State) : Host.Outcome State Fault Refusal :=
  if s.busy then runLatched s else .next s

/-- The state with the oldest pending event taken. -/
def State.takeEvent (s : State) (rest : List Event) : State := { s with pending := rest }

/-- The host waits: while busy the engine moves and the wait stays pending; idle, the poll of `STATUS`
reads `BUSY = 0` and the wait is over (rule R107). -/
def hostWait (rest : List Event) (s : State) : Host.Outcome State Fault Refusal :=
  if s.busy then runLatched s
  else .next ((s.takeEvent rest).answer (.data s.statusWord))

/-- The reset input (rule R300): every element at its reset value, the width kept. The host's further
actions stay pending (log entry 17). -/
def hardReset (rest : List Event) (s : State) : Host.Outcome State Fault Refusal :=
  .next ((State.resetAt s.width).takeEvent rest)

/-- One move: of the host when an action of its is the oldest pending event, else of the engine
(rules R72, R312; log entry 5). -/
def move (s : State) : Host.Outcome State Fault Refusal :=
  match s.pending with
  | [] => engineTurn s
  | .engine :: rest => engineTurn (s.takeEvent rest)
  | .wait :: rest => hostWait rest s
  | .read off size :: rest => hostRead off size (s.takeEvent rest)
  | .write off size v :: rest => hostWrite off size v (s.takeEvent rest)
  | .reset :: rest => hardReset rest s

/-- A word as the engine's next command: issued, with the engine to move first. -/
def State.placeCommand (s : State) (v : Word) : State :=
  { s.issue v with pending := .engine :: s.pending }

end Sys2Proof.Machine
end

