-- ==== Sys2Proof/Machine/Step.lean ====
section
/-! DEFINITION. One step of the machine, and the placing of a command where the next step runs it. -/

namespace Sys2Proof.Machine

open Sys2Proof

/-- One step: one move of one of the two agents (rule R72). -/
def step (s : State) : Host.Outcome State Fault Refusal := move s

/-- `s` with the command word of the low `nbits` bits of `w` issued and the engine to move, so that
`step` runs exactly it. The block has no memory to fetch from (rule R24): this stands for the host's
write of `CMD` (log entry 6). -/
def State.withFetchWord (s : State) (nbits w : Nat) : State :=
  s.placeCommand (BitVec.ofNat 32 (w % 2 ^ nbits))

end Sys2Proof.Machine
end

