-- ==== Sys2Proof/Machine/Assembler.lean ====
section
/-! DEFINITION. Assembler syntax (rule R105), pseudo-commands (rule R106), register aliases
(rule R108). A line is a list of characters. The hardware attaches no meaning to any of it. -/

namespace Sys2Proof.Machine

open Sys2Proof

/-! ## Pseudo-commands (rule R106): each is exactly one command -/

/-- `SIGN rd, rm, rk, rn` is `POWMOD rd, rm, rk, rn` (rules R106, R194). -/
def pseudoSign (rd rm rk rn : RegIx) : Instr := .powmod rd rm rk rn

/-- `ENCRYPT rd, rm, re, rn` is `POWMOD rd, rm, re, rn` (rule R106). -/
def pseudoEncrypt (rd rm re rn : RegIx) : Instr := .powmod rd rm re rn

/-- `DECRYPT rd, rc, rk, rn` is `POWMOD rd, rc, rk, rn` (rule R106). -/
def pseudoDecrypt (rd rc rk rn : RegIx) : Instr := .powmod rd rc rk rn

/-- `SQRMOD rd, ra, rm` is `MODMUL rd, ra, ra, rm` (rule R106). -/
def pseudoSqrmod (rd ra rm : RegIx) : Instr := .modmul rd ra ra rm

/-- `ZERO rd` is `CLR rd` (rule R106). -/
def pseudoZero (rd : RegIx) : Instr := .clr rd

/-! ## Names -/

/-- The alias of a register (rule R108). -/
def aliasIndex (c : Char) : Option RegIx :=
  if c = 'N' then some 0
  else if c = 'E' then some 1
  else if c = 'D' then some 2
  else if c = 'S' then some 3
  else if c = 'P' then some 4
  else if c = 'Q' then some 5
  else if c = 'M' then some 6
  else if c = 'C' then some 7
  else none

/-- The value of a digit in a base up to 16, letters in either case. -/
def digitValue (base : Nat) (c : Char) : Option Nat :=
  let v :=
    if '0'.toNat ≤ c.toNat ∧ c.toNat ≤ '9'.toNat then some (c.toNat - '0'.toNat)
    else if 'a'.toNat ≤ c.toNat ∧ c.toNat ≤ 'f'.toNat then some (c.toNat - 'a'.toNat + 10)
    else if 'A'.toNat ≤ c.toNat ∧ c.toNat ≤ 'F'.toNat then some (c.toNat - 'A'.toNat + 10)
    else none
  v.bind fun n => if n < base then some n else none

/-- The digits of a numeral, most significant first, after those read so far. -/
def digitsValue (base : Nat) (acc : Nat) : List Char → Option Nat
  | [] => some acc
  | c :: cs => (digitValue base c).bind fun d => digitsValue base (acc * base + d) cs

/-- A numeral with at least one digit. -/
def numeral (base : Nat) : List Char → Option Nat
  | [] => none
  | c :: cs => digitsValue base 0 (c :: cs)

/-- A decimal or `0x` hexadecimal number (rule R105). -/
def numberOf : List Char → Option Nat
  | '0' :: 'x' :: cs => numeral 16 cs
  | cs => numeral 10 cs

/-- The immediate of `LDI`: 0 to 65535 (rule R105). -/
def immediateOf (cs : List Char) : Option Imm16 :=
  (numberOf cs).bind fun n => if n < 2 ^ 16 then some (BitVec.ofNat 16 n) else none

/-- A register: `R0` to `R15` or an alias (rules R105, R108). -/
def registerOf : List Char → Option RegIx
  | [c] => aliasIndex c
  | 'R' :: [c] => (digitValue 10 c).map (BitVec.ofNat 4)
  | 'R' :: '1' :: [c] =>
    (digitValue 10 c).bind fun d => if d < 6 then some (BitVec.ofNat 4 (10 + d)) else none
  | _ => none

/-! ## Lines -/

/-- A blank (DESIGN CHOICE, log entry 18). -/
def blank (c : Char) : Bool := c = ' ' || c = '\t'

/-- The line up to its comment, which runs from `--` to the end (rule R105). -/
def dropComment : List Char → List Char
  | [] => []
  | ['-'] => ['-']
  | '-' :: '-' :: _ => []
  | c :: cs => c :: dropComment cs

/-- Without leading and trailing blanks. -/
def trim (cs : List Char) : List Char :=
  ((cs.dropWhile blank).reverse.dropWhile blank).reverse

/-- The pieces between commas. -/
def commaPieces : List Char → List (List Char)
  | [] => [[]]
  | ',' :: cs => [] :: commaPieces cs
  | c :: cs =>
    match commaPieces cs with
    | [] => [[c]]
    | p :: ps => (c :: p) :: ps

/-- The operands of a line: none for blank text, else the pieces between commas. -/
def operandsOf (cs : List Char) : List (List Char) :=
  if trim cs = [] then [] else (commaPieces cs).map trim

/-- The command of a mnemonic with register operands only (rules R98, R106). -/
def registerCommand (mnemonic : List Char) (rs : List RegIx) : Option Instr :=
  match rs with
  | [] =>
    if mnemonic = ['N', 'O', 'P'] then some .nop
    else if mnemonic = ['C', 'L', 'R', 'A', 'L', 'L'] then some .clrall
    else if mnemonic = ['S', 'E', 'E', 'D'] then some .seed
    else if mnemonic = ['R', 'N', 'G', 'C', 'L', 'R'] then some .rngclr
    else none
  | [a] =>
    if mnemonic = ['C', 'L', 'R'] then some (.clr a)
    else if mnemonic = ['Z', 'E', 'R', 'O'] then some (pseudoZero a)
    else if mnemonic = ['I', 'S', 'P', 'R', 'I', 'M', 'E'] then some (.isprime a)
    else if mnemonic = ['M', 'K', 'P', 'R', 'I', 'M', 'E'] then some (.mkprime a)
    else if mnemonic = ['B', 'L', 'K', 'S', 'Z'] then some (.blksz a)
    else none
  | [a, b] => if mnemonic = ['M', 'O', 'V'] then some (.mov a b) else none
  | [a, b, c] =>
    if mnemonic = ['G', 'C', 'D'] then some (.gcd a b c)
    else if mnemonic = ['M', 'O', 'D', 'I', 'N', 'V'] then some (.modinv a b c)
    else if mnemonic = ['E', 'N', 'C', 'B', 'L', 'K'] then some (.encblk a b c)
    else if mnemonic = ['D', 'E', 'C', 'B', 'L', 'K'] then some (.decblk a b c)
    else if mnemonic = ['S', 'Q', 'R', 'M', 'O', 'D'] then some (pseudoSqrmod a b c)
    else none
  | [a, b, c, d] =>
    if mnemonic = ['M', 'O', 'D', 'M', 'U', 'L'] then some (.modmul a b c d)
    else if mnemonic = ['P', 'O', 'W', 'M', 'O', 'D'] then some (.powmod a b c d)
    else if mnemonic = ['M', 'K', 'P', 'U', 'B'] then some (.mkpub a b c d)
    else if mnemonic = ['M', 'K', 'P', 'R', 'I', 'V'] then some (.mkpriv a b c d)
    else if mnemonic = ['V', 'E', 'R', 'I', 'F', 'Y'] then some (.verify a b c d)
    else if mnemonic = ['S', 'I', 'G', 'N'] then some (pseudoSign a b c d)
    else if mnemonic = ['E', 'N', 'C', 'R', 'Y', 'P', 'T'] then some (pseudoEncrypt a b c d)
    else if mnemonic = ['D', 'E', 'C', 'R', 'Y', 'P', 'T'] then some (pseudoDecrypt a b c d)
    else none
  | _ => none

/-- The command of a mnemonic and its operands. -/
def commandOf (mnemonic : List Char) (operands : List (List Char)) : Option Instr :=
  if mnemonic = ['L', 'D', 'I'] then
    match operands with
    | [r, v] => (registerOf r).bind fun a => (immediateOf v).map (.ldi a)
    | _ => none
  else (operands.mapM registerOf).bind (registerCommand mnemonic)

/-- One assembler line without its comment and outer blanks (rule R105). -/
def commandLine (line : List Char) : Option Instr :=
  commandOf (line.takeWhile fun c => !blank c) (operandsOf (line.dropWhile fun c => !blank c))

/-- The word of an assembler line; `none` for a line that holds no command (rule R105). -/
def assemble (line : List Char) : Option Word :=
  (commandLine (trim (dropComment line))).map encode

end Sys2Proof.Machine
end

