-- ==== Sys2Proof/Machine/HostText.lean ====
section
/-! DEFINITION. The host's text and stream conventions (`45_host_stream_protocol.md`): hexadecimal text,
key files, the identity's integer, the chunks and lines of a stream. None of it crosses the block's
boundary (rule R230); a host that drives the block computes with it. -/

namespace Sys2Proof.Machine

open Sys2Proof

/-! ## Hexadecimal text (rule R235) -/

/-- A lower-case hexadecimal digit. -/
def hexDigit (d : Nat) : Char :=
  if d < 10 then Char.ofNat ('0'.toNat + d) else Char.ofNat ('a'.toNat + d - 10)

/-- The digits of a number in front of those already written. -/
def hexLoop : Nat → Nat → List Char → List Char
  | 0, _, acc => acc
  | fuel + 1, n, acc => if n = 0 then acc else hexLoop fuel (n / 16) (hexDigit (n % 16) :: acc)

/-- A number in hexadecimal: lower case, no leading zeros, `0` for zero (rule R235). -/
def hexText (n : Nat) : List Char := if n = 0 then ['0'] else hexLoop (bitlength n) n []

/-- The number a hexadecimal line holds, either case; `none` for other text (rules R235, R248). Where the
spec leaves a reader open, the model chooses (DESIGN CHOICE, log entry 18): a line with leading zeros is
read, since rule R235 forbids them in what is written and does not say whether a reader refuses them; a
blank line, and a line with a space, a tab or a carriage return in it, is refused, since
`91_not_in_source.md` N20 lists both as not said and rule R235 does not settle them. -/
def parseHex (cs : List Char) : Option Nat := numeral 16 cs

/-! ## Key files (rules R233, R234, R248) -/

/-- A line of text with its line feed (rule R235). -/
def textLine (cs : List Char) : List Char := cs ++ ['\n']

/-- The private key file: `n`, then `d` (rule R233). -/
def privateKeyText (n d : Nat) : List Char := textLine (hexText n) ++ textLine (hexText d)

/-- The public key file: `n`, `e`, `s`, then the identity as it stands (rule R234). -/
def publicKeyText (n e s : Nat) (identity : List Char) : List Char :=
  textLine (hexText n) ++ textLine (hexText e) ++ textLine (hexText s) ++ textLine identity

/-- The lines of a text: the pieces that a line feed ends, and an unended last piece. -/
def textLines : List Char → List (List Char)
  | [] => []
  | '\n' :: cs => [] :: textLines cs
  | c :: cs =>
    match textLines cs with
    | [] => [[c]]
    | l :: ls => (c :: l) :: ls

/-- `n` and `d` of a private key file; `none` for a malformed one (rules R233, R248). -/
def parsePrivateKey (text : List Char) : Option (Nat × Nat) :=
  match textLines text with
  | [n, d] => (parseHex n).bind fun n => (parseHex d).map fun d => (n, d)
  | _ => none

/-- `n`, `e`, `s`, identity of a public key file; `none` for a malformed one (rules R234, R248). -/
def parsePublicKey (text : List Char) : Option (Nat × Nat × Nat × List Char) :=
  match textLines text with
  | [n, e, s, identity] =>
    (parseHex n).bind fun n => (parseHex e).bind fun e => (parseHex s).map fun s => (n, e, s, identity)
  | _ => none

/-! ## The identity's integer (rule R240) -/

/-- The value of a base-62 digit; `none` outside the alphabet (rule R240). -/
def base62Digit (c : Char) : Option Nat :=
  if '0'.toNat ≤ c.toNat ∧ c.toNat ≤ '9'.toNat then some (c.toNat - '0'.toNat)
  else if 'a'.toNat ≤ c.toNat ∧ c.toNat ≤ 'z'.toNat then some (c.toNat - 'a'.toNat + 10)
  else if 'A'.toNat ≤ c.toNat ∧ c.toNat ≤ 'Z'.toNat then some (c.toNat - 'A'.toNat + 36)
  else none

/-- The identity's digits after those read so far. -/
def base62Loop (acc : Nat) : List Char → Option Nat
  | [] => some acc
  | c :: cs => (base62Digit c).bind fun d => base62Loop (acc * 62 + d) cs

/-- `Base62(identity)`, first character most significant; `none` when a character is outside the
alphabet (rule R240). -/
def base62 (identity : List Char) : Option Nat := base62Loop 0 identity

/-- The identity's integer when it can be written to a register: `none` for a character outside the
alphabet and for an integer that does not fit `W` bits (rule R240). -/
def identityInteger (w : Nat) (identity : List Char) : Option Nat :=
  (base62 identity).bind fun m => if m < 2 ^ w then some m else none

/-! ## Streams (rules R242, R244) -/

/-- Chunks of `size` bytes, the last one shorter and never left out, not even empty (rule R242). -/
def chunksLoop (size : Nat) : Nat → List Byte → List (List Byte)
  | 0, _ => []
  | fuel + 1, bs =>
    if bs.length < size then [bs] else bs.take size :: chunksLoop size fuel (bs.drop size)

/-- The chunks of a stream for block size `k`; none for `k < 2` (rule R242). -/
def chunks (k : Nat) (bs : List Byte) : Option (List (List Byte)) :=
  if k < 2 then none else some (chunksLoop (k - 1) (bs.length + 1) bs)

/-- The ciphertext lines of a stream under the key `(n, e)`, without their line feeds (rule R242). -/
def cipherLines (n e : Nat) (bs : List Byte) : Option (List (List Char)) :=
  (chunks (blockSize n) bs).map fun cs => cs.map fun c => hexText (powMod (packBlock c) e n)

/-- The ciphertext stream of a list of lines: each ended by a line feed, no trailing record
(rules R235, R242). -/
def cipherText (lines : List (List Char)) : List Char := lines.flatMap textLine

/-- The bytes of one ciphertext line under the key `(n, d)` in a block of width `w`; `none` for text that
is no hexadecimal number, for one that does not fit `W` bits, for modulus 0 and for a block that decrypts
to 0 (rules R215, R244, R248). -/
def plainChunk (w n d : Nat) (line : List Char) : Option (List Byte) :=
  (parseHex line).bind fun c =>
    if 2 ^ w ≤ c ∨ n = 0 then none
    else if powMod c d n = 0 then none
    else some (unpackBlock (powMod c d n))

end Sys2Proof.Machine
end

