-- ==== Sys2Proof/Machine/HostScript.lean ====
section
/-! DEFINITION. The host's scripts (rule R107) as events of the port, the key generation script (rule R232)
and the end of a run (rule R312). -/

namespace Sys2Proof.Machine

open Sys2Proof

/-- One line of a host script (rule R107). -/
inductive ScriptLine where
  /-- `wr NAME, v` -/
  | wr (name : Target) (v : Word)
  /-- `wrr Ri, v` -/
  | wrr (r : RegIx) (v : Nat)
  /-- `wrb b0 b1 ...` -/
  | wrb (bytes : List Byte)
  /-- `cmd <assembler line>`, its command -/
  | cmd (i : Instr)
  /-- `wait` -/
  | wait
  /-- `rd NAME` -/
  | rd (name : Target)
  /-- `rdr Ri` -/
  | rdr (r : RegIx)
  /-- `rdb`, for the `LEN` the host then finds (log entry 18) -/
  | rdb (len : Nat)
  deriving DecidableEq, Repr

/-- A 32-bit write of a named target. -/
def writeTo (w : Nat) (t : Target) (v : Word) : Event := .write (offsetOf w t) 4 v

/-- A 32-bit read of a named target. -/
def readFrom (w : Nat) (t : Target) : Event := .read (offsetOf w t) 4

/-- Word `j` of a byte string, unlisted bytes 0 (rules R65, R107). -/
def chunkWord (bytes : List Byte) (j : Nat) : Word :=
  bytes.getD (4 * j + 3) 0 ++ bytes.getD (4 * j + 2) 0 ++ bytes.getD (4 * j + 1) 0
    ++ bytes.getD (4 * j) 0

/-- The words that hold `n` bytes. -/
def wordsFor (n : Nat) : Nat := (n + 3) / 4

/-- The host actions of a script line, in a block of width `w` (rule R107). -/
def ScriptLine.events (w : Nat) : ScriptLine → List Event
  | .wr name v => [writeTo w name v]
  | .wrr r v => (List.range (w / 32)).map fun j => writeTo w (.regWord r j) (wordOf v j)
  | .wrb bytes =>
    ((List.range (wordsFor bytes.length)).map fun j => writeTo w (.bufWord j) (chunkWord bytes j))
      ++ [writeTo w .len (BitVec.ofNat 32 bytes.length)]
  | .cmd i => [writeTo w .cmd (encode i)]
  | .wait => [.wait]
  | .rd name => [readFrom w name]
  | .rdr r => (List.range (w / 32)).map fun j => readFrom w (.regWord r j)
  | .rdb len => readFrom w .len :: (List.range (wordsFor len)).map fun j => readFrom w (.bufWord j)

/-- The host actions of a script. -/
def scriptEvents (w : Nat) (lines : List ScriptLine) : List Event :=
  lines.flatMap (ScriptLine.events w)

/-- A command and the wait for its completion, as script lines. The protocol around them, with its
choices, is `command` in `HostProcedures.lean` (rule R231). -/
def runCommand (i : Instr) : List ScriptLine := [.cmd i, .wait]

/-- The key generation procedure in script form (rule R232), in a block of width `w`; `none` when the
identity has no integer that fits (rule R240). Registers `N` 0, `E` 1, `D` 2, `S` 3, `P` 4, `Q` 5, `M` 6
(rule R108). -/
def keyGeneration (w : Nat) (seed : Seed) (bits iters : Word) (identity : List Char) :
    Option (List ScriptLine) :=
  (identityInteger w identity).map fun m =>
    [.wr .seedLo (seed.extractLsb' 0 32), .wr .seedHi (seed.extractLsb' 32 32)]
      ++ runCommand .seed
      ++ [.wr .bits bits, .wr .iters iters]
      ++ runCommand (.mkpub 4 5 0 1)
      ++ runCommand (.mkpriv 2 1 4 5)
      ++ [.wrr 6 m]
      ++ runCommand (pseudoSign 3 6 2 0)
      ++ [.rdr 0, .rdr 1, .rdr 3, .rdr 2]
      ++ runCommand (.clr 4)
      ++ runCommand (.clr 5)
      ++ runCommand .rngclr

/-- The run has ended: the host has performed its last action and the block is idle (rule R312). -/
def State.runEnded (s : State) : Bool := s.pending.isEmpty && !s.busy

/-- At most `fuel` steps, stopping where the run has ended (rule R312). -/
def runScript : Nat → State → Host.Outcome State Fault Refusal
  | 0, s => .next s
  | fuel + 1, s =>
    if s.runEnded then .next s
    else
      match step s with
      | .next t => runScript fuel t
      | .fault f => .fault f
      | .refused r => .refused r

end Sys2Proof.Machine
end

