-- ==== Sys2Proof/Machine/HostProcedures.lean ====
section
/-! DEFINITION. The host's procedures, which choose by what they read: the command protocol (rule R231),
key generation (rule R232), encryption of a stream after verification of the key (rules R242, R246),
decryption of a stream (rule R244). A script (rule R107) is a fixed list and cannot choose. A procedure
drives the block one action at a time through `step`. -/

namespace Sys2Proof.Machine

open Sys2Proof

/-! ## A host at work -/

/-- Why a procedure stops. -/
inductive HostStop where
  /-- the block stayed busy for as long as the host was willing to wait (rule R231, step 1) -/
  | busy
  /-- a key file, a ciphertext line or an identity is malformed, or its integer does not fit `W` bits
  (rules R240, R244, R248) -/
  | malformed
  /-- the command ended with `ERR = 1`; the code is what `ERRCODE` read (rule R231, step 5) -/
  | commandError (code : Word)
  /-- `VERIFY` left `T = 0`: the encrypt path refuses to proceed (rule R246) -/
  | mismatch
  /-- the block size leaves no room for data, `k < 2` (rule R242) -/
  | smallModulus
  /-- the block gave an access no answer of the kind asked for -/
  | noAnswer
  deriving DecidableEq, Repr

/-- The block and what the host has written out so far: ciphertext text, plaintext bytes. -/
structure Session where
  machine : State
  text : List Char
  bytes : List Byte
  deriving DecidableEq, Repr

/-- The session with the block in another state. -/
def Session.withMachine (h : Session) (t : State) : Session := { h with machine := t }

/-- A procedure: it ends with a value or stops, and leaves a session either way. -/
abbrev HostAct := ExceptT HostStop (StateM Session)

/-- The block with an event in front of what is pending. -/
def State.withEvent (s : State) (e : Event) : State := { s with pending := e :: s.pending }

/-- One host action or engine turn: it is put in front of what is pending and one step is taken
(rules R62, R72). -/
def perform (e : Event) : HostAct Response := fun h =>
  match step (h.machine.withEvent e) with
  | .next t => (.ok t.resp, h.withMachine t)
  | .fault _ => (.error .noAnswer, h)
  | .refused _ => (.error .noAnswer, h)

/-- `W`, which the host knows or has read from `WPARAM` (rules R5, R30). -/
def blockWidth : HostAct Nat := fun h => (.ok h.machine.width, h)

/-- The interrupt line as the host sees it (rules R43, R273). -/
def interruptLine : HostAct Bool := fun h => (.ok h.machine.irq, h)

/-- `MemRead` of a named word (rule R62). -/
def readWord (t : Target) : HostAct Word := do
  match ← perform (readFrom (← blockWidth) t) with
  | .data v => pure v
  | .none => throw .noAnswer
  | .written => throw .noAnswer
  | .busError => throw .noAnswer

/-- `MemWrite` of a named word (rule R62). -/
def writeWord (t : Target) (v : Word) : HostAct Unit := do
  discard (perform (writeTo (← blockWidth) t v))

/-- Text written to the output. -/
def emitText (cs : List Char) : HostAct Unit := fun h => (.ok (), { h with text := h.text ++ cs })

/-- Bytes written to the output. -/
def emitBytes (bs : List Byte) : HostAct Unit := fun h => (.ok (), { h with bytes := h.bytes ++ bs })

/-- A value the host's own parser gives, or a stop (rule R248). -/
def parsed {α : Type} : Option α → HostAct α
  | some a => pure a
  | none => throw .malformed

/-! ## Operands and results -/

/-- `wrr`, for an integer that fits: every word of `R[r]` (rules R64, R107, R244). -/
def putInteger (r : RegIx) (v : Nat) : HostAct Unit := do
  if v < 2 ^ (← blockWidth) then
    (List.range ((← blockWidth) / 32)).forM fun j => writeWord (.regWord r j) (wordOf v j)
  else throw .malformed

/-- The integer of its words, word 0 first (rule R64). -/
def joinWords : List Word → Nat
  | [] => 0
  | v :: vs => v.toNat + 2 ^ 32 * joinWords vs

/-- `rdr`: every word of `R[r]` (rules R64, R107). -/
def getInteger (r : RegIx) : HostAct Nat := do
  return joinWords (← (List.range ((← blockWidth) / 32)).mapM fun j => readWord (.regWord r j))

/-- `wrb`: the bytes to `BUF`, their number to `LEN` (rule R107). -/
def putChunk (bytes : List Byte) : HostAct Unit := do
  (List.range (wordsFor bytes.length)).forM fun j => writeWord (.bufWord j) (chunkWord bytes j)
  writeWord .len (BitVec.ofNat 32 bytes.length)

/-- `rdb`: `LEN`, then the first `LEN` bytes of `BUF` (rule R107). -/
def getChunk : HostAct (List Byte) := do
  let len ← readWord .len
  let words ← (List.range (wordsFor len.toNat)).mapM fun j => readWord (.bufWord j)
  return (words.flatMap laneBytes).take len.toNat

/-! ## The command protocol (rule R231) -/

/-- The two ways of waiting in step (4). -/
inductive Waiting where
  | polling
  | interrupt
  deriving DecidableEq, Repr

/-- Step (1): polls of `STATUS` until `BUSY = 0`, at most `budget`, the engine moving between them. -/
def awaitIdle : Nat → HostAct Unit
  | 0 => throw .busy
  | budget + 1 => do
    if (← readWord .status).getLsbD 0 then
      discard (perform .engine)
      awaitIdle budget
    else pure ()

/-- Has the command ended? A read of `STATUS`, or a look at the interrupt line. -/
def ended : Waiting → HostAct Bool
  | .polling => do return !(← readWord .status).getLsbD 0
  | .interrupt => interruptLine

/-- Step (4): waits until the command has ended, looking at most `budget` times, and then writes
`ACTION.ABORT` (rules R231, R274). That the engine has one move between two looks is the model's choice
(DESIGN CHOICE, log entry 23). -/
def awaitCompletion (how : Waiting) : Nat → HostAct Unit
  | 0 => writeWord .action 1
  | budget + 1 => do
    discard (perform .engine)
    if ← ended how then pure () else awaitCompletion how budget

/-- One command: (1) wait for the idle block, (2) write the operands, (3) write the command word, (4) wait
for the end, (5) check `ERR`: the result is `T`, or a stop with what `ERRCODE` reads (rule R231). -/
def command (how : Waiting) (budget : Nat) (operands : HostAct Unit) (i : Instr) : HostAct Bool := do
  awaitIdle budget
  operands
  writeWord .cmd (encode i)
  awaitCompletion how budget
  let status ← readWord .status
  if status.getLsbD 2 then throw (.commandError (← readWord .errcode))
  else return status.getLsbD 3

/-! ## The procedures -/

/-- Key generation: the private and the public key file (rules R232 to R236, R240). -/
def generateKeys (how : Waiting) (budget : Nat) (seed : Seed) (bits iters : Word)
    (identity : List Char) : HostAct (List Char × List Char) := do
  let m ← parsed (identityInteger (← blockWidth) identity)
  let _ ← command how budget (do
    writeWord .seedLo (seed.extractLsb' 0 32)
    writeWord .seedHi (seed.extractLsb' 32 32)) .seed
  let _ ← command how budget (do
    writeWord .bits bits
    writeWord .iters iters) (.mkpub 4 5 0 1)
  let _ ← command how budget (pure ()) (.mkpriv 2 1 4 5)
  let _ ← command how budget (putInteger 6 m) (pseudoSign 3 6 2 0)
  let n ← getInteger 0
  let e ← getInteger 1
  let s ← getInteger 3
  let d ← getInteger 2
  let _ ← command how budget (pure ()) (.clr 4)
  let _ ← command how budget (pure ()) (.clr 5)
  let _ ← command how budget (pure ()) .rngclr
  return (privateKeyText n d, publicKeyText n e s identity)

/-- One chunk: `ENCBLK` and its line (rule R242). -/
def encryptChunk (how : Waiting) (budget : Nat) (chunk : List Byte) : HostAct Unit := do
  let _ ← command how budget (putChunk chunk) (.encblk 7 1 0)
  emitText (textLine (hexText (← getInteger 7)))

/-- Encryption of a byte stream under a public key file, the key verified first: with `T = 0` it stops
and has written nothing (rules R242, R246). -/
def encryptStream (how : Waiting) (budget : Nat) (keyFile : List Char) (input : List Byte) :
    HostAct Unit := do
  let (n, e, s, identity) ← parsed (parsePublicKey keyFile)
  let m ← parsed (identityInteger (← blockWidth) identity)
  let verified ← command how budget (do
    putInteger 0 n
    putInteger 1 e
    putInteger 3 s
    putInteger 6 m) (.verify 3 1 0 6)
  if verified then
    let _ ← command how budget (pure ()) (.blksz 0)
    match chunks (← readWord .kbytes).toNat input with
    | none => throw .smallModulus
    | some cs => cs.forM (encryptChunk how budget)
  else throw .mismatch

/-- One ciphertext line: `DECBLK`, a stop on `ERR`, else the bytes of `BUF` (rule R244). -/
def decryptLine (how : Waiting) (budget : Nat) (line : List Char) : HostAct Unit := do
  let c ← parsed (parseHex line)
  let _ ← command how budget (putInteger 7 c) (.decblk 7 2 0)
  emitBytes (← getChunk)

/-- Decryption of a ciphertext text under a private key file; what was written before a stop stays
written, nothing after it is (rules R244, R248). -/
def decryptStream (how : Waiting) (budget : Nat) (keyFile : List Char) (input : List Char) :
    HostAct Unit := do
  let (n, d) ← parsed (parsePrivateKey keyFile)
  awaitIdle budget
  putInteger 0 n
  putInteger 2 d
  (textLines input).forM (decryptLine how budget)

end Sys2Proof.Machine
end

