-- ==== Sys2Proof/Safety.lean ====
section
/-! DEFINITION. The terms claims use: the invariant, how a command ended, what it left unchanged, which
error a command may raise, the runs of a command's moves. -/

namespace Sys2Proof.Machine

open Sys2Proof

/-! ## The invariant -/

/-- The invariant of the block. -/
structure State.Inv (s : State) : Prop where
  /-- `W` is a width rule R5 admits -/
  width : Config.LegalWidth s.width
  /-- every register holds an integer in `[0, 2^W)` (rule R20) -/
  regs : ∀ r : RegIx, s.reg r < 2 ^ s.width
  /-- the byte store is in its canonical form -/
  canonical : Memory.wf s.buf = true
  /-- no byte outside `BUF[0 .. W/8 - 1]` is held (rule R41) -/
  inBuf : ∀ i, regBytes s.width ≤ i → s.bufByte i = 0
  /-- `KBYTES` is the block size of an integer that fits `W` bits (rules R35, R211) -/
  kbytes : s.kbytes.toNat < regBytes s.width
  /-- `BUSY = 1` implies `DONE = 0` and `ERR = 0` (rule R26) -/
  busyClear : s.busy = true → s.done = false ∧ s.err = false
  /-- idle, `ERR` says whether `ERRCODE` is nonzero (rules R26, R27) -/
  errIdle : s.busy = false → (s.err = true ↔ s.errcode ≠ .none)
  /-- idle, no search is under way (rule R42) -/
  passesIdle : s.busy = false → s.passes = 0

/-! ## Reset -/

/-- The values of rule R45. -/
structure AtReset (t : State) : Prop where
  regs : ∀ r, t.reg r = 0
  buffer : ∀ i, t.bufByte i = 0
  len : t.len = 0
  kbytes : t.kbytes = 0
  iters : t.iters = 0
  bits : t.bits = 0
  seedLo : t.seedLo = 0
  seedHi : t.seedHi = 0
  ie : t.ie = false
  busy : t.busy = false
  done : t.done = false
  err : t.err = false
  tflag : t.tflag = false
  seeded : t.seeded = false
  hosterr : t.hosterr = false
  errcode : t.errcode = .none
  errcmd : t.errcmd = 0
  cmdcnt : t.cmdcnt = 0
  gen : t.g = none
  passes : t.passes = 0
  irq : t.irq = false

/-! ## How a command ended -/

/-- Successful completion (rule R93). -/
structure Succeeded (s t : State) : Prop where
  busy : t.busy = false
  done : t.done = true
  err : t.err = false
  errcode : t.errcode = .none
  errcmd : t.errcmd = s.errcmd
  cmdcnt : t.cmdcnt = s.cmdcnt + 1
  passes : t.passes = 0

/-- Completion with an error code (rules R270, R274). -/
structure Failed (c : ErrCode) (s t : State) : Prop where
  busy : t.busy = false
  done : t.done = true
  err : t.err = true
  errcode : t.errcode = c
  errcmd : t.errcmd = s.cmdlatch
  cmdcnt : t.cmdcnt = s.cmdcnt + 1
  passes : t.passes = 0

/-- Still running: no status field has moved (rule R320). -/
structure Running (s t : State) : Prop where
  busy : t.busy = true
  done : t.done = s.done
  err : t.err = s.err
  errcode : t.errcode = s.errcode
  errcmd : t.errcmd = s.errcmd
  cmdcnt : t.cmdcnt = s.cmdcnt

/-! ## What a command left unchanged -/

/-- What a command may write beside registers. -/
inductive Part where
  | flag
  | buffer
  | len
  | kbytes
  | seed
  | gen
  deriving DecidableEq, Repr

/-- Everything but the registers `dests`, the parts `parts` and the status fields is unchanged. What no
command writes stands in the first seven fields. -/
structure Frame (dests : List RegIx) (parts : List Part) (s t : State) : Prop where
  width : t.width = s.width
  iters : t.iters = s.iters
  bits : t.bits = s.bits
  ie : t.ie = s.ie
  hosterr : t.hosterr = s.hosterr
  cmdlatch : t.cmdlatch = s.cmdlatch
  port : t.pending = s.pending ∧ t.resp = s.resp
  regs : ∀ r, r ∉ dests → t.reg r = s.reg r
  flag : Part.flag ∉ parts → t.tflag = s.tflag
  buffer : Part.buffer ∉ parts → ∀ i, t.bufByte i = s.bufByte i
  len : Part.len ∉ parts → t.len = s.len
  kbytes : Part.kbytes ∉ parts → t.kbytes = s.kbytes
  seed : Part.seed ∉ parts → t.seedLo = s.seedLo ∧ t.seedHi = s.seedHi
  gen : Part.gen ∉ parts → t.g = s.g

/-! ## Errors by command -/

/-- The codes of rule R260's table a command may raise by itself ("raised by"; `ABORTED` is the host's,
`OVERFLOW` is reachable only from `MKPRIV`, rule R266). -/
def mayRaise : Instr → List ErrCode
  | .nop => []
  | .mov _ _ => []
  | .ldi _ _ => []
  | .clr _ => []
  | .clrall => []
  | .seed => []
  | .rngclr => []
  | .gcd _ _ _ => []
  | .modinv _ _ _ => []
  | .modmul _ _ _ _ => [.divzero]
  | .powmod _ _ _ _ => [.divzero]
  | .isprime _ => [.norng, .smalln]
  | .mkprime _ => [.norng, .param, .smalln]
  | .mkpub _ _ _ _ => [.norng, .param, .smalln]
  | .mkpriv _ _ _ _ => [.param, .divzero, .overflow]
  | .verify _ _ _ _ => [.divzero]
  | .blksz _ => [.param]
  | .encblk _ _ _ => [.param, .divzero]
  | .decblk _ _ _ => [.divzero, .badblock]

/-! ## Runs of one command's moves -/

/-- `k` moves of a running command whose move is `f`, ending early when it completes. -/
def movesOf (f : State → Host.Outcome State Fault Refusal) :
    Nat → State → Host.Outcome State Fault Refusal
  | 0, s => .next s
  | k + 1, s =>
    match f s with
    | .next t => if t.busy then movesOf f k t else .next t
    | .fault e => .fault e
    | .refused r => .refused r

end Sys2Proof.Machine
end

