-- ==== Sys2Proof/Certificates/Slice0/Obligations.lean ====
section
/-! DEFINITION. The statements for the provers, in the order of OBLIGATIONS.json. -/

open Sys2Proof Sys2Proof.Machine

/-! ## The command word -/

/-- Every well-formed command, with every operand at every value, is read back from its word (rules R95,
R98, R105). -/
def Obligations.DecodeEncodeRoundTrip : Prop :=
  ∀ i : Instr, i.wf = true → decode (encode i) = .ok i

/-- A word that decodes is the one word of its command, which is well formed: no bit of a word is
dropped (rules R95, R99, R105). -/
def Obligations.DecodedWordIsItsEncoding : Prop :=
  ∀ (v : Word) (i : Instr), decode v = .ok i → encode i = v ∧ i.wf = true

/-- The table's match and mask pairs are those of rules R98 and R99; a word is a row's command exactly
when it matches under the row's mask (a coinciding `MKPUB` is that row's, and illegal by rule R101); a
word that matches no row is no command; no word matches two rows. -/
def Obligations.DecodingFollowsMatchAndMask : Prop :=
  opcodeTable.map (fun row => (matchWord row.code, formatMask row.fmt)) =
    [(0x00000000, 0xFFFFFFFF), (0x01000000, 0xFF00FFFF), (0x02000000, 0xFF0F0000),
     (0x03000000, 0xFF0FFFFF), (0x04000000, 0xFFFFFFFF), (0x08000000, 0xFFFFFFFF),
     (0x09000000, 0xFFFFFFFF), (0x10000000, 0xFF000FFF), (0x11000000, 0xFF000FFF),
     (0x12000000, 0xFF0000FF), (0x13000000, 0xFF0000FF), (0x20000000, 0xFF0FFFFF),
     (0x21000000, 0xFF0FFFFF), (0x30000000, 0xFF0000FF), (0x31000000, 0xFF0000FF),
     (0x32000000, 0xFF0000FF), (0x40000000, 0xFF0FFFFF), (0x41000000, 0xFF000FFF),
     (0x42000000, 0xFF000FFF)] ∧
  (∀ (v : Word), ∀ row ∈ opcodeTable, v &&& formatMask row.fmt = matchWord row.code →
    decode v =
      if (row.make (fieldA v) (fieldB v) (fieldC v) (fieldD v) (fieldImm v)).wf then
        .ok (row.make (fieldA v) (fieldB v) (fieldC v) (fieldD v) (fieldImm v))
      else .error .coincidingDestinations) ∧
  (∀ (v : Word), (∀ row ∈ opcodeTable, v &&& formatMask row.fmt ≠ matchWord row.code) →
    ∃ e, decode v = .error e) ∧
  (∀ (v : Word), ∀ row ∈ opcodeTable, ∀ row' ∈ opcodeTable,
    v &&& formatMask row.fmt = matchWord row.code →
    v &&& formatMask row'.fmt = matchWord row'.code → row.code = row'.code)

/-- Words of the spec's encoding examples, one or more per family, and its illegal examples
(`30_encoding.md` section 7). -/
def Obligations.SpecWordsDecode : Prop :=
  decode 0x00000000 = .ok .nop ∧
  decode 0x01120000 = .ok (.mov 1 2) ∧
  decode 0x02000CA1 = .ok (.ldi 0 3233) ∧
  decode 0x09000000 = .ok .rngclr ∧
  decode 0x10312000 = .ok (.gcd 3 1 2) ∧
  decode 0x13761000 = .ok (.powmod 7 6 1 0) ∧
  decode 0x20400000 = .ok (.isprime 4) ∧
  decode 0x30450100 = .ok (.mkpub 4 5 0 1) ∧
  decode 0x32310600 = .ok (.verify 3 1 0 6) ∧
  decode 0x42720000 = .ok (.decblk 7 2 0) ∧
  decode 0x05000000 = .error (.unassignedOpcode 0x05) ∧
  decode 0x00000001 = .error (.reservedBits 0x00) ∧
  decode 0x10312001 = .error (.reservedBits 0x10) ∧
  decode 0x30440100 = .error .coincidingDestinations ∧
  decode 0x02010CA1 = .error (.reservedBits 0x02)

/-! ## The two agents -/

/-- A latched word that is no command ends in `ILLEGAL` and has no other effect (rules R100, R101, R261),
whichever way the schedule lets the engine move (the model's choice, log entry 5). The meaning of `MKPUB`
raises it too when two of its destinations are equal, before any other check: no word decodes to such a
command, so this clause is the model's own (log entry 21). -/
def Obligations.IllegalWordEndsInIllegal : Prop :=
  (∀ (s : State) (e : DecodeError), s.busy = true → decode s.cmdlatch = .error e →
    (∀ es, s.pending = [] ∨ s.pending = .wait :: es →
      ∃ t, step s = .next t ∧ Failed .illegal s t ∧ Frame [] [] s t) ∧
    (∀ es, s.pending = .engine :: es →
      ∃ t, step s = .next t ∧ Failed .illegal s t ∧ Frame [] [] (s.takeEvent es) t)) ∧
  (∀ (s : State) (rp rq rn re : RegIx), pairwiseDistinct rp rq rn re = false →
    ∃ t, exec (.mkpub rp rq rn re) s = .next t ∧ Failed .illegal s t ∧ Frame [] [] s t)

/-- A step of the busy block is `exec` of the latched command: when the host has no action left, when
the engine moves first (that event is taken), while the host waits (the wait stays); and a placed word
is run by the very next step on the state that issues it (rules R92, R93, R107; log entries 5, 6). -/
def Obligations.StepRunsLatchedCommand : Prop :=
  (∀ (s : State) (i : Instr), s.busy = true → decode s.cmdlatch = .ok i →
    (s.pending = [] → step s = exec i s) ∧
    (∀ es, s.pending = .engine :: es → step s = exec i (s.takeEvent es)) ∧
    (∀ es, s.pending = .wait :: es → step s = exec i s)) ∧
  (∀ (s : State) (v : Word) (i : Instr), decode v = .ok i →
    step (s.withFetchWord 32 v.toNat) = exec i (s.issue v))

/-- The state after reset has every value rule R45 states, at every width; `CMDLATCH` has no value there
and nothing is said of it. -/
def Obligations.ResetGivesStatedValues : Prop :=
  AtReset State.reset ∧ ∀ w, AtReset (State.resetAt w)

/-- The state after reset meets the invariant, at every legal width (rule R45). -/
def Obligations.ResetMeetsInvariant : Prop :=
  State.reset.Inv ∧ ∀ w, Config.LegalWidth w → (State.resetAt w).Inv

/-- Every step, of the engine or of the host, from any state that meets the invariant leads to a state
that meets it: registers in range, the byte store canonical and inside `BUF`, the status flags
consistent, no search under way while idle. -/
def Obligations.StepKeepsInvariant : Prop :=
  ∀ s t : State, s.Inv → step s = .next t → t.Inv

/-- The reset input gives every element its reset value, whatever the block was doing, and keeps the
width (rule R300; the host's further actions stay pending, log entry 17). -/
def Obligations.ResetInputResets : Prop :=
  ∀ (s : State) (es : List Event), s.pending = .reset :: es →
    ∃ t, step s = .next t ∧ AtReset t ∧ t.width = s.width ∧ t.pending = es

/-- The idle block does nothing by itself, and a wait on it ends at once with the status read
(rules R107, R287, R301; log entry 5). -/
def Obligations.IdleBlockDoesNothing : Prop :=
  ∀ s : State, s.busy = false →
    (s.pending = [] → step s = .next s) ∧
    (∀ es, s.pending = .engine :: es → step s = .next { s with pending := es }) ∧
    (∀ es, s.pending = .wait :: es →
      step s = .next { s with pending := es, resp := .data s.statusWord })

/-! ## Host accesses -/

/-- A write of `CMD` on the idle block issues the word: latched, busy, `DONE` and `ERR` clear, the error
registers, `T`, `HOSTERR`, `CMDCNT` and every operand as they were (rule R92). -/
def Obligations.IssueLatchesWord : Prop :=
  ∀ (s : State) (v : Word) (es : List Event), s.busy = false →
    s.pending = .write 0x004 4 v :: es →
    ∃ t, step s = .next t ∧ t.cmdlatch = v ∧ t.busy = true ∧ t.done = false ∧ t.err = false ∧
      t.errcode = s.errcode ∧ t.errcmd = s.errcmd ∧ t.tflag = s.tflag ∧ t.hosterr = s.hosterr ∧
      t.cmdcnt = s.cmdcnt ∧ t.width = s.width ∧ (∀ r, t.reg r = s.reg r) ∧
      (∀ i, t.bufByte i = s.bufByte i) ∧ t.len = s.len ∧ t.kbytes = s.kbytes ∧
      t.iters = s.iters ∧ t.bits = s.bits ∧ t.seedLo = s.seedLo ∧ t.seedHi = s.seedHi ∧
      t.ie = s.ie ∧ t.g = s.g ∧ t.pending = es

/-- No host access to the busy block changes an operand, the seed, `KBYTES` or `T`; and unless it
aborts the command, neither the latched word, the generator state, the progress of a search nor a status
field: what the engine reads later is what it would have read at issue (rules R22, R70, R74). -/
def Obligations.BusyAccessKeepsOperands : Prop :=
  ∀ (s t : State) (off size : Nat) (v : Word) (es : List Event), s.Inv → s.busy = true →
    s.pending = .read off size :: es ∨ s.pending = .write off size v :: es → step s = .next t →
    t.width = s.width ∧ (∀ r, t.reg r = s.reg r) ∧ (∀ i, t.bufByte i = s.bufByte i) ∧
    t.len = s.len ∧ t.kbytes = s.kbytes ∧ t.iters = s.iters ∧ t.bits = s.bits ∧
    t.seedLo = s.seedLo ∧ t.seedHi = s.seedHi ∧ t.tflag = s.tflag ∧
    (t.busy = true →
      t.cmdlatch = s.cmdlatch ∧ t.g = s.g ∧ t.passes = s.passes ∧ Running s t)

/-- What a read of the busy block answers, and the mark it leaves, do not depend on the registers, the
buffer, the progress of a search or the generator state, only on whether there is one: key material is
invisible (rules R42, R70). -/
def Obligations.BusyReadsAreBlind : Prop :=
  ∀ (s t : State) (regs : Vector Nat 16) (buf : Memory) (passes : Nat) (g : Option Nat)
    (off size : Nat) (es : List Event),
    s.busy = true → g.isSome = s.g.isSome → s.pending = .read off size :: es →
    step s = .next t →
    ∃ t', step { s with regs := regs, buf := buf, passes := passes, g := g } = .next t' ∧
      t'.resp = t.resp ∧ t'.hosterr = t.hosterr

/-- What the busy block refuses: a window read gives 0, a window, `CMD` or parameter write is ignored,
each sets `HOSTERR` and does nothing else (rule R70). That a refused write is answered like one performed
is the model's choice, log entry 10. -/
def Obligations.BusyAccessIsRefused : Prop :=
  ∀ (s : State) (off : Nat) (v : Word) (es : List Event), s.busy = true → off % 4 = 0 →
    (0x1000 ≤ off → off < 0x1000 + 17 * (s.width / 8) → s.pending = .read off 4 :: es →
      step s = .next { s with pending := es, hosterr := true, resp := .data 0 }) ∧
    (0x1000 ≤ off → off < 0x1000 + 17 * (s.width / 8) → s.pending = .write off 4 v :: es →
      step s = .next { s with pending := es, hosterr := true, resp := .written }) ∧
    (off ∈ [0x004, 0x01C, 0x020, 0x024, 0x02C, 0x030] → s.pending = .write off 4 v :: es →
      step s = .next { s with pending := es, hosterr := true, resp := .written })

/-- What a control register reads, busy or idle, the reserved offsets reading 0, the bits of `STATUS` and
the numbers of the error codes; the read changes nothing (rules R26, R27, R62, R69, R70, R71, R260). -/
def Obligations.ControlRegisterReads : Prop :=
  (∀ (s : State) (off : Nat) (v : Word) (es : List Event),
    (off, v) ∈
      [(0x000, 0x52534101), (0x004, 0), (0x008, s.statusWord),
       (0x00C, BitVec.setWidth 32 s.errcode.number), (0x010, s.errcmd),
       (0x014, if s.ie then 1 else 0), (0x018, 0), (0x01C, s.iters), (0x020, s.bits),
       (0x024, s.len), (0x028, s.kbytes), (0x02C, s.seedLo), (0x030, s.seedHi),
       (0x034, s.cmdcnt), (0x038, BitVec.ofNat 32 s.width)] →
    s.pending = .read off 4 :: es →
    step s = .next { s with pending := es, resp := .data v }) ∧
  (∀ (s : State) (off : Nat) (es : List Event), 0x03C ≤ off → off < 0x1000 → off % 4 = 0 →
    s.pending = .read off 4 :: es →
    step s = .next { s with pending := es, resp := .data 0 }) ∧
  (∀ s : State,
    s.statusWord.getLsbD 0 = s.busy ∧ s.statusWord.getLsbD 1 = s.done ∧
    s.statusWord.getLsbD 2 = s.err ∧ s.statusWord.getLsbD 3 = s.tflag ∧
    s.statusWord.getLsbD 4 = s.seeded ∧ s.statusWord.getLsbD 5 = s.hosterr ∧
    ∀ k, 6 ≤ k → s.statusWord.getLsbD k = false) ∧
  [ErrCode.none, .illegal, .norng, .param, .divzero, .smalln, .overflow, .badblock, .aborted].map
    ErrCode.number = [0, 1, 2, 3, 4, 5, 6, 7, 8]

/-- The idle block's windows: word `j` of `R[r]` reads bits `32j+31 : 32j`, word `j` of `BUF` reads four
bytes, the lowest index in the lowest lane; the read changes nothing (rules R64, R65, R66, R67). -/
def Obligations.WindowReads : Prop :=
  ∀ (s : State) (j : Nat) (es : List Event), Config.LegalWidth s.width → s.busy = false →
    j < s.width / 32 →
    (∀ r : RegIx, s.pending = .read (0x1000 + r.toNat * (s.width / 8) + 4 * j) 4 :: es →
      ∃ v : Word, step s = .next { s with pending := es, resp := .data v } ∧
        ∀ k, k < 32 → v.getLsbD k = (s.reg r).testBit (32 * j + k)) ∧
    (s.pending = .read (0x1000 + 16 * (s.width / 8) + 4 * j) 4 :: es →
      ∃ v : Word, step s = .next { s with pending := es, resp := .data v } ∧
        ∀ b, b < 4 → v.extractLsb' (8 * b) 8 = s.bufByte (4 * j + b))

/-- What a write of a control register stores: read-only registers and reserved offsets nothing, `CTRL`
its bit 0 busy or idle, the parameter registers their value while idle (rules R29, R62, R69, R70). That a
write the block ignores is answered like one performed is the model's choice, log entry 10. -/
def Obligations.ControlRegisterWrites : Prop :=
  (∀ (s t : State) (off : Nat) (v : Word) (es : List Event),
    (off, t) ∈
      [(0x000, s), (0x008, s), (0x00C, s), (0x010, s), (0x028, s), (0x034, s), (0x038, s),
       (0x014, { s with ie := v.getLsbD 0 })] →
    s.pending = .write off 4 v :: es →
    step s = .next { t with pending := es, resp := .written }) ∧
  (∀ (s : State) (off : Nat) (v : Word) (es : List Event), 0x03C ≤ off → off < 0x1000 →
    off % 4 = 0 → s.pending = .write off 4 v :: es →
    step s = .next { s with pending := es, resp := .written }) ∧
  (∀ (s t : State) (off : Nat) (v : Word) (es : List Event), s.busy = false →
    (off, t) ∈
      [(0x01C, { s with iters := v }), (0x020, { s with bits := v }), (0x024, { s with len := v }),
       (0x02C, { s with seedLo := v }), (0x030, { s with seedHi := v })] →
    s.pending = .write off 4 v :: es →
    step s = .next { t with pending := es, resp := .written })

/-- Writes to the idle block's windows: word `j` of `R[r]` replaces exactly bits `32j+31 : 32j`, word `j`
of `BUF` exactly four bytes; every other bit, byte and field is as it was (rules R65, R66, R67). -/
def Obligations.WindowWrites : Prop :=
  ∀ (s : State) (j : Nat) (v : Word) (es : List Event), s.Inv → s.busy = false →
    j < s.width / 32 →
    (∀ r : RegIx, s.pending = .write (0x1000 + r.toNat * (s.width / 8) + 4 * j) 4 v :: es →
      ∃ t, step s = .next t ∧
        (∀ k, (t.reg r).testBit k =
          if 32 * j ≤ k ∧ k < 32 * j + 32 then v.getLsbD (k - 32 * j) else (s.reg r).testBit k) ∧
        (∀ r', r' ≠ r → t.reg r' = s.reg r') ∧
        { t with regs := s.regs } = { s with pending := es, resp := .written }) ∧
    (s.pending = .write (0x1000 + 16 * (s.width / 8) + 4 * j) 4 v :: es →
      ∃ t, step s = .next t ∧
        (∀ b, b < 4 → t.bufByte (4 * j + b) = v.extractLsb' (8 * b) 8) ∧
        (∀ i, i < 4 * j ∨ 4 * j + 4 ≤ i → t.bufByte i = s.bufByte i) ∧
        { t with buf := s.buf } = { s with pending := es, resp := .written })

/-- An access of another width or at an offset that is no multiple of 4 is answered with a bus error and
changes no state (rule R68). -/
def Obligations.OtherAccessIsBusError : Prop :=
  ∀ (s : State) (off size : Nat) (v : Word) (es : List Event),
    off < 0x1000 + 17 * (s.width / 8) → size ≠ 4 ∨ off % 4 ≠ 0 →
    s.pending = .read off size :: es ∨ s.pending = .write off size v :: es →
    step s = .next { s with pending := es, resp := .busError }

/-- An access at or above `BUFBASE + W/8` is outside the block: the model stops with a fault of that
name (rule R69; DESIGN CHOICE, log entry 11). -/
def Obligations.OutsideOffsetFaults : Prop :=
  ∀ (s : State) (off size : Nat) (v : Word) (es : List Event),
    0x1000 + 17 * (s.width / 8) ≤ off →
    s.pending = .read off size :: es ∨ s.pending = .write off size v :: es →
    step s = .fault (.outsideBlock off)

/-- A write of `ACTION` without `ABORT`, busy or idle: `ACK` clears `DONE` and `HOSTERR`, the reserved
bits do nothing (rule R31). How the write is answered is the model's choice, log entry 10. -/
def Obligations.AcknowledgeClearsMarks : Prop :=
  ∀ (s : State) (v : Word) (es : List Event), v.getLsbD 0 = false →
    s.pending = .write 0x018 4 v :: es →
    (v.getLsbD 1 = true →
      step s = .next { s with pending := es, resp := .written, done := false, hosterr := false }) ∧
    (v.getLsbD 1 = false → step s = .next { s with pending := es, resp := .written })

/-- A write of `ACTION` with `ABORT`: on the busy block the command ends with `ABORTED` and none of its
writes, the generator state dropped exactly when it is a drawing command (that an illegal word is none
is the model's reading, log entry 12); on the idle block only `ACK` acts (rules R31, R274). How the write
is answered is the model's choice, log entry 10. -/
def Obligations.AbortEndsCommand : Prop :=
  ∀ (s : State) (v : Word) (es : List Event), v.getLsbD 0 = true →
    s.pending = .write 0x018 4 v :: es →
    (s.busy = true →
      ∃ t, step s = .next t ∧ Failed .aborted s t ∧ (∀ r, t.reg r = s.reg r) ∧
        (∀ i, t.bufByte i = s.bufByte i) ∧ t.len = s.len ∧ t.kbytes = s.kbytes ∧
        t.iters = s.iters ∧ t.bits = s.bits ∧ t.seedLo = s.seedLo ∧ t.seedHi = s.seedHi ∧
        t.tflag = s.tflag ∧ t.ie = s.ie ∧ t.width = s.width ∧ t.pending = es ∧
        t.hosterr = (s.hosterr && !v.getLsbD 1) ∧
        ((∃ i, decode s.cmdlatch = .ok i ∧ drawing i = true) → t.g = none) ∧
        ((∀ i, decode s.cmdlatch = .ok i → drawing i = false) → t.g = s.g)) ∧
    (s.busy = false → v.getLsbD 1 = true →
      step s = .next { s with pending := es, resp := .written, done := false, hosterr := false }) ∧
    (s.busy = false → v.getLsbD 1 = false →
      step s = .next { s with pending := es, resp := .written })

/-- After a move of the engine the interrupt output is high exactly when the command has completed and
`CTRL.IE` is set, on success and on error alike (rules R43, R273). -/
def Obligations.CompletionRaisesInterrupt : Prop :=
  ∀ (i : Instr) (s t : State), s.Inv → s.busy = true → exec i s = .next t →
    t.irq = (s.ie && !t.busy)

/-! ## Register-file and random-source commands -/

/-- `NOP` writes what every successful completion writes and nothing else (rule R120). -/
def Obligations.NopOnlyCompletes : Prop :=
  ∀ s : State, ∃ t, exec .nop s = .next t ∧ Succeeded s t ∧ Frame [] [] s t

/-- `MOV`, `LDI`, `CLR` complete with the destination holding the source's value, the zero-extended
immediate, 0; also when source and destination are one register (rules R121, R122, R123). -/
def Obligations.MoveCommandsWriteDestination : Prop :=
  ∀ s : State, s.Inv →
    (∀ rd rs, ∃ t, exec (.mov rd rs) s = .next t ∧ Succeeded s t ∧ Frame [rd] [] s t ∧
      t.reg rd = s.reg rs) ∧
    (∀ rd imm, ∃ t, exec (.ldi rd imm) s = .next t ∧ Succeeded s t ∧ Frame [rd] [] s t ∧
      t.reg rd = imm.toNat) ∧
    (∀ rd, ∃ t, exec (.clr rd) s = .next t ∧ Succeeded s t ∧ Frame [rd] [] s t ∧ t.reg rd = 0)

/-- `CLRALL` zeroes every register, the buffer, `LEN`, `KBYTES`, the seed, `SEEDED` and `T`, and leaves
`ITERS`, `BITS`, `CTRL.IE`, `HOSTERR`, `ERRCMD` (rule R124). -/
def Obligations.ClrallWipesKeyMaterial : Prop :=
  ∀ s : State, ∃ t, exec .clrall s = .next t ∧ Succeeded s t ∧
    (∀ r, t.reg r = 0) ∧ (∀ i, t.bufByte i = 0) ∧ t.len = 0 ∧ t.kbytes = 0 ∧ t.seedLo = 0 ∧
    t.seedHi = 0 ∧ t.seeded = false ∧ t.tflag = false ∧ t.iters = s.iters ∧ t.bits = s.bits ∧
    t.ie = s.ie ∧ t.hosterr = s.hosterr ∧ t.width = s.width ∧ t.cmdlatch = s.cmdlatch ∧
    t.pending = s.pending ∧ t.resp = s.resp

/-- `SEED` completes with `g = RandInit(SEED_HI || SEED_LO)`, whatever `g` was; `RNGCLR` completes with
no generator state; the seed registers keep their value (rules R126, R127). It holds for every value
the free function `Config.randInit` gives. -/
def Obligations.SeedAndClearGenerator : Prop :=
  ∀ s : State,
    (∃ t, exec .seed s = .next t ∧ Succeeded s t ∧ Frame [] [.gen] s t ∧
      t.g = some (Config.source.init (s.seedHi ++ s.seedLo)) ∧ t.seeded = true) ∧
    (∃ t, exec .rngclr s = .next t ∧ Succeeded s t ∧ Frame [] [.gen] s t ∧ t.g = none ∧
      t.seeded = false)

/-! ## Modular arithmetic commands -/

/-- `GCD` completes with the greatest common divisor of its sources in the destination, `Gcd(0, 0) = 0`
included, for every pair of registers (rules R141, R142). -/
def Obligations.GcdGivesGreatestDivisor : Prop :=
  ∀ (s : State) (rd ra rb : RegIx), s.Inv →
    ∃ t, exec (.gcd rd ra rb) s = .next t ∧ Succeeded s t ∧ Frame [rd] [] s t ∧
      t.reg rd = Nat.gcd (s.reg ra) (s.reg rb)

/-- `MODINV` completes for every pair of operands. With modulus `n > 1` and coprime operands the
destination is the inverse in `[0, n)` and `T = 1`; with a common divisor above 1 it is the sentinel 0
and `T = 0` (rules R143, R144, R145). -/
def Obligations.ModinvGivesInverse : Prop :=
  ∀ (s : State) (rd ra rn : RegIx), s.Inv →
    ∃ t, exec (.modinv rd ra rn) s = .next t ∧ Succeeded s t ∧ Frame [rd] [.flag] s t ∧
      (1 < s.reg rn → Nat.gcd (s.reg ra) (s.reg rn) = 1 →
        t.reg rd < s.reg rn ∧ s.reg ra * t.reg rd % s.reg rn = 1 ∧ t.tflag = true) ∧
      (1 < Nat.gcd (s.reg ra) (s.reg rn) → t.reg rd = 0 ∧ t.tflag = false)

/-- The rows of rule R144's table for `n <= 1`, for `MODINV` and, with `n` the totient, for `MKPRIV`.
They rest on the start values of rule R143, which the spec marks as general knowledge (U4, G2; log
entry 15), and carry no meaning. -/
def Obligations.DegenerateInverseRows : Prop :=
  ∀ (s : State), s.Inv →
    (∀ rd ra rn : RegIx, s.reg rn ≤ 1 →
      ∃ t, exec (.modinv rd ra rn) s = .next t ∧ Succeeded s t ∧
        (s.reg rn = 1 → t.reg rd = (if s.reg ra = 1 then 1 else 0) ∧ t.tflag = true) ∧
        (s.reg rn = 0 → s.reg ra ≤ 1 → t.reg rd = s.reg ra ∧ t.tflag = true) ∧
        (s.reg rn = 0 → 1 < s.reg ra → t.reg rd = 0 ∧ t.tflag = false)) ∧
    (∀ rd re rp rq : RegIx, 0 < s.reg rp → 0 < s.reg rq → ¬(s.reg rp = 1 ∧ s.reg rq = 1) →
      Nat.lcm (s.reg rp - 1) (s.reg rq - 1) ≤ 1 →
      ∃ t, exec (.mkpriv rd re rp rq) s = .next t ∧ Succeeded s t ∧ Frame [rd] [.flag] s t ∧
        (Nat.lcm (s.reg rp - 1) (s.reg rq - 1) = 1 →
          t.reg rd = (if s.reg re = 1 then 1 else 0) ∧ t.tflag = true) ∧
        (Nat.lcm (s.reg rp - 1) (s.reg rq - 1) = 0 → s.reg re ≤ 1 →
          t.reg rd = s.reg re ∧ t.tflag = true) ∧
        (Nat.lcm (s.reg rp - 1) (s.reg rq - 1) = 0 → 1 < s.reg re →
          t.reg rd = 0 ∧ t.tflag = false))

/-- `MODMUL` with a nonzero modulus completes with the product's remainder, the product exact
(rules R146, R147). -/
def Obligations.ModmulReducesProduct : Prop :=
  ∀ (s : State) (rd ra rb rm : RegIx), s.Inv → s.reg rm ≠ 0 →
    ∃ t, exec (.modmul rd ra rb rm) s = .next t ∧ Succeeded s t ∧ Frame [rd] [] s t ∧
      t.reg rd = s.reg ra * s.reg rb % s.reg rm

/-- `POWMOD` with a nonzero modulus completes with `base^exponent mod modulus` for a positive exponent
and with 1 for exponent 0, also at modulus 1 (rules R148, R149). -/
def Obligations.PowmodGivesPower : Prop :=
  ∀ (s : State) (rd rb re rm : RegIx), s.Inv → s.reg rm ≠ 0 →
    ∃ t, exec (.powmod rd rb re rm) s = .next t ∧ Succeeded s t ∧ Frame [rd] [] s t ∧
      t.reg rd = if s.reg re = 0 then 1 else s.reg rb ^ s.reg re % s.reg rm

/-- A zero modulus register ends `MODMUL`, `POWMOD`, `VERIFY`, `ENCBLK`, `DECBLK` with `DIVZERO`, and
`MKPRIV` ends with it for `p = q = 1`; `MODINV` and `GCD` never do (rule R264). -/
def Obligations.DivzeroOnZeroModulus : Prop :=
  ∀ (s : State) (ra rb rc rd : RegIx),
    (s.reg rd = 0 → ∃ t, exec (.modmul ra rb rc rd) s = .next t ∧ Failed .divzero s t ∧
      Frame [] [] s t) ∧
    (s.reg rd = 0 → ∃ t, exec (.powmod ra rb rc rd) s = .next t ∧ Failed .divzero s t ∧
      Frame [] [] s t) ∧
    (s.reg rc = 0 → ∃ t, exec (.verify ra rb rc rd) s = .next t ∧ Failed .divzero s t ∧
      Frame [] [] s t) ∧
    (s.reg rc = 0 → s.lenArg + 1 ≤ s.width / 8 → ∃ t, exec (.encblk ra rb rc) s = .next t ∧
      Failed .divzero s t ∧ Frame [] [] s t) ∧
    (s.reg rc = 0 → ∃ t, exec (.decblk ra rb rc) s = .next t ∧ Failed .divzero s t ∧
      Frame [] [] s t) ∧
    (s.reg rc = 1 → s.reg rd = 1 → ∃ t, exec (.mkpriv ra rb rc rd) s = .next t ∧
      Failed .divzero s t ∧ Frame [] [] s t) ∧
    (∀ t, exec (.gcd ra rb rc) s = .next t ∨ exec (.modinv ra rb rc) s = .next t →
      t.errcode ≠ .divzero)

/-! ## Primality commands -/

/-- `ISPRIME` on a candidate above 4 with a seeded generator completes; `T` and the generator state it
leaves are the result of `IsPrime` on the candidate, `ITERS` and `g` (rules R25, R171, R172). So `T` is 1
for every prime, whatever is drawn (rule R173), and 1 without a draw when no round is asked for. It holds
for every value the free functions give. -/
def Obligations.IsprimeReportsPrimes : Prop :=
  ∀ (s : State) (rn : RegIx) (g : Nat), s.g = some g → 4 < s.reg rn →
    ∃ t, exec (.isprime rn) s = .next t ∧ Succeeded s t ∧ Frame [] [.flag, .gen] s t ∧
      t.seeded = true ∧
      (∀ b g', isPrime Config.source (s.reg rn) s.itersArg g = (.ok b, g') →
        t.tflag = b ∧ t.g = some g') ∧
      (Nat.Prime (s.reg rn) → t.tflag = true) ∧
      (s.iters = 0 → t.tflag = true ∧ t.g = some g)

/-- One Miller-Rabin round is what the algorithm says: with `n - 1 = 2^s * r`, `r` odd, witness `a`
passes exactly when `a^r` is 1 or some `a^(2^j * r)`, `j <= s - 1` (or `j = 0`), is `n - 1` modulo `n`
(rule R171). -/
def Obligations.MillerRabinRound : Prop :=
  (∀ n, 2 ≤ n → n - 1 = 2 ^ (factorTwos n).1 * (factorTwos n).2 ∧ (factorTwos n).2 % 2 = 1) ∧
  (∀ a n s r, 5 ≤ n → 0 < r →
    (roundPasses a n s r = true ↔
      a ^ r % n = 1 ∨ ∃ j, j ≤ s - 1 ∧ a ^ (2 ^ j * r) % n = n - 1))

/-- `IsPrime` draws one witness in `[2, n - 2]` a round, in order, answers true after `iters` passing
rounds and false right after the first round that rejects, with no draw beyond it (rules R10, R171,
R172); for every random source. -/
def Obligations.RoundsRunInOrder : Prop :=
  ∀ (src : RandSource) (n iters g : Nat), 4 < n →
    let next := fun g => (randBelow src g (n - 3)).2
    let witness := fun k => 2 + (randBelow src (next^[k] g) (n - 3)).1
    let passes := fun k => roundPasses (witness k) n (factorTwos n).1 (factorTwos n).2
    (∀ k, 2 ≤ witness k ∧ witness k ≤ n - 2) ∧
    ((∀ k, k < iters → passes k = true) → isPrime src n iters g = (.ok true, next^[iters] g)) ∧
    (∀ k, k < iters → (∀ j, j < k → passes j = true) → passes k = false →
      isPrime src n iters g = (.ok false, next^[k + 1] g))

/-- A move of `MKPRIME` whose search accepts a candidate `c` completes the command with `c` in the
destination and the generator state after the draws made, `2^BITS <= c < 2^(BITS+1)`; so does every move
when the first candidate is accepted, and with no rounds asked for and `BITS >= 3` it always is
(rules R174, R176). The division into moves is the model's choice, log entry 8. It holds for every value
the free functions give. -/
def Obligations.MkprimeStoresCandidate : Prop :=
  ∀ (s : State) (rd : RegIx) (g : Nat), s.g = some g → s.bitsArg + 1 ≤ s.width →
    (∀ c g', makePrimeWithin Config.source s.bitsArg s.itersArg (s.passes + 1) g = some (.ok c, g') →
      ∃ t, exec (.mkprime rd) s = .next t ∧ Succeeded s t ∧ Frame [rd] [.gen] s t ∧
        t.reg rd = c ∧ t.g = some g' ∧ 2 ^ s.bitsArg ≤ c ∧ c < 2 ^ (s.bitsArg + 1)) ∧
    (∀ c g', makePrimePass Config.source s.bitsArg s.itersArg g = (.ok (some c), g') →
      ∃ t, exec (.mkprime rd) s = .next t ∧ Succeeded s t ∧ Frame [rd] [.gen] s t ∧
        t.reg rd = c ∧ t.g = some g' ∧ 2 ^ s.bitsArg ≤ c ∧ c < 2 ^ (s.bitsArg + 1)) ∧
    (s.iters = 0 → 3 ≤ s.bitsArg →
      ∃ t, exec (.mkprime rd) s = .next t ∧ Succeeded s t ∧ Frame [rd] [.gen] s t ∧
        2 ^ s.bitsArg ≤ t.reg rd ∧ t.reg rd < 2 ^ (s.bitsArg + 1))

/-- The engine's moves on `MKPRIME` carry out the rule's loop, over every random source: when the loop
returns within some number of passes the moves complete with its result, when it raises they end with
its error, and as long as it has not ended the command keeps running and nothing is written. The loop
takes its candidates in order, `RandBits(BITS) + 2^BITS`, and ends at the first that `IsPrime` does not
reject (rules R174, R176, R320; the division into moves is the model's choice, log entry 8). -/
def Obligations.MkprimeRefinesMakePrime : Prop :=
  (∀ (src : RandSource) (s : State) (rd : RegIx) (g fuel : Nat), s.g = some g → s.busy = true →
    s.bitsArg + 1 ≤ s.width →
    (∀ c g', makePrimeWithin src s.bitsArg s.itersArg fuel g = some (.ok c, g') →
      ∃ k t, movesOf (mkprimeWith src rd) k s = .next t ∧ Succeeded s t ∧
        Frame [rd] [.gen] s t ∧ t.reg rd = c ∧ t.g = some g') ∧
    (∀ e g', makePrimeWithin src s.bitsArg s.itersArg fuel g = some (.error e, g') →
      ∃ k t, movesOf (mkprimeWith src rd) k s = .next t ∧ Failed e s t ∧
        Frame [] [.gen] s t ∧ t.g = some g') ∧
    (makePrimeWithin src s.bitsArg s.itersArg (s.passes + fuel) g = none →
      ∃ t, movesOf (mkprimeWith src rd) fuel s = .next t ∧ Running s t ∧ Frame [] [] s t)) ∧
  (∀ (src : RandSource) (bits iters fuel g k : Nat), k < fuel →
    let cand := fun g => (randBits src g bits).1 + 2 ^ bits
    let test := fun g => isPrime src (cand g) iters (randBits src g bits).2
    let next := fun g => (test g).2
    (∀ j, j < k → (test (next^[j] g)).1 = .ok false) →
    ((test (next^[k] g)).1 = .ok true →
      makePrimeWithin src bits iters fuel g = some (.ok (cand (next^[k] g)), next^[k + 1] g)) ∧
    (∀ e, (test (next^[k] g)).1 = .error e →
      makePrimeWithin src bits iters fuel g = some (.error e, next^[k + 1] g)))

/-! ## Key generation and signature commands -/

/-- A move of `MKPUB`, from its first to its last, over every random source, `exec` being the move over the
block's own: it keeps running and writes nothing while `make_public` has not come to its end, it completes
with the four key parts in its destinations, or it ends with the error `make_public` raises. `make_public`
splits `BITS`, searches `p`, then `q`, then takes the first `RandBits(BITS)` coprime to the totient, in
this order of draws (rule R191). The division into moves is the model's choice, log entry 8. -/
def Obligations.MkpubFirstAndLastMove : Prop :=
  (∀ (src : RandSource) (s : State) (rp rq rn re : RegIx) (g : Nat),
    pairwiseDistinct rp rq rn re = true → s.g = some g → s.busy = true → s.bitsArg + 2 ≤ s.width →
    let result := makePublicWithin src s.bitsArg s.itersArg (s.passes + 1) g
    ∃ t, mkpubWith src rp rq rn re s = .next t ∧
      (src = Config.source → exec (.mkpub rp rq rn re) s = .next t) ∧
      (result = none → Running s t ∧ Frame [] [] s t ∧ t.passes = s.passes + 1) ∧
      (∀ m g', result = some (.ok m, g') →
        Succeeded s t ∧ Frame [rp, rq, rn, re] [.gen] s t ∧ t.reg rp = m.p ∧ t.reg rq = m.q ∧
        t.reg rn = m.p * m.q ∧ t.reg re = m.e ∧ t.g = some g') ∧
      (∀ c g', result = some (.error c, g') →
        Failed c s t ∧ Frame [] [.gen] s t ∧ t.g = some g')) ∧
  (∀ (src : RandSource) (bits iters fuel g p q g1 g2 k : Nat), 2 ≤ bits → k < fuel →
    let split := randBelow src g (3 * bits / 4 - bits / 4)
    let pbits := bits / 4 + split.1
    let draw := fun j => randBits src ((fun g => (randBits src g bits).2)^[j] g2) bits
    makePrimeWithin src pbits iters fuel split.2 = some (.ok p, g1) →
    makePrimeWithin src (bits - pbits) iters fuel g1 = some (.ok q, g2) →
    (∀ j, j < k → Nat.gcd (draw j).1 (Nat.lcm (p - 1) (q - 1)) ≠ 1) →
    Nat.gcd (draw k).1 (Nat.lcm (p - 1) (q - 1)) = 1 →
    makePublicWithin src bits iters fuel g = some (.ok ⟨p, q, p * q, (draw k).1⟩, (draw k).2))

/-- The engine's moves on `MKPUB` carry out `make_public`, over every random source: when the rule's
loops return within some number of passes each, the moves complete with the rule's `p, q, n, e`, `p` of
a width in `[BITS div 4, 3*BITS div 4)` and `q` of the remainder, one bit more each, `n = p*q` of
`BITS + 1` or `BITS + 2` bits and `e` coprime to the totient; when one raises, they end with its error
and no register is written; and as long as they have not ended the command keeps running (rules R191,
R320). The division into moves is the model's choice, log entry 8. -/
def Obligations.MkpubRefinesMakePublic : Prop :=
  ∀ (src : RandSource) (s : State) (rp rq rn re : RegIx) (g fuel : Nat),
    pairwiseDistinct rp rq rn re = true → s.g = some g → s.busy = true →
    2 ≤ s.bitsArg → s.bitsArg + 2 ≤ s.width →
    (∀ m g', makePublicWithin src s.bitsArg s.itersArg fuel g = some (.ok m, g') →
      (∃ k t, movesOf (mkpubWith src rp rq rn re) k s = .next t ∧ Succeeded s t ∧
        Frame [rp, rq, rn, re] [.gen] s t ∧ t.reg rp = m.p ∧ t.reg rq = m.q ∧ t.reg rn = m.n ∧
        t.reg re = m.e ∧ t.g = some g') ∧
      (∃ pbits, s.bitsArg / 4 ≤ pbits ∧ pbits < 3 * s.bitsArg / 4 ∧
        2 ^ pbits ≤ m.p ∧ m.p < 2 ^ (pbits + 1) ∧
        2 ^ (s.bitsArg - pbits) ≤ m.q ∧ m.q < 2 ^ (s.bitsArg - pbits + 1)) ∧
      m.n = m.p * m.q ∧ 2 ^ s.bitsArg ≤ m.n ∧ m.n < 2 ^ (s.bitsArg + 2) ∧
      m.e < 2 ^ s.bitsArg ∧ Nat.gcd m.e (Nat.lcm (m.p - 1) (m.q - 1)) = 1) ∧
    (∀ c g', makePublicWithin src s.bitsArg s.itersArg fuel g = some (.error c, g') →
      ∃ k t, movesOf (mkpubWith src rp rq rn re) k s = .next t ∧ Failed c s t ∧
        Frame [] [.gen] s t ∧ t.g = some g') ∧
    (makePublicWithin src s.bitsArg s.itersArg (s.passes + fuel) g = none →
      ∃ t, movesOf (mkpubWith src rp rq rn re) fuel s = .next t ∧ Running s t ∧ Frame [] [] s t)

/-- From `BITS = 12` upwards no move of a `MKPUB` raises `SMALLN`: both primes have at least four bits
(rule R191). -/
def Obligations.MkpubWithTwelveBitsNeverSmall : Prop :=
  ∀ (s t : State) (rp rq rn re : RegIx), s.Inv → s.busy = true → 12 ≤ s.bitsArg →
    exec (.mkpub rp rq rn re) s = .next t → t.err = true → t.errcode ≠ .smalln

/-- `MKPRIV` with positive `p`, `q` and `tot = lcm(p-1, q-1) > 1`: when the inverse of `e` in `[0, tot)`
exists and fits `W` bits, however large `tot` is, it completes with it and `T = 1`; when there is no
inverse, with 0 and `T = 0`; when the inverse does not fit `W` bits it ends with `OVERFLOW` and writes
nothing (rules R11, R150, R193, R266). -/
def Obligations.MkprivDerivesExponent : Prop :=
  ∀ (s : State) (rd re rp rq : RegIx) (tot : Nat), s.Inv → 0 < s.reg rp → 0 < s.reg rq →
    tot = Nat.lcm (s.reg rp - 1) (s.reg rq - 1) → 1 < tot →
    (∀ i, i < tot → s.reg re * i % tot = 1 → i < 2 ^ s.width →
      ∃ t, exec (.mkpriv rd re rp rq) s = .next t ∧ Succeeded s t ∧ Frame [rd] [.flag] s t ∧
        t.reg rd = i ∧ t.tflag = true) ∧
    (Nat.gcd (s.reg re) tot ≠ 1 →
      ∃ t, exec (.mkpriv rd re rp rq) s = .next t ∧ Succeeded s t ∧ Frame [rd] [.flag] s t ∧
        t.reg rd = 0 ∧ t.tflag = false) ∧
    (∀ i, i < tot → s.reg re * i % tot = 1 → 2 ^ s.width ≤ i →
      ∃ t, exec (.mkpriv rd re rp rq) s = .next t ∧ Failed .overflow s t ∧ Frame [] [] s t) ∧
    (Nat.gcd (s.reg re) tot = 1 → ∃ i, i < tot ∧ s.reg re * i % tot = 1)

/-- `VERIFY` with a nonzero modulus completes and writes only `T`: 1 exactly when the signature's power
equals the expected message as it stands (rules R148, R196). -/
def Obligations.VerifyComparesSignature : Prop :=
  ∀ (s : State) (rs re rn rm : RegIx), s.reg rn ≠ 0 →
    ∃ t, exec (.verify rs re rn rm) s = .next t ∧ Succeeded s t ∧ Frame [] [.flag] s t ∧
      (t.tflag = true ↔
        (if s.reg re = 0 then 1 else s.reg rs ^ s.reg re % s.reg rn) = s.reg rm)

/-! ## Block cipher commands -/

/-- `BLKSZ` with a nonzero modulus `n` completes with `KBYTES = k`, one byte fewer than `n` occupies, so
that a block of at most `k` bytes, marker included, is below `n` (rules R211, R212). -/
def Obligations.BlkszGivesBlockSize : Prop :=
  ∀ (s : State) (rn : RegIx), s.Inv → s.reg rn ≠ 0 →
    ∃ t, exec (.blksz rn) s = .next t ∧ Succeeded s t ∧ Frame [] [.kbytes] s t ∧
      256 ^ t.kbytes.toNat ≤ s.reg rn ∧ s.reg rn < 256 ^ (t.kbytes.toNat + 1) ∧
      ∀ chunk : List Byte, chunk.length + 1 ≤ t.kbytes.toNat → packBlock chunk < s.reg rn

/-- `ENCBLK` with a chunk that fits and a nonzero modulus completes with the power of the block integer:
marker 0xFF, then `BUF[0 .. LEN-1]`, big-endian; the buffer and `LEN` are unchanged (rules R63, R148,
R213). -/
def Obligations.EncblkEncryptsChunk : Prop :=
  ∀ (s : State) (rd re rn : RegIx), s.Inv → s.lenArg + 1 ≤ s.width / 8 → s.reg rn ≠ 0 →
    ∃ t, exec (.encblk rd re rn) s = .next t ∧ Succeeded s t ∧ Frame [rd] [] s t ∧
      t.reg rd =
        if s.reg re = 0 then 1
        else (0xFF * 256 ^ s.lenArg +
          ∑ i ∈ Finset.range s.lenArg, (s.bufByte i).toNat * 256 ^ (s.lenArg - 1 - i))
            ^ s.reg re % s.reg rn

/-- `DECBLK` with a nonzero modulus: when the decrypted integer `m` is not 0 it completes with `LEN` one
byte fewer than `m` occupies and `m`'s bytes but the leading one in `BUF`, the bytes above unchanged;
when `m` is 0 it ends with `BADBLOCK` (rules R148, R215, R267). -/
def Obligations.DecblkUnpacksBlock : Prop :=
  ∀ (s : State) (rc rd rn : RegIx) (m : Nat), s.Inv → s.reg rn ≠ 0 →
    m = (if s.reg rd = 0 then 1 else s.reg rc ^ s.reg rd % s.reg rn) →
    (m ≠ 0 →
      ∃ t, exec (.decblk rc rd rn) s = .next t ∧ Succeeded s t ∧
        Frame [] [.buffer, .len] s t ∧ 256 ^ t.len.toNat ≤ m ∧ m < 256 ^ (t.len.toNat + 1) ∧
        (∀ i, i < t.len.toNat → (t.bufByte i).toNat = m / 256 ^ (t.len.toNat - 1 - i) % 256) ∧
        (∀ i, t.len.toNat ≤ i → t.bufByte i = s.bufByte i)) ∧
    (m = 0 → ∃ t, exec (.decblk rc rd rn) s = .next t ∧ Failed .badblock s t ∧ Frame [] [] s t)

/-! ## Errors -/

/-- A drawing command with no generator state ends with `NORNG`, after the encoding check and before
every other check (rule R262). -/
def Obligations.NorngWithoutGenerator : Prop :=
  ∀ s : State, s.g = none →
    (∀ rn, ∃ t, exec (.isprime rn) s = .next t ∧ Failed .norng s t ∧ Frame [] [] s t) ∧
    (∀ rd, ∃ t, exec (.mkprime rd) s = .next t ∧ Failed .norng s t ∧ Frame [] [] s t) ∧
    (∀ rp rq rn re, pairwiseDistinct rp rq rn re = true →
      ∃ t, exec (.mkpub rp rq rn re) s = .next t ∧ Failed .norng s t ∧ Frame [] [] s t)

/-- The conditions of `PARAM`, each checked before any draw or computation (rule R263). -/
def Obligations.ParamOutOfRange : Prop :=
  ∀ s : State,
    (∀ rd, s.seeded = true → s.width < s.bitsArg + 1 →
      ∃ t, exec (.mkprime rd) s = .next t ∧ Failed .param s t ∧ Frame [] [] s t) ∧
    (∀ rp rq rn re, pairwiseDistinct rp rq rn re = true → s.seeded = true →
      s.bitsArg < 2 ∨ s.width < s.bitsArg + 2 →
      ∃ t, exec (.mkpub rp rq rn re) s = .next t ∧ Failed .param s t ∧ Frame [] [] s t) ∧
    (∀ rd re rp rq, s.reg rp = 0 ∨ s.reg rq = 0 →
      ∃ t, exec (.mkpriv rd re rp rq) s = .next t ∧ Failed .param s t ∧ Frame [] [] s t) ∧
    (∀ rn, s.reg rn = 0 →
      ∃ t, exec (.blksz rn) s = .next t ∧ Failed .param s t ∧ Frame [] [] s t) ∧
    (∀ rd re rn, s.width / 8 < s.lenArg + 1 →
      ∃ t, exec (.encblk rd re rn) s = .next t ∧ Failed .param s t ∧ Frame [] [] s t)

/-- `IsPrime` raises `SMALLN` exactly for arguments up to 4, before any draw; `ISPRIME` ends with it on
such a candidate, `g` unchanged; `MKPRIME` with `BITS <= 1` always does, `g` advanced by the one draw made
(rules R171, R172, R176, R265). -/
def Obligations.SmallCandidatesAreErrors : Prop :=
  (∀ (src : RandSource) (n iters g : Nat),
    (n ≤ 4 → isPrime src n iters g = (.error .smalln, g)) ∧
    (4 < n → ∃ b g', isPrime src n iters g = (.ok b, g'))) ∧
  (∀ (s : State) (rn : RegIx), s.seeded = true → s.reg rn ≤ 4 →
    ∃ t, exec (.isprime rn) s = .next t ∧ Failed .smalln s t ∧ Frame [] [] s t) ∧
  (∀ (s : State) (rd : RegIx) (g : Nat), s.g = some g → s.bitsArg ≤ 1 → 2 ≤ s.width →
    ∃ t, exec (.mkprime rd) s = .next t ∧ Failed .smalln s t ∧ Frame [] [.gen] s t ∧
      t.g = some (randBits Config.source g s.bitsArg).2)

/-- Errors are precise: a command that ends in error has changed nothing but the five status fields and,
if it draws, the generator state, which it still holds (rule R270). -/
def Obligations.ErrorsArePrecise : Prop :=
  ∀ (i : Instr) (s t : State), s.Inv → s.busy = true → exec i s = .next t → t.err = true →
    Failed t.errcode s t ∧ t.errcode ≠ .none ∧ t.errcode ≠ .aborted ∧ Frame [] [.gen] s t ∧
    (drawing i = false → t.g = s.g) ∧ (s.seeded = true → t.seeded = true)

/-- A command raises no error but those rule R260's table gives it; so `OVERFLOW` comes from `MKPRIV`
alone (rules R260, R266). -/
def Obligations.ErrorsFollowTable : Prop :=
  ∀ (i : Instr) (s t : State), s.Inv → s.busy = true → decode s.cmdlatch = .ok i →
    exec i s = .next t → t.err = true → t.errcode ∈ mayRaise i

/-! ## Whole-machine rules -/

/-- `T` changes only at the successful completion of `MODINV`, `MKPRIV`, `ISPRIME`, `VERIFY` or
`CLRALL` (rules R25, R124). -/
def Obligations.FlagWriters : Prop :=
  ∀ (i : Instr) (s t : State), exec i s = .next t → t.tflag ≠ s.tflag →
    t.busy = false ∧ t.err = false ∧ t.errcode = .none ∧
    ((∃ rd ra rn, i = .modinv rd ra rn) ∨ (∃ rd re rp rq, i = .mkpriv rd re rp rq) ∨
      (∃ rn, i = .isprime rn) ∨ (∃ rs re rn rm, i = .verify rs re rn rm) ∨ i = .clrall)

/-- No command but `ISPRIME`, `MKPRIME`, `MKPUB` reads the generator state: on two states that differ
only in it the others end alike; and they keep it, but for `SEED`, `RNGCLR`, `CLRALL` (rule R128). -/
def Obligations.OnlyDrawingCommandsReadGenerator : Prop :=
  ∀ (i : Instr) (s : State) (x : Option Nat), drawing i = false →
    ∃ t t', exec i s = .next t ∧ exec i { s with g := x } = .next t' ∧
      { t' with g := t.g } = t ∧
      (i ≠ .seed → i ≠ .rngclr → i ≠ .clrall → t.g = s.g)

/-- Every command, on every busy state, answers a next state. Either it has completed, counted once, with
`ERR` set exactly when the code is nonzero; or it is a search that goes on, `MKPRIME` or `MKPUB`, with
nothing written (rules R37, R93, R320, R321; that a search takes several moves is log entry 8). -/
def Obligations.EveryCommandAnswers : Prop :=
  ∀ (i : Instr) (s : State), s.busy = true →
    ∃ t, exec i s = .next t ∧
      ((t.busy = false ∧ t.done = true ∧ t.cmdcnt = s.cmdcnt + 1 ∧
          (t.err = true ↔ t.errcode ≠ .none)) ∨
        (Running s t ∧ Frame [] [] s t ∧
          ((∃ rd, i = .mkprime rd) ∨ ∃ rp rq rn re, i = .mkpub rp rq rn re)))

/-! ## The document's properties -/

/-- Round trip of `pow_mod`: for distinct primes `p`, `q` and exponents inverse to each other modulo
`lcm(p-1, q-1)`, every message below `n = p*q` comes back (rule R152). -/
def Obligations.RsaRoundTrip : Prop :=
  ∀ p q e d m : Nat, Nat.Prime p → Nat.Prime q → p ≠ q →
    e * d % Nat.lcm (p - 1) (q - 1) = 1 → m < p * q →
    powMod (powMod m e (p * q)) d (p * q) = m

/-- Round trip of one block on the machine: a chunk that leaves room for the marker in the block size,
encrypted by `ENCBLK` and then decrypted by `DECBLK` under the matching key, is back in `BUF` with its
length in `LEN` (rule R216). -/
def Obligations.BlockRoundTrip : Prop :=
  ∀ (s : State) (p q : Nat) (rc re rd rn : RegIx) (v : Word), s.Inv → Nat.Prime p →
    Nat.Prime q → p ≠ q → s.reg rn = p * q →
    s.reg re * s.reg rd % Nat.lcm (p - 1) (q - 1) = 1 →
    s.lenArg + 1 ≤ blockSize (p * q) → rc ≠ rd → rc ≠ rn →
    ∃ t u, exec (.encblk rc re rn) s = .next t ∧ Succeeded s t ∧
      exec (.decblk rc rd rn) (t.issue v) = .next u ∧ Succeeded (t.issue v) u ∧
      u.len = s.len ∧ ∀ i, i < s.lenArg → u.bufByte i = s.bufByte i

/-- File round trip of the host's texts: the ciphertext lines of any byte stream, one per chunk of
`k - 1` bytes and a shorter last one, decrypt under the matching key to the stream, in every block whose
registers hold the modulus (rules R242, R244, R250). -/
def Obligations.StreamRoundTrip : Prop :=
  ∀ (w p q e d : Nat) (bs : List Byte) (lines : List (List Char)), Nat.Prime p → Nat.Prime q →
    p ≠ q → p * q ≤ 2 ^ w → e * d % Nat.lcm (p - 1) (q - 1) = 1 →
    cipherLines (p * q) e bs = some lines →
    lines.length = bs.length / (blockSize (p * q) - 1) + 1 ∧
    ∃ parts, lines.mapM (plainChunk w (p * q) d) = some parts ∧ parts.flatten = bs

/-- Key file texts are read back as they were written, for every key and every identity that is one line
of text (rules R233, R234, R235; how a text is split into lines is the model's choice, log entry 18). -/
def Obligations.KeyFilesReadBack : Prop :=
  (∀ n d : Nat, parsePrivateKey (privateKeyText n d) = some (n, d)) ∧
  (∀ (n e s : Nat) (identity : List Char), '\n' ∉ identity →
    parsePublicKey (publicKeyText n e s identity) = some (n, e, s, identity))

/-- The host's procedures on the block, from any session whose block is idle, for either way of waiting
and a positive budget. Encryption of a stream under a public key file whose integers fit `W` bits: with
modulus 0 `VERIFY` ends with `DIVZERO` and the procedure stops with that code before any output (rules
R231, R264); an unverified key stops it before any output (rules R196, R246), a modulus too small for data
stops it (rule R242), and else it writes the ciphertext lines, each ended by a line feed (rule R242).
Decryption of a text under a private key file whose integers fit: when every line decrypts it writes the
bytes; else it stops at the first line that does not, with exactly the bytes of the lines before it
written, as malformed when the line holds no integer that fits, and else with the code of `DIVZERO` or
`BADBLOCK` (rules R231, R244, R248, R264, R267). When a waiting host looks and how a text is split into
lines are the model's choices, log entries 23 and 18. -/
def Obligations.ProceduresRunTheStreams : Prop :=
  ∀ (h : Session) (how : Waiting) (budget : Nat), h.machine.Inv → h.machine.busy = false →
    (how = .interrupt → h.machine.ie = true) → 0 < budget →
    (∀ (keyFile identity : List Char) (n e s m : Nat) (input : List Byte),
      parsePublicKey keyFile = some (n, e, s, identity) →
      identityInteger h.machine.width identity = some m →
      n < 2 ^ h.machine.width → e < 2 ^ h.machine.width → s < 2 ^ h.machine.width →
      (n = 0 →
        ∃ u, (encryptStream how budget keyFile input).run h = (.error (.commandError 4), u) ∧
          u.text = h.text ∧ u.bytes = h.bytes) ∧
      (n ≠ 0 → powMod s e n ≠ m →
        ∃ u, (encryptStream how budget keyFile input).run h = (.error .mismatch, u) ∧
          u.text = h.text ∧ u.bytes = h.bytes) ∧
      (n ≠ 0 → powMod s e n = m → blockSize n < 2 →
        ∃ u, (encryptStream how budget keyFile input).run h = (.error .smallModulus, u) ∧
          u.text = h.text ∧ u.bytes = h.bytes) ∧
      (∀ lines, n ≠ 0 → powMod s e n = m → cipherLines n e input = some lines →
        ∃ u, (encryptStream how budget keyFile input).run h = (.ok (), u) ∧
          u.text = h.text ++ cipherText lines ∧ u.bytes = h.bytes ∧ u.machine.busy = false)) ∧
    (∀ (keyFile input : List Char) (n d : Nat), parsePrivateKey keyFile = some (n, d) →
      n < 2 ^ h.machine.width → d < 2 ^ h.machine.width →
      (∀ parts, (textLines input).mapM (plainChunk h.machine.width n d) = some parts →
        ∃ u, (decryptStream how budget keyFile input).run h = (.ok (), u) ∧
          u.bytes = h.bytes ++ parts.flatten ∧ u.text = h.text ∧ u.machine.busy = false) ∧
      ((textLines input).mapM (plainChunk h.machine.width n d) = none →
        ∃ before line after parts stop u, textLines input = before ++ line :: after ∧
          before.mapM (plainChunk h.machine.width n d) = some parts ∧
          plainChunk h.machine.width n d line = none ∧
          (decryptStream how budget keyFile input).run h = (.error stop, u) ∧
          u.bytes = h.bytes ++ parts.flatten ∧ u.text = h.text ∧
          ((∀ c, parseHex line = some c → 2 ^ h.machine.width ≤ c) → stop = .malformed) ∧
          (∀ c, parseHex line = some c → c < 2 ^ h.machine.width →
            stop = .commandError (if n = 0 then 4 else 7))))
end

