-- ==== Sys2Proof/Laws/Numbers.lean ====
section
/-! SUPPORT. The size and byte functions of rule R9: what pins each of them down. -/

namespace Sys2Proof.Laws

open Sys2Proof Sys2Proof.Machine

@[simp] theorem bitlength_zero : bitlength 0 = 0 := rfl

/-- `x < 2^bitlength(x)`. -/
theorem lt_two_pow_bitlength (x : Nat) : x < 2 ^ bitlength x := by
  unfold bitlength
  split
  · next h => simp [h]
  · exact Nat.lt_log2_self

/-- `2^(bitlength(x) - 1) <= x` for `x > 0`. -/
theorem two_pow_pred_bitlength_le {x : Nat} (h : x ≠ 0) : 2 ^ (bitlength x - 1) ≤ x := by
  rw [bitlength, if_neg h, Nat.add_sub_cancel]
  exact Nat.log2_self_le h

/-- An integer has at most `k` bits exactly when it is below `2^k`. -/
theorem bitlength_le_iff (x k : Nat) : bitlength x ≤ k ↔ x < 2 ^ k := by
  constructor
  · intro h
    exact (lt_two_pow_bitlength x).trans_le (Nat.pow_le_pow_right (by omega) h)
  · intro h
    by_cases hx : x = 0
    · subst hx; simp
    · by_contra hc
      have h2 : 2 ^ k ≤ 2 ^ (bitlength x - 1) := Nat.pow_le_pow_right (by omega) (by omega)
      have h3 := two_pow_pred_bitlength_le hx
      omega

theorem bitlength_pos {x : Nat} (h : x ≠ 0) : 0 < bitlength x := by
  rw [bitlength, if_neg h]; omega

/-- An integer occupies at most `k` bytes exactly when it is below `256^k`. -/
theorem bytelen_le_iff (x k : Nat) : bytelen x ≤ k ↔ x < 256 ^ k := by
  rw [show (256 : Nat) = 2 ^ 8 by rfl, ← Nat.pow_mul, ← bitlength_le_iff, bytelen]
  omega

theorem bytelen_eq_zero_iff (x : Nat) : bytelen x = 0 ↔ x = 0 := by
  have := bytelen_le_iff x 0
  simp only [Nat.pow_zero, Nat.lt_one_iff, Nat.le_zero_eq] at this
  exact this

/-- `x < 256^bytelen(x)`. -/
theorem lt_pow_bytelen (x : Nat) : x < 256 ^ bytelen x := (bytelen_le_iff x _).mp le_rfl

/-- `256^(bytelen(x) - 1) <= x` for `x > 0`. -/
theorem pow_pred_bytelen_le {x : Nat} (h : x ≠ 0) : 256 ^ (bytelen x - 1) ≤ x := by
  by_contra hc
  have h1 := (bytelen_le_iff x (bytelen x - 1)).mpr (by omega)
  have h2 := (bytelen_eq_zero_iff x).not.mpr h
  omega

/-- The value of a byte string with one more byte at its end. -/
theorem beValue_concat (bs : List Byte) (b : Byte) :
    beValue (bs ++ [b]) = beValue bs * 256 + b.toNat := by
  simp [beValue, appendByte, List.foldl_append]

/-- A string of `j` bytes has a value below `256^j`. -/
theorem beValue_lt (bs : List Byte) : beValue bs < 256 ^ bs.length := by
  induction bs using List.reverseRecOn with
  | nil => simp [beValue]
  | append_singleton bs b ih =>
    have hb := b.isLt
    rw [beValue_concat, List.length_append, List.length_singleton, Nat.pow_succ]
    omega

@[simp] theorem length_toBE (x j : Nat) : (toBE x j).length = j := by simp [toBE]

/-- The value of a byte string as the sum of its digits. -/
theorem beValue_eq_sum (bs : List Byte) :
    beValue bs =
      ∑ i ∈ Finset.range bs.length, (bs.getD i 0).toNat * 256 ^ (bs.length - 1 - i) := by
  induction bs using List.reverseRecOn with
  | nil => simp [beValue]
  | append_singleton bs b ih =>
    rw [beValue_concat, ih, List.length_append, List.length_singleton, Finset.sum_range_succ,
      Finset.sum_mul]
    congr 1
    · refine Finset.sum_congr rfl fun i hi => ?_
      rw [Finset.mem_range] at hi
      rw [List.getD_append _ _ _ _ hi, Nat.mul_assoc, ← Nat.pow_succ]
      congr 2; omega
    · simp

/-- The value of a byte string with one more byte in front. -/
theorem beValue_cons (b : Byte) (bs : List Byte) :
    beValue (b :: bs) = b.toNat * 256 ^ bs.length + beValue bs := by
  rw [beValue_eq_sum, beValue_eq_sum, List.length_cons, Finset.sum_range_succ', Nat.add_comm]
  simp only [List.getD_cons_zero, Nat.add_sub_cancel, Nat.sub_zero, List.getD_cons_succ]
  congr 1
  refine Finset.sum_congr rfl fun i hi => ?_
  congr 2; omega

theorem getD_toBE (x j i : Nat) (h : i < j) : (toBE x j).getD i 0 = beByte x j i := by
  simp [toBE, List.getD_eq_getElem?_getD, h]

/-- `ToBE` gives a byte string back from its value (rule R9). -/
theorem toBE_beValue (bs : List Byte) : toBE (beValue bs) bs.length = bs := by
  refine List.ext_getElem (by simp) fun i h1 h2 => ?_
  simp only [toBE, List.getElem_map, List.getElem_range, beByte]
  induction bs using List.reverseRecOn with
  | nil => simp at h2
  | append_singleton bs b ih =>
    have hb := b.isLt
    rw [beValue_concat]
    simp only [List.length_append, List.length_singleton] at h2
    by_cases hi : i < bs.length
    · rw [List.getElem_append_left hi, ← ih (by simpa using hi) hi]
      congr 1
      rw [List.length_append, List.length_singleton,
        show bs.length + 1 - 1 - i = (bs.length - 1 - i) + 1 by omega, Nat.pow_succ',
        ← Nat.div_div_eq_div_mul]
      congr 1; omega
    · obtain rfl : i = bs.length := by omega
      apply BitVec.eq_of_toNat_eq
      simp only [List.length_append, List.length_singleton, Nat.add_sub_cancel, Nat.sub_self,
        Nat.pow_zero, Nat.div_one, BitVec.toNat_ofNat, List.getElem_concat_length]
      omega

/-- Bit `k` of word `j` of a big integer is bit `32j + k` (rule R64). -/
theorem getLsbD_wordOf (x j k : Nat) (h : k < 32) :
    (wordOf x j).getLsbD k = x.testBit (32 * j + k) := by
  rw [wordOf, BitVec.getLsbD_ofNat, Nat.testBit_div_two_pow, Nat.add_comm k]
  simp [h]

/-- A word write replaces the word's bits and no other (rule R66). -/
theorem testBit_replaceWord (x j : Nat) (v : Word) (k : Nat) :
    (replaceWord x j v).testBit k =
      if 32 * j ≤ k ∧ k < 32 * j + 32 then v.getLsbD (k - 32 * j) else x.testBit k := by
  have hv := v.isLt
  have h1 : replaceWord x j v =
      2 ^ (32 * j) * (2 ^ 32 * (x / 2 ^ (32 * j + 32)) + v.toNat) + x % 2 ^ (32 * j) := by
    rw [replaceWord, Nat.pow_add]; ring
  rw [h1, Nat.testBit_two_pow_mul_add _ (Nat.mod_lt _ (by positivity))]
  split
  · next h => rw [if_neg (by omega), Nat.testBit_mod_two_pow]; simp [h]
  · next h =>
    rw [Nat.testBit_two_pow_mul_add _ hv]
    split
    · next h2 => rw [if_pos (by omega)]; rfl
    · next h2 =>
      rw [if_neg (by omega), Nat.testBit_div_two_pow,
        show k - 32 * j - 32 + (32 * j + 32) = k by omega]

/-- A word write inside `w` bits keeps an integer below `2^w`. -/
theorem replaceWord_lt {x j w : Nat} (v : Word) (hx : x < 2 ^ w) (hj : 32 * j + 32 ≤ w) :
    replaceWord x j v < 2 ^ w := by
  refine Nat.lt_pow_two_of_testBit _ fun i hi => ?_
  rw [testBit_replaceWord, if_neg (by omega)]
  exact Nat.testBit_lt_two_pow (hx.trans_le (Nat.pow_le_pow_right (by omega) hi))

end Sys2Proof.Laws
end

