-- ==== Sys2Proof/Laws/Arith.lean ====
section
/-! SUPPORT. What the document's number theory computes: `Gcd`, `Lcm`, `PowMod`, and `ModInv` with what
its loop keeps (rules R141, R143, R148, R150). -/

namespace Sys2Proof.Laws
open Sys2Proof Sys2Proof.Machine

theorem gcdLoop_eq {fuel a b : Nat} (h : b ≤ fuel) : gcdLoop fuel a b = Nat.gcd a b := by
  induction fuel generalizing a b with
  | zero => obtain rfl : b = 0 := by omega
            simp [gcdLoop]
  | succ fuel ih =>
    rw [gcdLoop]
    split
    · next hb => simp [hb]
    · next hb =>
      have := Nat.mod_lt a (Nat.pos_of_ne_zero hb)
      rw [ih (by omega), Nat.gcd_comm b, ← Nat.gcd_rec, Nat.gcd_comm]

/-- `Gcd` is the greatest common divisor (rule R141). -/
theorem gcdFn_eq (a b : Nat) : gcdFn a b = Nat.gcd a b := gcdLoop_eq le_rfl

/-- `Lcm` is the least common multiple, but for two zeros (rule R150). -/
theorem lcmFn_eq {a b : Nat} (h : ¬(a = 0 ∧ b = 0)) : lcmFn a b = .ok (Nat.lcm a b) := by
  rw [lcmFn, gcdFn_eq, if_neg (by rwa [Nat.gcd_eq_zero_iff]), Nat.lcm,
    Nat.div_mul_right_comm (Nat.gcd_dvd_left a b)]

theorem lcmFn_zero : lcmFn 0 0 = .error .divzero := rfl

/-- The loop on an exponent it has passes for. -/
theorem powModLoop_mod {fuel v p d m : Nat} (h : d < 2 ^ fuel) :
    powModLoop fuel v p d m = if d = 0 then v else v * p ^ d % m := by
  induction fuel generalizing v p d with
  | zero => obtain rfl : d = 0 := by simpa using h
            simp [powModLoop]
  | succ fuel ih =>
    rw [powModLoop]
    split
    · rfl
    · next hd =>
      rw [ih (by rw [Nat.pow_succ] at h; omega)]
      have hp : p ^ d = p ^ (d % 2) * (p * p) ^ (d / 2) := by
        rw [← Nat.pow_two, ← Nat.pow_mul, ← Nat.pow_add, Nat.mod_add_div]
      have hq : (modMul p p m) ^ (d / 2) ≡ (p * p) ^ (d / 2) [MOD m] :=
        (Nat.mod_modEq _ _).pow _
      rcases Nat.mod_two_eq_zero_or_one d with h2 | h2
      · rw [if_neg (by omega), if_neg (by omega), hp, h2, Nat.pow_zero, Nat.one_mul]
        exact hq.mul_left v
      · rw [if_pos h2, hp, h2, Nat.pow_one]
        split
        · next h0 => simp [h0, modMul]
        · rw [← Nat.mul_assoc]
          exact (Nat.mod_modEq (v * p) m).mul hq

/-- `PowMod` is the power, reduced unless the exponent is 0 (rule R148). -/
theorem powMod_eq (b e m : Nat) : powMod b e m = if e = 0 then 1 else b ^ e % m := by
  rw [powMod, powModLoop_mod (lt_two_pow_bitlength e), Nat.one_mul]

theorem powMod_lt (b e : Nat) {m : Nat} (hm : 1 < m) : powMod b e m < m := by
  rw [powMod_eq]
  split
  · exact hm
  · exact Nat.mod_lt _ (by omega)

theorem powMod_le (b e : Nat) {m : Nat} (hm : m ≠ 0) : powMod b e m ≤ m := by
  rw [powMod_eq]
  split
  · omega
  · exact (Nat.mod_lt _ (by omega)).le

/-- What the loop of `ModInv` keeps, for `n >= 2` (rule R143). -/
structure InvLoopInv (a n r r' : Nat) (t t' : Int) : Prop where
  cong : (n : Int) ∣ t * a - r
  cong' : (n : Int) ∣ t' * a - r'
  size : (0 ≤ t' ∧ t ≤ 0 ∧ t' * r - t * r' = n) ∨ (t' ≤ 0 ∧ 0 ≤ t ∧ t * r' - t' * r = n)
  two : r' ≠ 0 → 2 ≤ r
  low : -(n : Int) < t
  high : t < n

theorem InvLoopInv.next {a n r r' : Nat} {t t' : Int} (h : InvLoopInv a n r r' t t') (hr : r' ≠ 0)
    (hn : 2 ≤ n) :
    InvLoopInv a n r' (r - r / r' * r') t' (t - (r / r' : Nat) * t') := by
  obtain ⟨c, c', sz, two, lo, hi⟩ := h
  have h2 := two hr
  have hle : r / r' * r' ≤ r := Nat.div_mul_le_self r r'
  have hq : (0 : Int) ≤ ((r / r' : Nat) : Int) := Int.natCast_nonneg _
  generalize hqd : (r / r' : Nat) = q at *
  have hz : (0 : Int) ≤ (r' : Int) := Int.natCast_nonneg _
  have h2' : (2 : Int) ≤ (r : Int) := by exact_mod_cast h2
  have hn' : (2 : Int) ≤ (n : Int) := by exact_mod_cast hn
  refine ⟨c', ?_, ?_, ?_, ?_, ?_⟩
  · rw [Nat.cast_sub hle]
    push_cast
    have := Int.dvd_sub c (Dvd.dvd.mul_left c' (q : Int))
    convert this using 1; ring
  · rw [Nat.cast_sub hle]
    push_cast
    rcases sz with ⟨h1, h3, h4⟩ | ⟨h1, h3, h4⟩
    · refine .inr ⟨by nlinarith, h1, by linear_combination h4⟩
    · refine .inl ⟨by nlinarith, h1, by linear_combination h4⟩
  · intro h0
    by_contra hc
    obtain rfl : r' = 1 := by omega
    rw [Nat.div_one] at hqd
    omega
  · rcases sz with ⟨h1, h3, h4⟩ | ⟨h1, h3, h4⟩ <;> nlinarith
  · rcases sz with ⟨h1, h3, h4⟩ | ⟨h1, h3, h4⟩ <;> nlinarith

/-- The loop ends with the greatest common divisor and a coefficient between `-n` and `n`. -/
theorem modInvLoop_spec {fuel r r' : Nat} {t t' : Int} {a n : Nat} (hf : r' ≤ fuel) (hn : 2 ≤ n)
    (h : InvLoopInv a n r r' t t') :
    (modInvLoop fuel r r' t t').1 = Nat.gcd r r' ∧
    (n : Int) ∣ (modInvLoop fuel r r' t t').2 * a - Nat.gcd r r' ∧
    -(n : Int) < (modInvLoop fuel r r' t t').2 ∧ (modInvLoop fuel r r' t t').2 < n := by
  induction fuel generalizing r r' t t' with
  | zero =>
    obtain rfl : r' = 0 := by omega
    simpa [modInvLoop] using ⟨h.cong, h.low, h.high⟩
  | succ fuel ih =>
    rw [modInvLoop]
    split
    · next h0 => subst h0; simpa using ⟨h.cong, h.low, h.high⟩
    · next h0 =>
      have hm : r - r / r' * r' = r % r' := by
        have := Nat.div_add_mod r r'
        rw [Nat.mul_comm] at this; omega
      have hlt := Nat.mod_lt r (Nat.pos_of_ne_zero h0)
      have := ih (by omega) (h.next h0 hn)
      have hg : Nat.gcd r' (r - r / r' * r') = Nat.gcd r r' := by
        rw [hm, Nat.gcd_comm r', ← Nat.gcd_rec, Nat.gcd_comm]
      rwa [hg] at this

/-- The loop from rule R143's start values. -/
theorem modInvLoop_start (a : Nat) {n : Nat} (hn : 2 ≤ n) :
    (modInvLoop a n a 0 1).1 = Nat.gcd n a ∧
    (n : Int) ∣ (modInvLoop a n a 0 1).2 * a - Nat.gcd n a ∧
    -(n : Int) < (modInvLoop a n a 0 1).2 ∧ (modInvLoop a n a 0 1).2 < n :=
  modInvLoop_spec le_rfl hn ⟨by simp, by simp, .inl (by simp), fun _ => hn, by omega, by omega⟩

/-- No inverse: the sentinel (rule R143). -/
theorem modInv_gcd_gt (a n : Nat) (h : 1 < Nat.gcd a n) : modInv a n = (0, false) := by
  by_cases hn : 2 ≤ n
  · rw [modInv, (modInvLoop_start a hn).1, if_pos (by rwa [Nat.gcd_comm])]
  · have h0 : n = 0 := by
      by_contra h0
      obtain rfl : n = 1 := by omega
      simp at h
    subst h0
    simp only [Nat.gcd_zero_right] at h
    obtain ⟨k, rfl⟩ : ∃ k, a = k + 2 := ⟨a - 2, by omega⟩
    simp [modInv, modInvLoop]

/-- The inverse, in `[0, n)` (rule R145). -/
theorem modInv_coprime (a n : Nat) (hn : 1 < n) (h : Nat.gcd a n = 1) :
    (modInv a n).2 = true ∧ (modInv a n).1 < n ∧ a * (modInv a n).1 % n = 1 := by
  have := modInvLoop_start a (show 2 ≤ n from hn)
  rw [Nat.gcd_comm, h] at this
  obtain ⟨h1, h2, h3, h4⟩ := this
  rw [modInv, h1, if_neg (by omega)]
  refine ⟨rfl, ?_, ?_⟩
  · simp only [normalise]; split <;> omega
  · have key : ((normalise (modInvLoop a n a 0 1).2 n : Nat) : Int) ≡
        (modInvLoop a n a 0 1).2 [ZMOD n] := by
      simp only [normalise]; split
      · rw [Int.toNat_of_nonneg (by omega)]; simp [Int.ModEq]
      · rw [Int.toNat_of_nonneg (by omega)]
    have e : ((a * normalise (modInvLoop a n a 0 1).2 n : Nat) : Int) ≡ 1 [ZMOD n] := by
      push_cast
      refine (key.mul_left _).trans ?_
      refine Int.ModEq.symm ?_
      rw [Int.modEq_iff_dvd, mul_comm]
      exact_mod_cast h2
    have e' : a * normalise (modInvLoop a n a 0 1).2 n ≡ 1 [MOD n] := by
      rw [← Int.natCast_modEq_iff]; exact_mod_cast e
    rw [Nat.ModEq, Nat.mod_eq_of_lt hn] at e'
    exact e'

/-- The row `n = 1` of rule R144. -/
theorem modInv_one (a : Nat) : modInv a 1 = (if a = 1 then 1 else 0, true) := by
  match a with
  | 0 => rfl
  | 1 => rfl
  | a + 2 =>
    have h0 : modInvLoop a 1 0 0 1 = (1, 0) := by cases a <;> rfl
    simp [modInv, modInvLoop, normalise, Nat.div_eq_of_lt (show 1 < a + 2 by omega), h0]

/-- The row `n = 0`, `a <= 1` of rule R144. -/
theorem modInv_zero (a : Nat) (h : a ≤ 1) : modInv a 0 = (a, true) := by
  interval_cases a <;> decide

end Sys2Proof.Laws
end

