-- ==== Sys2Proof/Laws/Block.lean ====
section
/-! SUPPORT. Block sizes, packing and unpacking (rules R211, R213, R215). -/

namespace Sys2Proof.Laws

open Sys2Proof Sys2Proof.Machine

/-- The block size of `n > 0` is one byte fewer than `n` occupies: `256^k <= n < 256^(k+1)`. -/
theorem blockSize_spec {n : Nat} (h : n ≠ 0) :
    256 ^ blockSize n ≤ n ∧ n < 256 ^ (blockSize n + 1) := by
  rw [show (256 : Nat) = 2 ^ 8 by rfl, ← Nat.pow_mul, ← Nat.pow_mul, blockSize]
  exact ⟨(Nat.pow_le_pow_right (by omega) (by omega)).trans (two_pow_pred_bitlength_le h),
    (lt_two_pow_bitlength n).trans_le (Nat.pow_le_pow_right (by omega) (by omega))⟩

theorem blockSize_lt {n w : Nat} (hw : Config.LegalWidth w) (h : n ≠ 0) (hl : n < 2 ^ w) :
    blockSize n < regBytes w := by
  obtain ⟨h1, h2, -⟩ := hw
  have := (bitlength_le_iff n w).mpr hl
  have := bitlength_pos h
  rw [blockSize, regBytes]; omega

theorem bytelen_le {m w : Nat} (hw : Config.LegalWidth w) (h : m < 2 ^ w) :
    bytelen m ≤ regBytes w := by
  obtain ⟨h1, h2, -⟩ := hw
  rw [bytelen_le_iff, show (256 : Nat) = 2 ^ 8 by rfl, ← Nat.pow_mul, regBytes]
  rwa [show 8 * (w / 8) = w by omega]

/-- A block integer is below `256^(chunk length + 1)`. -/
theorem packBlock_lt (chunk : List Byte) : packBlock chunk < 256 ^ (chunk.length + 1) :=
  beValue_lt (markerByte :: chunk)

/-- The marker makes a block integer occupy one byte more than its chunk has. -/
theorem bytelen_packBlock (chunk : List Byte) :
    packBlock chunk ≠ 0 ∧ bytelen (packBlock chunk) = chunk.length + 1 := by
  have h : packBlock chunk = 255 * 256 ^ chunk.length + beValue chunk := by
    rw [packBlock, beValue_cons]; rfl
  have hp : 0 < 256 ^ chunk.length := by positivity
  have h1 : ¬bytelen (packBlock chunk) ≤ chunk.length := by rw [bytelen_le_iff]; omega
  have h2 := (bytelen_le_iff _ _).mpr (packBlock_lt chunk)
  exact ⟨by omega, by omega⟩

@[simp] theorem length_unpackBlock (m : Nat) : (unpackBlock m).length = bytelen m - 1 := by
  simp [unpackBlock]

/-- Unpacking gives back the chunk that was packed. -/
theorem unpackBlock_packBlock (chunk : List Byte) : unpackBlock (packBlock chunk) = chunk := by
  have h := toBE_beValue (markerByte :: chunk)
  rw [List.length_cons] at h
  rw [unpackBlock, (bytelen_packBlock chunk).2, packBlock, h]
  rfl

end Sys2Proof.Laws
end

