-- ==== Sys2Proof/Laws/Encoding.lean ====
section
/-! SUPPORT. The fields of each format's words: what the encoder puts into a field, the decoder's field
function reads back. -/

namespace Sys2Proof.Laws

open Sys2Proof

@[simp] theorem opcodeField_wordN (op : BitVec 8) :
    opcodeField (wordN op) = op := by
  apply BitVec.eq_of_getLsbD_eq
  intro i hi
  simp only [opcodeField, wordN, BitVec.getLsbD_extractLsb', BitVec.getLsbD_append]
  interval_cases i <;> simp

@[simp] theorem reservedClear_wordN (op : BitVec 8) :
    reservedClear .n (wordN op) = true := by
  simp only [reservedClear, beq_iff_eq]
  apply BitVec.eq_of_getLsbD_eq
  intro i hi
  simp only [wordN, BitVec.getLsbD_extractLsb', BitVec.getLsbD_append]
  interval_cases i <;> simp

@[simp] theorem mask_wordN (op : BitVec 8) :
    wordN op &&& formatMask .n = matchWord op := by
  apply BitVec.eq_of_getLsbD_eq
  intro i hi
  simp only [BitVec.getLsbD_and, wordN, matchWord, BitVec.getLsbD_append, formatMask]
  interval_cases i <;> simp

@[simp] theorem opcodeField_wordR1 (op : BitVec 8) (a : RegIx) :
    opcodeField (wordR1 op a) = op := by
  apply BitVec.eq_of_getLsbD_eq
  intro i hi
  simp only [opcodeField, wordR1, BitVec.getLsbD_extractLsb', BitVec.getLsbD_append]
  interval_cases i <;> simp

@[simp] theorem fieldA_wordR1 (op : BitVec 8) (a : RegIx) :
    fieldA (wordR1 op a) = a := by
  apply BitVec.eq_of_getLsbD_eq
  intro i hi
  simp only [fieldA, wordR1, BitVec.getLsbD_extractLsb', BitVec.getLsbD_append]
  interval_cases i <;> simp

@[simp] theorem reservedClear_wordR1 (op : BitVec 8) (a : RegIx) :
    reservedClear .r1 (wordR1 op a) = true := by
  simp only [reservedClear, beq_iff_eq]
  apply BitVec.eq_of_getLsbD_eq
  intro i hi
  simp only [wordR1, BitVec.getLsbD_extractLsb', BitVec.getLsbD_append]
  interval_cases i <;> simp

@[simp] theorem mask_wordR1 (op : BitVec 8) (a : RegIx) :
    wordR1 op a &&& formatMask .r1 = matchWord op := by
  apply BitVec.eq_of_getLsbD_eq
  intro i hi
  simp only [BitVec.getLsbD_and, wordR1, matchWord, BitVec.getLsbD_append, formatMask]
  interval_cases i <;> simp

@[simp] theorem opcodeField_wordR2 (op : BitVec 8) (a b : RegIx) :
    opcodeField (wordR2 op a b) = op := by
  apply BitVec.eq_of_getLsbD_eq
  intro i hi
  simp only [opcodeField, wordR2, BitVec.getLsbD_extractLsb', BitVec.getLsbD_append]
  interval_cases i <;> simp

@[simp] theorem fieldA_wordR2 (op : BitVec 8) (a b : RegIx) :
    fieldA (wordR2 op a b) = a := by
  apply BitVec.eq_of_getLsbD_eq
  intro i hi
  simp only [fieldA, wordR2, BitVec.getLsbD_extractLsb', BitVec.getLsbD_append]
  interval_cases i <;> simp

@[simp] theorem fieldB_wordR2 (op : BitVec 8) (a b : RegIx) :
    fieldB (wordR2 op a b) = b := by
  apply BitVec.eq_of_getLsbD_eq
  intro i hi
  simp only [fieldB, wordR2, BitVec.getLsbD_extractLsb', BitVec.getLsbD_append]
  interval_cases i <;> simp

@[simp] theorem reservedClear_wordR2 (op : BitVec 8) (a b : RegIx) :
    reservedClear .r2 (wordR2 op a b) = true := by
  simp only [reservedClear, beq_iff_eq]
  apply BitVec.eq_of_getLsbD_eq
  intro i hi
  simp only [wordR2, BitVec.getLsbD_extractLsb', BitVec.getLsbD_append]
  interval_cases i <;> simp

@[simp] theorem mask_wordR2 (op : BitVec 8) (a b : RegIx) :
    wordR2 op a b &&& formatMask .r2 = matchWord op := by
  apply BitVec.eq_of_getLsbD_eq
  intro i hi
  simp only [BitVec.getLsbD_and, wordR2, matchWord, BitVec.getLsbD_append, formatMask]
  interval_cases i <;> simp

@[simp] theorem opcodeField_wordR3 (op : BitVec 8) (a b c : RegIx) :
    opcodeField (wordR3 op a b c) = op := by
  apply BitVec.eq_of_getLsbD_eq
  intro i hi
  simp only [opcodeField, wordR3, BitVec.getLsbD_extractLsb', BitVec.getLsbD_append]
  interval_cases i <;> simp

@[simp] theorem fieldA_wordR3 (op : BitVec 8) (a b c : RegIx) :
    fieldA (wordR3 op a b c) = a := by
  apply BitVec.eq_of_getLsbD_eq
  intro i hi
  simp only [fieldA, wordR3, BitVec.getLsbD_extractLsb', BitVec.getLsbD_append]
  interval_cases i <;> simp

@[simp] theorem fieldB_wordR3 (op : BitVec 8) (a b c : RegIx) :
    fieldB (wordR3 op a b c) = b := by
  apply BitVec.eq_of_getLsbD_eq
  intro i hi
  simp only [fieldB, wordR3, BitVec.getLsbD_extractLsb', BitVec.getLsbD_append]
  interval_cases i <;> simp

@[simp] theorem fieldC_wordR3 (op : BitVec 8) (a b c : RegIx) :
    fieldC (wordR3 op a b c) = c := by
  apply BitVec.eq_of_getLsbD_eq
  intro i hi
  simp only [fieldC, wordR3, BitVec.getLsbD_extractLsb', BitVec.getLsbD_append]
  interval_cases i <;> simp

@[simp] theorem reservedClear_wordR3 (op : BitVec 8) (a b c : RegIx) :
    reservedClear .r3 (wordR3 op a b c) = true := by
  simp only [reservedClear, beq_iff_eq]
  apply BitVec.eq_of_getLsbD_eq
  intro i hi
  simp only [wordR3, BitVec.getLsbD_extractLsb', BitVec.getLsbD_append]
  interval_cases i <;> simp

@[simp] theorem mask_wordR3 (op : BitVec 8) (a b c : RegIx) :
    wordR3 op a b c &&& formatMask .r3 = matchWord op := by
  apply BitVec.eq_of_getLsbD_eq
  intro i hi
  simp only [BitVec.getLsbD_and, wordR3, matchWord, BitVec.getLsbD_append, formatMask]
  interval_cases i <;> simp

@[simp] theorem opcodeField_wordR4 (op : BitVec 8) (a b c d : RegIx) :
    opcodeField (wordR4 op a b c d) = op := by
  apply BitVec.eq_of_getLsbD_eq
  intro i hi
  simp only [opcodeField, wordR4, BitVec.getLsbD_extractLsb', BitVec.getLsbD_append]
  interval_cases i <;> simp

@[simp] theorem fieldA_wordR4 (op : BitVec 8) (a b c d : RegIx) :
    fieldA (wordR4 op a b c d) = a := by
  apply BitVec.eq_of_getLsbD_eq
  intro i hi
  simp only [fieldA, wordR4, BitVec.getLsbD_extractLsb', BitVec.getLsbD_append]
  interval_cases i <;> simp

@[simp] theorem fieldB_wordR4 (op : BitVec 8) (a b c d : RegIx) :
    fieldB (wordR4 op a b c d) = b := by
  apply BitVec.eq_of_getLsbD_eq
  intro i hi
  simp only [fieldB, wordR4, BitVec.getLsbD_extractLsb', BitVec.getLsbD_append]
  interval_cases i <;> simp

@[simp] theorem fieldC_wordR4 (op : BitVec 8) (a b c d : RegIx) :
    fieldC (wordR4 op a b c d) = c := by
  apply BitVec.eq_of_getLsbD_eq
  intro i hi
  simp only [fieldC, wordR4, BitVec.getLsbD_extractLsb', BitVec.getLsbD_append]
  interval_cases i <;> simp

@[simp] theorem fieldD_wordR4 (op : BitVec 8) (a b c d : RegIx) :
    fieldD (wordR4 op a b c d) = d := by
  apply BitVec.eq_of_getLsbD_eq
  intro i hi
  simp only [fieldD, wordR4, BitVec.getLsbD_extractLsb', BitVec.getLsbD_append]
  interval_cases i <;> simp

@[simp] theorem reservedClear_wordR4 (op : BitVec 8) (a b c d : RegIx) :
    reservedClear .r4 (wordR4 op a b c d) = true := by
  simp only [reservedClear, beq_iff_eq]
  apply BitVec.eq_of_getLsbD_eq
  intro i hi
  simp only [wordR4, BitVec.getLsbD_extractLsb', BitVec.getLsbD_append]
  interval_cases i <;> simp

@[simp] theorem mask_wordR4 (op : BitVec 8) (a b c d : RegIx) :
    wordR4 op a b c d &&& formatMask .r4 = matchWord op := by
  apply BitVec.eq_of_getLsbD_eq
  intro i hi
  simp only [BitVec.getLsbD_and, wordR4, matchWord, BitVec.getLsbD_append, formatMask]
  interval_cases i <;> simp

@[simp] theorem opcodeField_wordI (op : BitVec 8) (a : RegIx) (imm : Imm16) :
    opcodeField (wordI op a imm) = op := by
  apply BitVec.eq_of_getLsbD_eq
  intro i hi
  simp only [opcodeField, wordI, BitVec.getLsbD_extractLsb', BitVec.getLsbD_append]
  interval_cases i <;> simp

@[simp] theorem fieldA_wordI (op : BitVec 8) (a : RegIx) (imm : Imm16) :
    fieldA (wordI op a imm) = a := by
  apply BitVec.eq_of_getLsbD_eq
  intro i hi
  simp only [fieldA, wordI, BitVec.getLsbD_extractLsb', BitVec.getLsbD_append]
  interval_cases i <;> simp

@[simp] theorem fieldImm_wordI (op : BitVec 8) (a : RegIx) (imm : Imm16) :
    fieldImm (wordI op a imm) = imm := by
  apply BitVec.eq_of_getLsbD_eq
  intro i hi
  simp only [fieldImm, wordI, BitVec.getLsbD_extractLsb', BitVec.getLsbD_append]
  interval_cases i <;> simp

@[simp] theorem reservedClear_wordI (op : BitVec 8) (a : RegIx) (imm : Imm16) :
    reservedClear .i (wordI op a imm) = true := by
  simp only [reservedClear, beq_iff_eq]
  apply BitVec.eq_of_getLsbD_eq
  intro i hi
  simp only [fieldB, wordI, BitVec.getLsbD_extractLsb', BitVec.getLsbD_append]
  interval_cases i <;> simp

@[simp] theorem mask_wordI (op : BitVec 8) (a : RegIx) (imm : Imm16) :
    wordI op a imm &&& formatMask .i = matchWord op := by
  apply BitVec.eq_of_getLsbD_eq
  intro i hi
  simp only [BitVec.getLsbD_and, wordI, matchWord, BitVec.getLsbD_append, formatMask]
  interval_cases i <;> simp

/-- A word matches a row's pair under its format's mask exactly when its opcode is the row's and its
reserved bits are 0 (rules R95, R99). -/
theorem mask_iff (f : Format) (op : BitVec 8) (v : Word) :
    v &&& formatMask f = matchWord op ↔ opcodeField v = op ∧ reservedClear f v = true := by
  constructor
  · intro h
    have hb : ∀ i, (v &&& formatMask f).getLsbD i = (matchWord op).getLsbD i := by rw [h]; simp
    simp only [BitVec.getLsbD_and] at hb
    constructor
    · apply BitVec.eq_of_getLsbD_eq
      intro i hi
      have := hb (24 + i)
      simp only [opcodeField, BitVec.getLsbD_extractLsb', matchWord, BitVec.getLsbD_append] at *
      cases f <;> simp only [formatMask] at this <;> interval_cases i <;> simpa using this
    · cases f <;> simp only [reservedClear, beq_iff_eq, fieldB] <;>
        (apply BitVec.eq_of_getLsbD_eq; intro i hi; have h0 := hb i; have h1 := hb (16 + i)) <;>
        simp only [BitVec.getLsbD_extractLsb', matchWord, BitVec.getLsbD_append, formatMask] at * <;>
        interval_cases i <;> first | simpa using h0 | simpa using h1
  · rintro ⟨rfl, h⟩
    apply BitVec.eq_of_getLsbD_eq
    intro i hi
    cases f <;> simp only [reservedClear, beq_iff_eq, fieldB] at h <;>
      simp only [BitVec.getLsbD_and, matchWord, BitVec.getLsbD_append, formatMask, opcodeField,
        BitVec.getLsbD_extractLsb'] <;>
      (have h0 := congrArg (fun x => BitVec.getLsbD x i) h
       have h1 := congrArg (fun x => BitVec.getLsbD x (i - 16)) h
       simp only [BitVec.getLsbD_extractLsb'] at h0 h1
       interval_cases i <;> simp at h0 h1 ⊢ <;> assumption)

/-! A word whose reserved bits are 0 is put together again from its fields. -/

theorem reassembleN (v : Word) (h : reservedClear .n v = true) :
    wordN (opcodeField v) = v := by
  simp only [reservedClear, beq_iff_eq] at h
  apply BitVec.eq_of_getLsbD_eq
  intro i hi
  have hz := congrArg (fun x => BitVec.getLsbD x i) h
  simp only [wordN, BitVec.getLsbD_append, opcodeField,
    BitVec.getLsbD_extractLsb'] at *
  interval_cases i <;> simp at hz ⊢ <;> simp [hz]

theorem reassembleR1 (v : Word) (h : reservedClear .r1 v = true) :
    wordR1 (opcodeField v) (fieldA v) = v := by
  simp only [reservedClear, beq_iff_eq] at h
  apply BitVec.eq_of_getLsbD_eq
  intro i hi
  have hz := congrArg (fun x => BitVec.getLsbD x i) h
  simp only [wordR1, BitVec.getLsbD_append, opcodeField, fieldA,
    BitVec.getLsbD_extractLsb'] at *
  interval_cases i <;> simp at hz ⊢ <;> simp [hz]

theorem reassembleR2 (v : Word) (h : reservedClear .r2 v = true) :
    wordR2 (opcodeField v) (fieldA v) (fieldB v) = v := by
  simp only [reservedClear, beq_iff_eq] at h
  apply BitVec.eq_of_getLsbD_eq
  intro i hi
  have hz := congrArg (fun x => BitVec.getLsbD x i) h
  simp only [wordR2, BitVec.getLsbD_append, opcodeField, fieldA, fieldB,
    BitVec.getLsbD_extractLsb'] at *
  interval_cases i <;> simp at hz ⊢ <;> simp [hz]

theorem reassembleR3 (v : Word) (h : reservedClear .r3 v = true) :
    wordR3 (opcodeField v) (fieldA v) (fieldB v) (fieldC v) = v := by
  simp only [reservedClear, beq_iff_eq] at h
  apply BitVec.eq_of_getLsbD_eq
  intro i hi
  have hz := congrArg (fun x => BitVec.getLsbD x i) h
  simp only [wordR3, BitVec.getLsbD_append, opcodeField, fieldA, fieldB, fieldC,
    BitVec.getLsbD_extractLsb'] at *
  interval_cases i <;> simp at hz ⊢ <;> simp [hz]

theorem reassembleR4 (v : Word) (h : reservedClear .r4 v = true) :
    wordR4 (opcodeField v) (fieldA v) (fieldB v) (fieldC v) (fieldD v) = v := by
  simp only [reservedClear, beq_iff_eq] at h
  apply BitVec.eq_of_getLsbD_eq
  intro i hi
  have hz := congrArg (fun x => BitVec.getLsbD x i) h
  simp only [wordR4, BitVec.getLsbD_append, opcodeField, fieldA, fieldB, fieldC, fieldD,
    BitVec.getLsbD_extractLsb'] at *
  interval_cases i <;> simp at hz ⊢ <;> simp [hz]

theorem reassembleI (v : Word) (h : reservedClear .i v = true) :
    wordI (opcodeField v) (fieldA v) (fieldImm v) = v := by
  simp only [reservedClear, beq_iff_eq, fieldB] at h
  apply BitVec.eq_of_getLsbD_eq
  intro i hi
  have hz := congrArg (fun x => BitVec.getLsbD x (i - 16)) h
  simp only [wordI, BitVec.getLsbD_append, opcodeField, fieldA, fieldImm,
    BitVec.getLsbD_extractLsb'] at *
  interval_cases i <;> simp at hz ⊢ <;> simp [hz]

end Sys2Proof.Laws
end

