-- ==== Sys2Proof/Laws/Memory.lean ====
section
/-! SUPPORT. The byte store: a read after a write, that every write keeps the canonical form, and that
equal reads of canonical stores make equal stores. -/

namespace Sys2Proof.Laws

open Sys2Proof Sys2Proof.Machine

theorem wfFrom_mono {lo lo' : Nat} {m : Memory} (h : Memory.wfFrom lo m = true) (hle : lo' ≤ lo) :
    Memory.wfFrom lo' m = true := by
  cases m with
  | nil => rfl
  | cons e rest =>
    simp only [Memory.wfFrom, Bool.and_eq_true, decide_eq_true_eq] at h ⊢
    exact ⟨⟨by omega, h.1.2⟩, h.2⟩

/-- Below the first listed address every byte is blank. -/
theorem read_below {lo : Nat} {m : Memory} (h : Memory.wfFrom lo m = true) {a : Nat} (ha : a < lo) :
    Memory.read m a = blankByte := by
  induction m generalizing lo with
  | nil => rfl
  | cons e rest ih =>
    simp only [Memory.wfFrom, Bool.and_eq_true, decide_eq_true_eq] at h
    rw [Memory.read, if_neg (by omega)]
    exact ih h.2 (by omega)

theorem read_entry {lo : Nat} {m : Memory} (h : Memory.wfFrom lo m = true) {a : Nat} (ha : a < lo)
    (b : Byte) (i : Nat) :
    Memory.read (Memory.entry a b m) i = if i = a then b else Memory.read m i := by
  unfold Memory.entry
  split
  · next hb =>
    split
    · next hi => subst hi; rw [read_below h ha, hb]
    · rfl
  · simp only [Memory.read, eq_comm]

theorem wfFrom_entry {lo : Nat} {m : Memory} {a : Nat} (h : Memory.wfFrom (a + 1) m = true)
    (ha : lo ≤ a) (b : Byte) : Memory.wfFrom lo (Memory.entry a b m) = true := by
  unfold Memory.entry
  split
  · exact wfFrom_mono h (by omega)
  · next hb => simp [Memory.wfFrom, h, ha, hb]

/-- A write keeps the canonical form from any bound up to its address. -/
theorem wfFrom_write {lo : Nat} {m : Memory} (h : Memory.wfFrom lo m = true) {a : Nat} (ha : lo ≤ a)
    (b : Byte) : Memory.wfFrom lo (Memory.write m a b) = true := by
  induction m generalizing lo with
  | nil => exact wfFrom_entry rfl ha b
  | cons e rest ih =>
    have hc := h
    simp only [Memory.wfFrom, Bool.and_eq_true, decide_eq_true_eq] at h
    rw [Memory.write]
    split
    · simp only [Memory.wfFrom, Bool.and_eq_true, decide_eq_true_eq]
      exact ⟨h.1, ih h.2 (by omega)⟩
    · split
      · next he => exact wfFrom_entry (he ▸ h.2) ha b
      · refine wfFrom_entry ?_ ha b
        simp only [Memory.wfFrom, Bool.and_eq_true, decide_eq_true_eq]
        exact ⟨⟨by omega, h.1.2⟩, h.2⟩

/-- A byte write changes the byte written and no other. -/
theorem read_write_from {lo : Nat} {m : Memory} (h : Memory.wfFrom lo m = true) (a : Nat) (b : Byte)
    (i : Nat) : Memory.read (Memory.write m a b) i = if i = a then b else Memory.read m i := by
  induction m generalizing lo with
  | nil => exact read_entry (lo := a + 1) rfl (by omega) b i
  | cons e rest ih =>
    have hc := h
    simp only [Memory.wfFrom, Bool.and_eq_true, decide_eq_true_eq] at h
    rw [Memory.write]
    split
    · simp only [Memory.read]
      rw [ih h.2]
      by_cases h1 : e.1 = i
      · rw [if_pos h1, if_pos h1, if_neg (by omega)]
      · rw [if_neg h1, if_neg h1]
    · split
      · next he =>
        rw [read_entry h.2 (by omega)]
        simp only [Memory.read]
        by_cases h1 : i = a
        · rw [if_pos h1, if_pos h1]
        · rw [if_neg h1, if_neg h1, if_neg (by omega)]
      · refine read_entry (lo := e.1) ?_ (by omega) b i
        simp only [Memory.wfFrom, Bool.and_eq_true, decide_eq_true_eq]
        exact ⟨⟨by omega, h.1.2⟩, h.2⟩

theorem read_write {m : Memory} (h : Memory.wf m = true) (a : Nat) (b : Byte) (i : Nat) :
    Memory.read (Memory.write m a b) i = if i = a then b else Memory.read m i :=
  read_write_from h a b i

/-- A byte write keeps the canonical form. -/
theorem wf_write {m : Memory} (h : Memory.wf m = true) (a : Nat) (b : Byte) :
    Memory.wf (Memory.write m a b) = true :=
  wfFrom_write h (Nat.zero_le a) b

/-- Writing a string of bytes keeps the canonical form. -/
theorem wf_writeBytes {m : Memory} (h : Memory.wf m = true) (a : Nat) (bs : List Byte) :
    Memory.wf (Memory.writeBytes m a bs) = true := by
  induction bs generalizing m a with
  | nil => exact h
  | cons b bs ih => exact ih (wf_write h a b) (a + 1)

/-- What any byte reads as after a string of bytes is written. -/
theorem read_writeBytes {m : Memory} (h : Memory.wf m = true) (a : Nat) (bs : List Byte) (i : Nat) :
    Memory.read (Memory.writeBytes m a bs) i =
      if a ≤ i ∧ i < a + bs.length then bs.getD (i - a) blankByte else Memory.read m i := by
  induction bs generalizing m a with
  | nil => rw [Memory.writeBytes, if_neg (by simp)]
  | cons b bs ih =>
    rw [Memory.writeBytes, ih (wf_write h a b), read_write h]
    simp only [List.length_cons]
    by_cases h1 : i = a
    · subst h1; simp
    · by_cases h2 : a + 1 ≤ i ∧ i < a + 1 + bs.length
      · rw [if_pos h2, if_pos (by omega)]
        obtain ⟨k, hk⟩ : ∃ k, i - a = k + 1 := ⟨i - a - 1, by omega⟩
        rw [hk, show i - (a + 1) = k by omega]
        simp
      · rw [if_neg h2, if_neg h1, if_neg (by omega)]

/-- The bytes read are the bytes at the addresses from `a` upwards. -/
theorem getElem?_readBytes (m : Memory) (a n i : Nat) :
    (Memory.readBytes m a n)[i]? = if i < n then some (Memory.read m (a + i)) else none := by
  induction n generalizing a i with
  | zero => simp [Memory.readBytes]
  | succ n ih =>
    cases i with
    | zero => simp [Memory.readBytes]
    | succ i =>
      simp only [Memory.readBytes, List.getElem?_cons_succ, ih, Nat.add_lt_add_iff_right]
      rw [show a + 1 + i = a + (i + 1) by omega]

@[simp] theorem length_readBytes (m : Memory) (a n : Nat) : (Memory.readBytes m a n).length = n := by
  induction n generalizing a with
  | zero => rfl
  | succ n ih => simp [Memory.readBytes, ih]

/-- Canonical stores that read alike are equal. -/
theorem ext_of_read {lo : Nat} {m m' : Memory} (h : Memory.wfFrom lo m = true)
    (h' : Memory.wfFrom lo m' = true) (hr : ∀ i, Memory.read m i = Memory.read m' i) : m = m' := by
  induction m generalizing lo m' with
  | nil =>
    cases m' with
    | nil => rfl
    | cons e' rest' =>
      simp only [Memory.wfFrom, Bool.and_eq_true, decide_eq_true_eq] at h'
      have := hr e'.1
      simp only [Memory.read, if_pos] at this
      exact absurd this.symm h'.1.2
  | cons e rest ih =>
    cases m' with
    | nil =>
      simp only [Memory.wfFrom, Bool.and_eq_true, decide_eq_true_eq] at h
      have := hr e.1
      simp only [Memory.read, if_pos] at this
      exact absurd this h.1.2
    | cons e' rest' =>
      simp only [Memory.wfFrom, Bool.and_eq_true, decide_eq_true_eq] at h h'
      have hk : e.1 = e'.1 := by
        rcases Nat.lt_trichotomy e.1 e'.1 with hlt | heq | hgt
        · have := hr e.1
          simp only [Memory.read, if_pos] at this
          rw [if_neg (by omega), read_below h'.2 (by omega)] at this
          exact absurd this h.1.2
        · exact heq
        · have := hr e'.1
          simp only [Memory.read, if_pos] at this
          rw [if_neg (by omega), read_below h.2 (by omega)] at this
          exact absurd this.symm h'.1.2
      have hb : e.2 = e'.2 := by
        have := hr e.1
        simpa [Memory.read, hk] using this
      have hrest : rest = rest' := by
        refine ih h.2 (hk ▸ h'.2) fun i => ?_
        by_cases hi : i ≤ e.1
        · rw [read_below h.2 (by omega), read_below (hk ▸ h'.2 : Memory.wfFrom (e.1 + 1) rest' = true)
            (by omega)]
        · have := hr i
          simp only [Memory.read] at this
          rwa [if_neg (by omega), if_neg (by omega)] at this
      rw [show e = e' from Prod.ext hk hb, hrest]

end Sys2Proof.Laws
end

