-- ==== Sys2Proof/Laws/State.lean ====
section
/-! SUPPORT. One lemma per field per shared update of the state, each true by unfolding the update, and
the views `reg`, `bufByte`, `seeded` through each update. No later proof unfolds a record update. -/

namespace Sys2Proof.Laws

open Sys2Proof Sys2Proof.Machine

/-! ## `putReg` -/

@[simp] theorem putReg_width (s : State) (r : RegIx) (v : Nat) : (s.putReg r v).width = s.width := rfl
@[simp] theorem putReg_regs (s : State) (r : RegIx) (v : Nat) : (s.putReg r v).regs = s.regs.set r.toNat v r.isLt := rfl
@[simp] theorem putReg_buf (s : State) (r : RegIx) (v : Nat) : (s.putReg r v).buf = s.buf := rfl
@[simp] theorem putReg_len (s : State) (r : RegIx) (v : Nat) : (s.putReg r v).len = s.len := rfl
@[simp] theorem putReg_kbytes (s : State) (r : RegIx) (v : Nat) : (s.putReg r v).kbytes = s.kbytes := rfl
@[simp] theorem putReg_iters (s : State) (r : RegIx) (v : Nat) : (s.putReg r v).iters = s.iters := rfl
@[simp] theorem putReg_bits (s : State) (r : RegIx) (v : Nat) : (s.putReg r v).bits = s.bits := rfl
@[simp] theorem putReg_seedLo (s : State) (r : RegIx) (v : Nat) : (s.putReg r v).seedLo = s.seedLo := rfl
@[simp] theorem putReg_seedHi (s : State) (r : RegIx) (v : Nat) : (s.putReg r v).seedHi = s.seedHi := rfl
@[simp] theorem putReg_ie (s : State) (r : RegIx) (v : Nat) : (s.putReg r v).ie = s.ie := rfl
@[simp] theorem putReg_busy (s : State) (r : RegIx) (v : Nat) : (s.putReg r v).busy = s.busy := rfl
@[simp] theorem putReg_done (s : State) (r : RegIx) (v : Nat) : (s.putReg r v).done = s.done := rfl
@[simp] theorem putReg_err (s : State) (r : RegIx) (v : Nat) : (s.putReg r v).err = s.err := rfl
@[simp] theorem putReg_tflag (s : State) (r : RegIx) (v : Nat) : (s.putReg r v).tflag = s.tflag := rfl
@[simp] theorem putReg_hosterr (s : State) (r : RegIx) (v : Nat) : (s.putReg r v).hosterr = s.hosterr := rfl
@[simp] theorem putReg_errcode (s : State) (r : RegIx) (v : Nat) : (s.putReg r v).errcode = s.errcode := rfl
@[simp] theorem putReg_errcmd (s : State) (r : RegIx) (v : Nat) : (s.putReg r v).errcmd = s.errcmd := rfl
@[simp] theorem putReg_cmdcnt (s : State) (r : RegIx) (v : Nat) : (s.putReg r v).cmdcnt = s.cmdcnt := rfl
@[simp] theorem putReg_g (s : State) (r : RegIx) (v : Nat) : (s.putReg r v).g = s.g := rfl
@[simp] theorem putReg_cmdlatch (s : State) (r : RegIx) (v : Nat) : (s.putReg r v).cmdlatch = s.cmdlatch := rfl
@[simp] theorem putReg_passes (s : State) (r : RegIx) (v : Nat) : (s.putReg r v).passes = s.passes := rfl
@[simp] theorem putReg_pending (s : State) (r : RegIx) (v : Nat) : (s.putReg r v).pending = s.pending := rfl
@[simp] theorem putReg_resp (s : State) (r : RegIx) (v : Nat) : (s.putReg r v).resp = s.resp := rfl
@[simp] theorem putReg_bufByte (s : State) (r : RegIx) (v : Nat) (i : Nat) : (s.putReg r v).bufByte i = s.bufByte i := rfl
@[simp] theorem putReg_seeded (s : State) (r : RegIx) (v : Nat) : (s.putReg r v).seeded = s.seeded := rfl

/-! ## `putT` -/

@[simp] theorem putT_width (s : State) (b : Bool) : (s.putT b).width = s.width := rfl
@[simp] theorem putT_regs (s : State) (b : Bool) : (s.putT b).regs = s.regs := rfl
@[simp] theorem putT_buf (s : State) (b : Bool) : (s.putT b).buf = s.buf := rfl
@[simp] theorem putT_len (s : State) (b : Bool) : (s.putT b).len = s.len := rfl
@[simp] theorem putT_kbytes (s : State) (b : Bool) : (s.putT b).kbytes = s.kbytes := rfl
@[simp] theorem putT_iters (s : State) (b : Bool) : (s.putT b).iters = s.iters := rfl
@[simp] theorem putT_bits (s : State) (b : Bool) : (s.putT b).bits = s.bits := rfl
@[simp] theorem putT_seedLo (s : State) (b : Bool) : (s.putT b).seedLo = s.seedLo := rfl
@[simp] theorem putT_seedHi (s : State) (b : Bool) : (s.putT b).seedHi = s.seedHi := rfl
@[simp] theorem putT_ie (s : State) (b : Bool) : (s.putT b).ie = s.ie := rfl
@[simp] theorem putT_busy (s : State) (b : Bool) : (s.putT b).busy = s.busy := rfl
@[simp] theorem putT_done (s : State) (b : Bool) : (s.putT b).done = s.done := rfl
@[simp] theorem putT_err (s : State) (b : Bool) : (s.putT b).err = s.err := rfl
@[simp] theorem putT_tflag (s : State) (b : Bool) : (s.putT b).tflag = b := rfl
@[simp] theorem putT_hosterr (s : State) (b : Bool) : (s.putT b).hosterr = s.hosterr := rfl
@[simp] theorem putT_errcode (s : State) (b : Bool) : (s.putT b).errcode = s.errcode := rfl
@[simp] theorem putT_errcmd (s : State) (b : Bool) : (s.putT b).errcmd = s.errcmd := rfl
@[simp] theorem putT_cmdcnt (s : State) (b : Bool) : (s.putT b).cmdcnt = s.cmdcnt := rfl
@[simp] theorem putT_g (s : State) (b : Bool) : (s.putT b).g = s.g := rfl
@[simp] theorem putT_cmdlatch (s : State) (b : Bool) : (s.putT b).cmdlatch = s.cmdlatch := rfl
@[simp] theorem putT_passes (s : State) (b : Bool) : (s.putT b).passes = s.passes := rfl
@[simp] theorem putT_pending (s : State) (b : Bool) : (s.putT b).pending = s.pending := rfl
@[simp] theorem putT_resp (s : State) (b : Bool) : (s.putT b).resp = s.resp := rfl
@[simp] theorem putT_reg (s : State) (b : Bool) (i : RegIx) : (s.putT b).reg i = s.reg i := rfl
@[simp] theorem putT_bufByte (s : State) (b : Bool) (i : Nat) : (s.putT b).bufByte i = s.bufByte i := rfl
@[simp] theorem putT_seeded (s : State) (b : Bool) : (s.putT b).seeded = s.seeded := rfl

/-! ## `putGen` -/

@[simp] theorem putGen_width (s : State) (v : Nat) : (s.putGen v).width = s.width := rfl
@[simp] theorem putGen_regs (s : State) (v : Nat) : (s.putGen v).regs = s.regs := rfl
@[simp] theorem putGen_buf (s : State) (v : Nat) : (s.putGen v).buf = s.buf := rfl
@[simp] theorem putGen_len (s : State) (v : Nat) : (s.putGen v).len = s.len := rfl
@[simp] theorem putGen_kbytes (s : State) (v : Nat) : (s.putGen v).kbytes = s.kbytes := rfl
@[simp] theorem putGen_iters (s : State) (v : Nat) : (s.putGen v).iters = s.iters := rfl
@[simp] theorem putGen_bits (s : State) (v : Nat) : (s.putGen v).bits = s.bits := rfl
@[simp] theorem putGen_seedLo (s : State) (v : Nat) : (s.putGen v).seedLo = s.seedLo := rfl
@[simp] theorem putGen_seedHi (s : State) (v : Nat) : (s.putGen v).seedHi = s.seedHi := rfl
@[simp] theorem putGen_ie (s : State) (v : Nat) : (s.putGen v).ie = s.ie := rfl
@[simp] theorem putGen_busy (s : State) (v : Nat) : (s.putGen v).busy = s.busy := rfl
@[simp] theorem putGen_done (s : State) (v : Nat) : (s.putGen v).done = s.done := rfl
@[simp] theorem putGen_err (s : State) (v : Nat) : (s.putGen v).err = s.err := rfl
@[simp] theorem putGen_tflag (s : State) (v : Nat) : (s.putGen v).tflag = s.tflag := rfl
@[simp] theorem putGen_hosterr (s : State) (v : Nat) : (s.putGen v).hosterr = s.hosterr := rfl
@[simp] theorem putGen_errcode (s : State) (v : Nat) : (s.putGen v).errcode = s.errcode := rfl
@[simp] theorem putGen_errcmd (s : State) (v : Nat) : (s.putGen v).errcmd = s.errcmd := rfl
@[simp] theorem putGen_cmdcnt (s : State) (v : Nat) : (s.putGen v).cmdcnt = s.cmdcnt := rfl
@[simp] theorem putGen_g (s : State) (v : Nat) : (s.putGen v).g = some v := rfl
@[simp] theorem putGen_cmdlatch (s : State) (v : Nat) : (s.putGen v).cmdlatch = s.cmdlatch := rfl
@[simp] theorem putGen_passes (s : State) (v : Nat) : (s.putGen v).passes = s.passes := rfl
@[simp] theorem putGen_pending (s : State) (v : Nat) : (s.putGen v).pending = s.pending := rfl
@[simp] theorem putGen_resp (s : State) (v : Nat) : (s.putGen v).resp = s.resp := rfl
@[simp] theorem putGen_reg (s : State) (v : Nat) (i : RegIx) : (s.putGen v).reg i = s.reg i := rfl
@[simp] theorem putGen_bufByte (s : State) (v : Nat) (i : Nat) : (s.putGen v).bufByte i = s.bufByte i := rfl

/-! ## `dropGen` -/

@[simp] theorem dropGen_width (s : State) : s.dropGen.width = s.width := rfl
@[simp] theorem dropGen_regs (s : State) : s.dropGen.regs = s.regs := rfl
@[simp] theorem dropGen_buf (s : State) : s.dropGen.buf = s.buf := rfl
@[simp] theorem dropGen_len (s : State) : s.dropGen.len = s.len := rfl
@[simp] theorem dropGen_kbytes (s : State) : s.dropGen.kbytes = s.kbytes := rfl
@[simp] theorem dropGen_iters (s : State) : s.dropGen.iters = s.iters := rfl
@[simp] theorem dropGen_bits (s : State) : s.dropGen.bits = s.bits := rfl
@[simp] theorem dropGen_seedLo (s : State) : s.dropGen.seedLo = s.seedLo := rfl
@[simp] theorem dropGen_seedHi (s : State) : s.dropGen.seedHi = s.seedHi := rfl
@[simp] theorem dropGen_ie (s : State) : s.dropGen.ie = s.ie := rfl
@[simp] theorem dropGen_busy (s : State) : s.dropGen.busy = s.busy := rfl
@[simp] theorem dropGen_done (s : State) : s.dropGen.done = s.done := rfl
@[simp] theorem dropGen_err (s : State) : s.dropGen.err = s.err := rfl
@[simp] theorem dropGen_tflag (s : State) : s.dropGen.tflag = s.tflag := rfl
@[simp] theorem dropGen_hosterr (s : State) : s.dropGen.hosterr = s.hosterr := rfl
@[simp] theorem dropGen_errcode (s : State) : s.dropGen.errcode = s.errcode := rfl
@[simp] theorem dropGen_errcmd (s : State) : s.dropGen.errcmd = s.errcmd := rfl
@[simp] theorem dropGen_cmdcnt (s : State) : s.dropGen.cmdcnt = s.cmdcnt := rfl
@[simp] theorem dropGen_g (s : State) : s.dropGen.g = none := rfl
@[simp] theorem dropGen_cmdlatch (s : State) : s.dropGen.cmdlatch = s.cmdlatch := rfl
@[simp] theorem dropGen_passes (s : State) : s.dropGen.passes = s.passes := rfl
@[simp] theorem dropGen_pending (s : State) : s.dropGen.pending = s.pending := rfl
@[simp] theorem dropGen_resp (s : State) : s.dropGen.resp = s.resp := rfl
@[simp] theorem dropGen_reg (s : State) (i : RegIx) : s.dropGen.reg i = s.reg i := rfl
@[simp] theorem dropGen_bufByte (s : State) (i : Nat) : s.dropGen.bufByte i = s.bufByte i := rfl

/-! ## `goOn` -/

@[simp] theorem goOn_width (s : State) : s.goOn.width = s.width := rfl
@[simp] theorem goOn_regs (s : State) : s.goOn.regs = s.regs := rfl
@[simp] theorem goOn_buf (s : State) : s.goOn.buf = s.buf := rfl
@[simp] theorem goOn_len (s : State) : s.goOn.len = s.len := rfl
@[simp] theorem goOn_kbytes (s : State) : s.goOn.kbytes = s.kbytes := rfl
@[simp] theorem goOn_iters (s : State) : s.goOn.iters = s.iters := rfl
@[simp] theorem goOn_bits (s : State) : s.goOn.bits = s.bits := rfl
@[simp] theorem goOn_seedLo (s : State) : s.goOn.seedLo = s.seedLo := rfl
@[simp] theorem goOn_seedHi (s : State) : s.goOn.seedHi = s.seedHi := rfl
@[simp] theorem goOn_ie (s : State) : s.goOn.ie = s.ie := rfl
@[simp] theorem goOn_busy (s : State) : s.goOn.busy = s.busy := rfl
@[simp] theorem goOn_done (s : State) : s.goOn.done = s.done := rfl
@[simp] theorem goOn_err (s : State) : s.goOn.err = s.err := rfl
@[simp] theorem goOn_tflag (s : State) : s.goOn.tflag = s.tflag := rfl
@[simp] theorem goOn_hosterr (s : State) : s.goOn.hosterr = s.hosterr := rfl
@[simp] theorem goOn_errcode (s : State) : s.goOn.errcode = s.errcode := rfl
@[simp] theorem goOn_errcmd (s : State) : s.goOn.errcmd = s.errcmd := rfl
@[simp] theorem goOn_cmdcnt (s : State) : s.goOn.cmdcnt = s.cmdcnt := rfl
@[simp] theorem goOn_g (s : State) : s.goOn.g = s.g := rfl
@[simp] theorem goOn_cmdlatch (s : State) : s.goOn.cmdlatch = s.cmdlatch := rfl
@[simp] theorem goOn_passes (s : State) : s.goOn.passes = s.passes + 1 := rfl
@[simp] theorem goOn_pending (s : State) : s.goOn.pending = s.pending := rfl
@[simp] theorem goOn_resp (s : State) : s.goOn.resp = s.resp := rfl
@[simp] theorem goOn_reg (s : State) (i : RegIx) : s.goOn.reg i = s.reg i := rfl
@[simp] theorem goOn_bufByte (s : State) (i : Nat) : s.goOn.bufByte i = s.bufByte i := rfl
@[simp] theorem goOn_seeded (s : State) : s.goOn.seeded = s.seeded := rfl

/-! ## `putBufBytes` -/

@[simp] theorem putBufBytes_width (s : State) (bs : List Byte) : (s.putBufBytes bs).width = s.width := rfl
@[simp] theorem putBufBytes_regs (s : State) (bs : List Byte) : (s.putBufBytes bs).regs = s.regs := rfl
@[simp] theorem putBufBytes_buf (s : State) (bs : List Byte) : (s.putBufBytes bs).buf = Memory.writeBytes s.buf 0 bs := rfl
@[simp] theorem putBufBytes_len (s : State) (bs : List Byte) : (s.putBufBytes bs).len = s.len := rfl
@[simp] theorem putBufBytes_kbytes (s : State) (bs : List Byte) : (s.putBufBytes bs).kbytes = s.kbytes := rfl
@[simp] theorem putBufBytes_iters (s : State) (bs : List Byte) : (s.putBufBytes bs).iters = s.iters := rfl
@[simp] theorem putBufBytes_bits (s : State) (bs : List Byte) : (s.putBufBytes bs).bits = s.bits := rfl
@[simp] theorem putBufBytes_seedLo (s : State) (bs : List Byte) : (s.putBufBytes bs).seedLo = s.seedLo := rfl
@[simp] theorem putBufBytes_seedHi (s : State) (bs : List Byte) : (s.putBufBytes bs).seedHi = s.seedHi := rfl
@[simp] theorem putBufBytes_ie (s : State) (bs : List Byte) : (s.putBufBytes bs).ie = s.ie := rfl
@[simp] theorem putBufBytes_busy (s : State) (bs : List Byte) : (s.putBufBytes bs).busy = s.busy := rfl
@[simp] theorem putBufBytes_done (s : State) (bs : List Byte) : (s.putBufBytes bs).done = s.done := rfl
@[simp] theorem putBufBytes_err (s : State) (bs : List Byte) : (s.putBufBytes bs).err = s.err := rfl
@[simp] theorem putBufBytes_tflag (s : State) (bs : List Byte) : (s.putBufBytes bs).tflag = s.tflag := rfl
@[simp] theorem putBufBytes_hosterr (s : State) (bs : List Byte) : (s.putBufBytes bs).hosterr = s.hosterr := rfl
@[simp] theorem putBufBytes_errcode (s : State) (bs : List Byte) : (s.putBufBytes bs).errcode = s.errcode := rfl
@[simp] theorem putBufBytes_errcmd (s : State) (bs : List Byte) : (s.putBufBytes bs).errcmd = s.errcmd := rfl
@[simp] theorem putBufBytes_cmdcnt (s : State) (bs : List Byte) : (s.putBufBytes bs).cmdcnt = s.cmdcnt := rfl
@[simp] theorem putBufBytes_g (s : State) (bs : List Byte) : (s.putBufBytes bs).g = s.g := rfl
@[simp] theorem putBufBytes_cmdlatch (s : State) (bs : List Byte) : (s.putBufBytes bs).cmdlatch = s.cmdlatch := rfl
@[simp] theorem putBufBytes_passes (s : State) (bs : List Byte) : (s.putBufBytes bs).passes = s.passes := rfl
@[simp] theorem putBufBytes_pending (s : State) (bs : List Byte) : (s.putBufBytes bs).pending = s.pending := rfl
@[simp] theorem putBufBytes_resp (s : State) (bs : List Byte) : (s.putBufBytes bs).resp = s.resp := rfl
@[simp] theorem putBufBytes_reg (s : State) (bs : List Byte) (i : RegIx) : (s.putBufBytes bs).reg i = s.reg i := rfl
@[simp] theorem putBufBytes_seeded (s : State) (bs : List Byte) : (s.putBufBytes bs).seeded = s.seeded := rfl

/-! ## `putBufWord` -/

@[simp] theorem putBufWord_width (s : State) (j : Nat) (v : Word) : (s.putBufWord j v).width = s.width := rfl
@[simp] theorem putBufWord_regs (s : State) (j : Nat) (v : Word) : (s.putBufWord j v).regs = s.regs := rfl
@[simp] theorem putBufWord_buf (s : State) (j : Nat) (v : Word) : (s.putBufWord j v).buf = Memory.writeBytes s.buf (4 * j) (laneBytes v) := rfl
@[simp] theorem putBufWord_len (s : State) (j : Nat) (v : Word) : (s.putBufWord j v).len = s.len := rfl
@[simp] theorem putBufWord_kbytes (s : State) (j : Nat) (v : Word) : (s.putBufWord j v).kbytes = s.kbytes := rfl
@[simp] theorem putBufWord_iters (s : State) (j : Nat) (v : Word) : (s.putBufWord j v).iters = s.iters := rfl
@[simp] theorem putBufWord_bits (s : State) (j : Nat) (v : Word) : (s.putBufWord j v).bits = s.bits := rfl
@[simp] theorem putBufWord_seedLo (s : State) (j : Nat) (v : Word) : (s.putBufWord j v).seedLo = s.seedLo := rfl
@[simp] theorem putBufWord_seedHi (s : State) (j : Nat) (v : Word) : (s.putBufWord j v).seedHi = s.seedHi := rfl
@[simp] theorem putBufWord_ie (s : State) (j : Nat) (v : Word) : (s.putBufWord j v).ie = s.ie := rfl
@[simp] theorem putBufWord_busy (s : State) (j : Nat) (v : Word) : (s.putBufWord j v).busy = s.busy := rfl
@[simp] theorem putBufWord_done (s : State) (j : Nat) (v : Word) : (s.putBufWord j v).done = s.done := rfl
@[simp] theorem putBufWord_err (s : State) (j : Nat) (v : Word) : (s.putBufWord j v).err = s.err := rfl
@[simp] theorem putBufWord_tflag (s : State) (j : Nat) (v : Word) : (s.putBufWord j v).tflag = s.tflag := rfl
@[simp] theorem putBufWord_hosterr (s : State) (j : Nat) (v : Word) : (s.putBufWord j v).hosterr = s.hosterr := rfl
@[simp] theorem putBufWord_errcode (s : State) (j : Nat) (v : Word) : (s.putBufWord j v).errcode = s.errcode := rfl
@[simp] theorem putBufWord_errcmd (s : State) (j : Nat) (v : Word) : (s.putBufWord j v).errcmd = s.errcmd := rfl
@[simp] theorem putBufWord_cmdcnt (s : State) (j : Nat) (v : Word) : (s.putBufWord j v).cmdcnt = s.cmdcnt := rfl
@[simp] theorem putBufWord_g (s : State) (j : Nat) (v : Word) : (s.putBufWord j v).g = s.g := rfl
@[simp] theorem putBufWord_cmdlatch (s : State) (j : Nat) (v : Word) : (s.putBufWord j v).cmdlatch = s.cmdlatch := rfl
@[simp] theorem putBufWord_passes (s : State) (j : Nat) (v : Word) : (s.putBufWord j v).passes = s.passes := rfl
@[simp] theorem putBufWord_pending (s : State) (j : Nat) (v : Word) : (s.putBufWord j v).pending = s.pending := rfl
@[simp] theorem putBufWord_resp (s : State) (j : Nat) (v : Word) : (s.putBufWord j v).resp = s.resp := rfl
@[simp] theorem putBufWord_reg (s : State) (j : Nat) (v : Word) (i : RegIx) : (s.putBufWord j v).reg i = s.reg i := rfl
@[simp] theorem putBufWord_seeded (s : State) (j : Nat) (v : Word) : (s.putBufWord j v).seeded = s.seeded := rfl

/-! ## `putLen` -/

@[simp] theorem putLen_width (s : State) (n : Nat) : (s.putLen n).width = s.width := rfl
@[simp] theorem putLen_regs (s : State) (n : Nat) : (s.putLen n).regs = s.regs := rfl
@[simp] theorem putLen_buf (s : State) (n : Nat) : (s.putLen n).buf = s.buf := rfl
@[simp] theorem putLen_len (s : State) (n : Nat) : (s.putLen n).len = BitVec.ofNat 32 n := rfl
@[simp] theorem putLen_kbytes (s : State) (n : Nat) : (s.putLen n).kbytes = s.kbytes := rfl
@[simp] theorem putLen_iters (s : State) (n : Nat) : (s.putLen n).iters = s.iters := rfl
@[simp] theorem putLen_bits (s : State) (n : Nat) : (s.putLen n).bits = s.bits := rfl
@[simp] theorem putLen_seedLo (s : State) (n : Nat) : (s.putLen n).seedLo = s.seedLo := rfl
@[simp] theorem putLen_seedHi (s : State) (n : Nat) : (s.putLen n).seedHi = s.seedHi := rfl
@[simp] theorem putLen_ie (s : State) (n : Nat) : (s.putLen n).ie = s.ie := rfl
@[simp] theorem putLen_busy (s : State) (n : Nat) : (s.putLen n).busy = s.busy := rfl
@[simp] theorem putLen_done (s : State) (n : Nat) : (s.putLen n).done = s.done := rfl
@[simp] theorem putLen_err (s : State) (n : Nat) : (s.putLen n).err = s.err := rfl
@[simp] theorem putLen_tflag (s : State) (n : Nat) : (s.putLen n).tflag = s.tflag := rfl
@[simp] theorem putLen_hosterr (s : State) (n : Nat) : (s.putLen n).hosterr = s.hosterr := rfl
@[simp] theorem putLen_errcode (s : State) (n : Nat) : (s.putLen n).errcode = s.errcode := rfl
@[simp] theorem putLen_errcmd (s : State) (n : Nat) : (s.putLen n).errcmd = s.errcmd := rfl
@[simp] theorem putLen_cmdcnt (s : State) (n : Nat) : (s.putLen n).cmdcnt = s.cmdcnt := rfl
@[simp] theorem putLen_g (s : State) (n : Nat) : (s.putLen n).g = s.g := rfl
@[simp] theorem putLen_cmdlatch (s : State) (n : Nat) : (s.putLen n).cmdlatch = s.cmdlatch := rfl
@[simp] theorem putLen_passes (s : State) (n : Nat) : (s.putLen n).passes = s.passes := rfl
@[simp] theorem putLen_pending (s : State) (n : Nat) : (s.putLen n).pending = s.pending := rfl
@[simp] theorem putLen_resp (s : State) (n : Nat) : (s.putLen n).resp = s.resp := rfl
@[simp] theorem putLen_reg (s : State) (n : Nat) (i : RegIx) : (s.putLen n).reg i = s.reg i := rfl
@[simp] theorem putLen_bufByte (s : State) (n : Nat) (i : Nat) : (s.putLen n).bufByte i = s.bufByte i := rfl
@[simp] theorem putLen_seeded (s : State) (n : Nat) : (s.putLen n).seeded = s.seeded := rfl

/-! ## `putKbytes` -/

@[simp] theorem putKbytes_width (s : State) (k : Nat) : (s.putKbytes k).width = s.width := rfl
@[simp] theorem putKbytes_regs (s : State) (k : Nat) : (s.putKbytes k).regs = s.regs := rfl
@[simp] theorem putKbytes_buf (s : State) (k : Nat) : (s.putKbytes k).buf = s.buf := rfl
@[simp] theorem putKbytes_len (s : State) (k : Nat) : (s.putKbytes k).len = s.len := rfl
@[simp] theorem putKbytes_kbytes (s : State) (k : Nat) : (s.putKbytes k).kbytes = BitVec.ofNat 32 k := rfl
@[simp] theorem putKbytes_iters (s : State) (k : Nat) : (s.putKbytes k).iters = s.iters := rfl
@[simp] theorem putKbytes_bits (s : State) (k : Nat) : (s.putKbytes k).bits = s.bits := rfl
@[simp] theorem putKbytes_seedLo (s : State) (k : Nat) : (s.putKbytes k).seedLo = s.seedLo := rfl
@[simp] theorem putKbytes_seedHi (s : State) (k : Nat) : (s.putKbytes k).seedHi = s.seedHi := rfl
@[simp] theorem putKbytes_ie (s : State) (k : Nat) : (s.putKbytes k).ie = s.ie := rfl
@[simp] theorem putKbytes_busy (s : State) (k : Nat) : (s.putKbytes k).busy = s.busy := rfl
@[simp] theorem putKbytes_done (s : State) (k : Nat) : (s.putKbytes k).done = s.done := rfl
@[simp] theorem putKbytes_err (s : State) (k : Nat) : (s.putKbytes k).err = s.err := rfl
@[simp] theorem putKbytes_tflag (s : State) (k : Nat) : (s.putKbytes k).tflag = s.tflag := rfl
@[simp] theorem putKbytes_hosterr (s : State) (k : Nat) : (s.putKbytes k).hosterr = s.hosterr := rfl
@[simp] theorem putKbytes_errcode (s : State) (k : Nat) : (s.putKbytes k).errcode = s.errcode := rfl
@[simp] theorem putKbytes_errcmd (s : State) (k : Nat) : (s.putKbytes k).errcmd = s.errcmd := rfl
@[simp] theorem putKbytes_cmdcnt (s : State) (k : Nat) : (s.putKbytes k).cmdcnt = s.cmdcnt := rfl
@[simp] theorem putKbytes_g (s : State) (k : Nat) : (s.putKbytes k).g = s.g := rfl
@[simp] theorem putKbytes_cmdlatch (s : State) (k : Nat) : (s.putKbytes k).cmdlatch = s.cmdlatch := rfl
@[simp] theorem putKbytes_passes (s : State) (k : Nat) : (s.putKbytes k).passes = s.passes := rfl
@[simp] theorem putKbytes_pending (s : State) (k : Nat) : (s.putKbytes k).pending = s.pending := rfl
@[simp] theorem putKbytes_resp (s : State) (k : Nat) : (s.putKbytes k).resp = s.resp := rfl
@[simp] theorem putKbytes_reg (s : State) (k : Nat) (i : RegIx) : (s.putKbytes k).reg i = s.reg i := rfl
@[simp] theorem putKbytes_bufByte (s : State) (k : Nat) (i : Nat) : (s.putKbytes k).bufByte i = s.bufByte i := rfl
@[simp] theorem putKbytes_seeded (s : State) (k : Nat) : (s.putKbytes k).seeded = s.seeded := rfl

/-! ## `wipe` -/

@[simp] theorem wipe_width (s : State) : s.wipe.width = s.width := rfl
@[simp] theorem wipe_regs (s : State) : s.wipe.regs = Vector.replicate 16 0 := rfl
@[simp] theorem wipe_buf (s : State) : s.wipe.buf = [] := rfl
@[simp] theorem wipe_len (s : State) : s.wipe.len = 0 := rfl
@[simp] theorem wipe_kbytes (s : State) : s.wipe.kbytes = 0 := rfl
@[simp] theorem wipe_iters (s : State) : s.wipe.iters = s.iters := rfl
@[simp] theorem wipe_bits (s : State) : s.wipe.bits = s.bits := rfl
@[simp] theorem wipe_seedLo (s : State) : s.wipe.seedLo = 0 := rfl
@[simp] theorem wipe_seedHi (s : State) : s.wipe.seedHi = 0 := rfl
@[simp] theorem wipe_ie (s : State) : s.wipe.ie = s.ie := rfl
@[simp] theorem wipe_busy (s : State) : s.wipe.busy = s.busy := rfl
@[simp] theorem wipe_done (s : State) : s.wipe.done = s.done := rfl
@[simp] theorem wipe_err (s : State) : s.wipe.err = s.err := rfl
@[simp] theorem wipe_tflag (s : State) : s.wipe.tflag = false := rfl
@[simp] theorem wipe_hosterr (s : State) : s.wipe.hosterr = s.hosterr := rfl
@[simp] theorem wipe_errcode (s : State) : s.wipe.errcode = s.errcode := rfl
@[simp] theorem wipe_errcmd (s : State) : s.wipe.errcmd = s.errcmd := rfl
@[simp] theorem wipe_cmdcnt (s : State) : s.wipe.cmdcnt = s.cmdcnt := rfl
@[simp] theorem wipe_g (s : State) : s.wipe.g = none := rfl
@[simp] theorem wipe_cmdlatch (s : State) : s.wipe.cmdlatch = s.cmdlatch := rfl
@[simp] theorem wipe_passes (s : State) : s.wipe.passes = s.passes := rfl
@[simp] theorem wipe_pending (s : State) : s.wipe.pending = s.pending := rfl
@[simp] theorem wipe_resp (s : State) : s.wipe.resp = s.resp := rfl

/-! ## `issue` -/

@[simp] theorem issue_width (s : State) (v : Word) : (s.issue v).width = s.width := rfl
@[simp] theorem issue_regs (s : State) (v : Word) : (s.issue v).regs = s.regs := rfl
@[simp] theorem issue_buf (s : State) (v : Word) : (s.issue v).buf = s.buf := rfl
@[simp] theorem issue_len (s : State) (v : Word) : (s.issue v).len = s.len := rfl
@[simp] theorem issue_kbytes (s : State) (v : Word) : (s.issue v).kbytes = s.kbytes := rfl
@[simp] theorem issue_iters (s : State) (v : Word) : (s.issue v).iters = s.iters := rfl
@[simp] theorem issue_bits (s : State) (v : Word) : (s.issue v).bits = s.bits := rfl
@[simp] theorem issue_seedLo (s : State) (v : Word) : (s.issue v).seedLo = s.seedLo := rfl
@[simp] theorem issue_seedHi (s : State) (v : Word) : (s.issue v).seedHi = s.seedHi := rfl
@[simp] theorem issue_ie (s : State) (v : Word) : (s.issue v).ie = s.ie := rfl
@[simp] theorem issue_busy (s : State) (v : Word) : (s.issue v).busy = true := rfl
@[simp] theorem issue_done (s : State) (v : Word) : (s.issue v).done = false := rfl
@[simp] theorem issue_err (s : State) (v : Word) : (s.issue v).err = false := rfl
@[simp] theorem issue_tflag (s : State) (v : Word) : (s.issue v).tflag = s.tflag := rfl
@[simp] theorem issue_hosterr (s : State) (v : Word) : (s.issue v).hosterr = s.hosterr := rfl
@[simp] theorem issue_errcode (s : State) (v : Word) : (s.issue v).errcode = s.errcode := rfl
@[simp] theorem issue_errcmd (s : State) (v : Word) : (s.issue v).errcmd = s.errcmd := rfl
@[simp] theorem issue_cmdcnt (s : State) (v : Word) : (s.issue v).cmdcnt = s.cmdcnt := rfl
@[simp] theorem issue_g (s : State) (v : Word) : (s.issue v).g = s.g := rfl
@[simp] theorem issue_cmdlatch (s : State) (v : Word) : (s.issue v).cmdlatch = v := rfl
@[simp] theorem issue_passes (s : State) (v : Word) : (s.issue v).passes = 0 := rfl
@[simp] theorem issue_pending (s : State) (v : Word) : (s.issue v).pending = s.pending := rfl
@[simp] theorem issue_resp (s : State) (v : Word) : (s.issue v).resp = s.resp := rfl
@[simp] theorem issue_reg (s : State) (v : Word) (i : RegIx) : (s.issue v).reg i = s.reg i := rfl
@[simp] theorem issue_bufByte (s : State) (v : Word) (i : Nat) : (s.issue v).bufByte i = s.bufByte i := rfl
@[simp] theorem issue_seeded (s : State) (v : Word) : (s.issue v).seeded = s.seeded := rfl

/-! ## `complete` -/

@[simp] theorem complete_width (s : State) : s.complete.width = s.width := rfl
@[simp] theorem complete_regs (s : State) : s.complete.regs = s.regs := rfl
@[simp] theorem complete_buf (s : State) : s.complete.buf = s.buf := rfl
@[simp] theorem complete_len (s : State) : s.complete.len = s.len := rfl
@[simp] theorem complete_kbytes (s : State) : s.complete.kbytes = s.kbytes := rfl
@[simp] theorem complete_iters (s : State) : s.complete.iters = s.iters := rfl
@[simp] theorem complete_bits (s : State) : s.complete.bits = s.bits := rfl
@[simp] theorem complete_seedLo (s : State) : s.complete.seedLo = s.seedLo := rfl
@[simp] theorem complete_seedHi (s : State) : s.complete.seedHi = s.seedHi := rfl
@[simp] theorem complete_ie (s : State) : s.complete.ie = s.ie := rfl
@[simp] theorem complete_busy (s : State) : s.complete.busy = false := rfl
@[simp] theorem complete_done (s : State) : s.complete.done = true := rfl
@[simp] theorem complete_err (s : State) : s.complete.err = false := rfl
@[simp] theorem complete_tflag (s : State) : s.complete.tflag = s.tflag := rfl
@[simp] theorem complete_hosterr (s : State) : s.complete.hosterr = s.hosterr := rfl
@[simp] theorem complete_errcode (s : State) : s.complete.errcode = .none := rfl
@[simp] theorem complete_errcmd (s : State) : s.complete.errcmd = s.errcmd := rfl
@[simp] theorem complete_cmdcnt (s : State) : s.complete.cmdcnt = s.cmdcnt + 1 := rfl
@[simp] theorem complete_g (s : State) : s.complete.g = s.g := rfl
@[simp] theorem complete_cmdlatch (s : State) : s.complete.cmdlatch = s.cmdlatch := rfl
@[simp] theorem complete_passes (s : State) : s.complete.passes = 0 := rfl
@[simp] theorem complete_pending (s : State) : s.complete.pending = s.pending := rfl
@[simp] theorem complete_resp (s : State) : s.complete.resp = s.resp := rfl
@[simp] theorem complete_reg (s : State) (i : RegIx) : s.complete.reg i = s.reg i := rfl
@[simp] theorem complete_bufByte (s : State) (i : Nat) : s.complete.bufByte i = s.bufByte i := rfl
@[simp] theorem complete_seeded (s : State) : s.complete.seeded = s.seeded := rfl

/-! ## `failWith` -/

@[simp] theorem failWith_width (s : State) (c : ErrCode) : (s.failWith c).width = s.width := rfl
@[simp] theorem failWith_regs (s : State) (c : ErrCode) : (s.failWith c).regs = s.regs := rfl
@[simp] theorem failWith_buf (s : State) (c : ErrCode) : (s.failWith c).buf = s.buf := rfl
@[simp] theorem failWith_len (s : State) (c : ErrCode) : (s.failWith c).len = s.len := rfl
@[simp] theorem failWith_kbytes (s : State) (c : ErrCode) : (s.failWith c).kbytes = s.kbytes := rfl
@[simp] theorem failWith_iters (s : State) (c : ErrCode) : (s.failWith c).iters = s.iters := rfl
@[simp] theorem failWith_bits (s : State) (c : ErrCode) : (s.failWith c).bits = s.bits := rfl
@[simp] theorem failWith_seedLo (s : State) (c : ErrCode) : (s.failWith c).seedLo = s.seedLo := rfl
@[simp] theorem failWith_seedHi (s : State) (c : ErrCode) : (s.failWith c).seedHi = s.seedHi := rfl
@[simp] theorem failWith_ie (s : State) (c : ErrCode) : (s.failWith c).ie = s.ie := rfl
@[simp] theorem failWith_busy (s : State) (c : ErrCode) : (s.failWith c).busy = false := rfl
@[simp] theorem failWith_done (s : State) (c : ErrCode) : (s.failWith c).done = true := rfl
@[simp] theorem failWith_err (s : State) (c : ErrCode) : (s.failWith c).err = true := rfl
@[simp] theorem failWith_tflag (s : State) (c : ErrCode) : (s.failWith c).tflag = s.tflag := rfl
@[simp] theorem failWith_hosterr (s : State) (c : ErrCode) : (s.failWith c).hosterr = s.hosterr := rfl
@[simp] theorem failWith_errcode (s : State) (c : ErrCode) : (s.failWith c).errcode = c := rfl
@[simp] theorem failWith_errcmd (s : State) (c : ErrCode) : (s.failWith c).errcmd = s.cmdlatch := rfl
@[simp] theorem failWith_cmdcnt (s : State) (c : ErrCode) : (s.failWith c).cmdcnt = s.cmdcnt + 1 := rfl
@[simp] theorem failWith_g (s : State) (c : ErrCode) : (s.failWith c).g = s.g := rfl
@[simp] theorem failWith_cmdlatch (s : State) (c : ErrCode) : (s.failWith c).cmdlatch = s.cmdlatch := rfl
@[simp] theorem failWith_passes (s : State) (c : ErrCode) : (s.failWith c).passes = 0 := rfl
@[simp] theorem failWith_pending (s : State) (c : ErrCode) : (s.failWith c).pending = s.pending := rfl
@[simp] theorem failWith_resp (s : State) (c : ErrCode) : (s.failWith c).resp = s.resp := rfl
@[simp] theorem failWith_reg (s : State) (c : ErrCode) (i : RegIx) : (s.failWith c).reg i = s.reg i := rfl
@[simp] theorem failWith_bufByte (s : State) (c : ErrCode) (i : Nat) : (s.failWith c).bufByte i = s.bufByte i := rfl
@[simp] theorem failWith_seeded (s : State) (c : ErrCode) : (s.failWith c).seeded = s.seeded := rfl

/-! ## `acknowledge` -/

@[simp] theorem acknowledge_width (s : State) : s.acknowledge.width = s.width := rfl
@[simp] theorem acknowledge_regs (s : State) : s.acknowledge.regs = s.regs := rfl
@[simp] theorem acknowledge_buf (s : State) : s.acknowledge.buf = s.buf := rfl
@[simp] theorem acknowledge_len (s : State) : s.acknowledge.len = s.len := rfl
@[simp] theorem acknowledge_kbytes (s : State) : s.acknowledge.kbytes = s.kbytes := rfl
@[simp] theorem acknowledge_iters (s : State) : s.acknowledge.iters = s.iters := rfl
@[simp] theorem acknowledge_bits (s : State) : s.acknowledge.bits = s.bits := rfl
@[simp] theorem acknowledge_seedLo (s : State) : s.acknowledge.seedLo = s.seedLo := rfl
@[simp] theorem acknowledge_seedHi (s : State) : s.acknowledge.seedHi = s.seedHi := rfl
@[simp] theorem acknowledge_ie (s : State) : s.acknowledge.ie = s.ie := rfl
@[simp] theorem acknowledge_busy (s : State) : s.acknowledge.busy = s.busy := rfl
@[simp] theorem acknowledge_done (s : State) : s.acknowledge.done = false := rfl
@[simp] theorem acknowledge_err (s : State) : s.acknowledge.err = s.err := rfl
@[simp] theorem acknowledge_tflag (s : State) : s.acknowledge.tflag = s.tflag := rfl
@[simp] theorem acknowledge_hosterr (s : State) : s.acknowledge.hosterr = false := rfl
@[simp] theorem acknowledge_errcode (s : State) : s.acknowledge.errcode = s.errcode := rfl
@[simp] theorem acknowledge_errcmd (s : State) : s.acknowledge.errcmd = s.errcmd := rfl
@[simp] theorem acknowledge_cmdcnt (s : State) : s.acknowledge.cmdcnt = s.cmdcnt := rfl
@[simp] theorem acknowledge_g (s : State) : s.acknowledge.g = s.g := rfl
@[simp] theorem acknowledge_cmdlatch (s : State) : s.acknowledge.cmdlatch = s.cmdlatch := rfl
@[simp] theorem acknowledge_passes (s : State) : s.acknowledge.passes = s.passes := rfl
@[simp] theorem acknowledge_pending (s : State) : s.acknowledge.pending = s.pending := rfl
@[simp] theorem acknowledge_resp (s : State) : s.acknowledge.resp = s.resp := rfl
@[simp] theorem acknowledge_reg (s : State) (i : RegIx) : s.acknowledge.reg i = s.reg i := rfl
@[simp] theorem acknowledge_bufByte (s : State) (i : Nat) : s.acknowledge.bufByte i = s.bufByte i := rfl
@[simp] theorem acknowledge_seeded (s : State) : s.acknowledge.seeded = s.seeded := rfl

/-! ## `refuse` -/

@[simp] theorem refuse_width (s : State) : s.refuse.width = s.width := rfl
@[simp] theorem refuse_regs (s : State) : s.refuse.regs = s.regs := rfl
@[simp] theorem refuse_buf (s : State) : s.refuse.buf = s.buf := rfl
@[simp] theorem refuse_len (s : State) : s.refuse.len = s.len := rfl
@[simp] theorem refuse_kbytes (s : State) : s.refuse.kbytes = s.kbytes := rfl
@[simp] theorem refuse_iters (s : State) : s.refuse.iters = s.iters := rfl
@[simp] theorem refuse_bits (s : State) : s.refuse.bits = s.bits := rfl
@[simp] theorem refuse_seedLo (s : State) : s.refuse.seedLo = s.seedLo := rfl
@[simp] theorem refuse_seedHi (s : State) : s.refuse.seedHi = s.seedHi := rfl
@[simp] theorem refuse_ie (s : State) : s.refuse.ie = s.ie := rfl
@[simp] theorem refuse_busy (s : State) : s.refuse.busy = s.busy := rfl
@[simp] theorem refuse_done (s : State) : s.refuse.done = s.done := rfl
@[simp] theorem refuse_err (s : State) : s.refuse.err = s.err := rfl
@[simp] theorem refuse_tflag (s : State) : s.refuse.tflag = s.tflag := rfl
@[simp] theorem refuse_hosterr (s : State) : s.refuse.hosterr = true := rfl
@[simp] theorem refuse_errcode (s : State) : s.refuse.errcode = s.errcode := rfl
@[simp] theorem refuse_errcmd (s : State) : s.refuse.errcmd = s.errcmd := rfl
@[simp] theorem refuse_cmdcnt (s : State) : s.refuse.cmdcnt = s.cmdcnt := rfl
@[simp] theorem refuse_g (s : State) : s.refuse.g = s.g := rfl
@[simp] theorem refuse_cmdlatch (s : State) : s.refuse.cmdlatch = s.cmdlatch := rfl
@[simp] theorem refuse_passes (s : State) : s.refuse.passes = s.passes := rfl
@[simp] theorem refuse_pending (s : State) : s.refuse.pending = s.pending := rfl
@[simp] theorem refuse_resp (s : State) : s.refuse.resp = s.resp := rfl
@[simp] theorem refuse_reg (s : State) (i : RegIx) : s.refuse.reg i = s.reg i := rfl
@[simp] theorem refuse_bufByte (s : State) (i : Nat) : s.refuse.bufByte i = s.bufByte i := rfl
@[simp] theorem refuse_seeded (s : State) : s.refuse.seeded = s.seeded := rfl

/-! ## `answer` -/

@[simp] theorem answer_width (s : State) (a : Response) : (s.answer a).width = s.width := rfl
@[simp] theorem answer_regs (s : State) (a : Response) : (s.answer a).regs = s.regs := rfl
@[simp] theorem answer_buf (s : State) (a : Response) : (s.answer a).buf = s.buf := rfl
@[simp] theorem answer_len (s : State) (a : Response) : (s.answer a).len = s.len := rfl
@[simp] theorem answer_kbytes (s : State) (a : Response) : (s.answer a).kbytes = s.kbytes := rfl
@[simp] theorem answer_iters (s : State) (a : Response) : (s.answer a).iters = s.iters := rfl
@[simp] theorem answer_bits (s : State) (a : Response) : (s.answer a).bits = s.bits := rfl
@[simp] theorem answer_seedLo (s : State) (a : Response) : (s.answer a).seedLo = s.seedLo := rfl
@[simp] theorem answer_seedHi (s : State) (a : Response) : (s.answer a).seedHi = s.seedHi := rfl
@[simp] theorem answer_ie (s : State) (a : Response) : (s.answer a).ie = s.ie := rfl
@[simp] theorem answer_busy (s : State) (a : Response) : (s.answer a).busy = s.busy := rfl
@[simp] theorem answer_done (s : State) (a : Response) : (s.answer a).done = s.done := rfl
@[simp] theorem answer_err (s : State) (a : Response) : (s.answer a).err = s.err := rfl
@[simp] theorem answer_tflag (s : State) (a : Response) : (s.answer a).tflag = s.tflag := rfl
@[simp] theorem answer_hosterr (s : State) (a : Response) : (s.answer a).hosterr = s.hosterr := rfl
@[simp] theorem answer_errcode (s : State) (a : Response) : (s.answer a).errcode = s.errcode := rfl
@[simp] theorem answer_errcmd (s : State) (a : Response) : (s.answer a).errcmd = s.errcmd := rfl
@[simp] theorem answer_cmdcnt (s : State) (a : Response) : (s.answer a).cmdcnt = s.cmdcnt := rfl
@[simp] theorem answer_g (s : State) (a : Response) : (s.answer a).g = s.g := rfl
@[simp] theorem answer_cmdlatch (s : State) (a : Response) : (s.answer a).cmdlatch = s.cmdlatch := rfl
@[simp] theorem answer_passes (s : State) (a : Response) : (s.answer a).passes = s.passes := rfl
@[simp] theorem answer_pending (s : State) (a : Response) : (s.answer a).pending = s.pending := rfl
@[simp] theorem answer_resp (s : State) (a : Response) : (s.answer a).resp = a := rfl
@[simp] theorem answer_reg (s : State) (a : Response) (i : RegIx) : (s.answer a).reg i = s.reg i := rfl
@[simp] theorem answer_bufByte (s : State) (a : Response) (i : Nat) : (s.answer a).bufByte i = s.bufByte i := rfl
@[simp] theorem answer_seeded (s : State) (a : Response) : (s.answer a).seeded = s.seeded := rfl

/-! ## `takeEvent` -/

@[simp] theorem takeEvent_width (s : State) (es : List Event) : (s.takeEvent es).width = s.width := rfl
@[simp] theorem takeEvent_regs (s : State) (es : List Event) : (s.takeEvent es).regs = s.regs := rfl
@[simp] theorem takeEvent_buf (s : State) (es : List Event) : (s.takeEvent es).buf = s.buf := rfl
@[simp] theorem takeEvent_len (s : State) (es : List Event) : (s.takeEvent es).len = s.len := rfl
@[simp] theorem takeEvent_kbytes (s : State) (es : List Event) : (s.takeEvent es).kbytes = s.kbytes := rfl
@[simp] theorem takeEvent_iters (s : State) (es : List Event) : (s.takeEvent es).iters = s.iters := rfl
@[simp] theorem takeEvent_bits (s : State) (es : List Event) : (s.takeEvent es).bits = s.bits := rfl
@[simp] theorem takeEvent_seedLo (s : State) (es : List Event) : (s.takeEvent es).seedLo = s.seedLo := rfl
@[simp] theorem takeEvent_seedHi (s : State) (es : List Event) : (s.takeEvent es).seedHi = s.seedHi := rfl
@[simp] theorem takeEvent_ie (s : State) (es : List Event) : (s.takeEvent es).ie = s.ie := rfl
@[simp] theorem takeEvent_busy (s : State) (es : List Event) : (s.takeEvent es).busy = s.busy := rfl
@[simp] theorem takeEvent_done (s : State) (es : List Event) : (s.takeEvent es).done = s.done := rfl
@[simp] theorem takeEvent_err (s : State) (es : List Event) : (s.takeEvent es).err = s.err := rfl
@[simp] theorem takeEvent_tflag (s : State) (es : List Event) : (s.takeEvent es).tflag = s.tflag := rfl
@[simp] theorem takeEvent_hosterr (s : State) (es : List Event) : (s.takeEvent es).hosterr = s.hosterr := rfl
@[simp] theorem takeEvent_errcode (s : State) (es : List Event) : (s.takeEvent es).errcode = s.errcode := rfl
@[simp] theorem takeEvent_errcmd (s : State) (es : List Event) : (s.takeEvent es).errcmd = s.errcmd := rfl
@[simp] theorem takeEvent_cmdcnt (s : State) (es : List Event) : (s.takeEvent es).cmdcnt = s.cmdcnt := rfl
@[simp] theorem takeEvent_g (s : State) (es : List Event) : (s.takeEvent es).g = s.g := rfl
@[simp] theorem takeEvent_cmdlatch (s : State) (es : List Event) : (s.takeEvent es).cmdlatch = s.cmdlatch := rfl
@[simp] theorem takeEvent_passes (s : State) (es : List Event) : (s.takeEvent es).passes = s.passes := rfl
@[simp] theorem takeEvent_pending (s : State) (es : List Event) : (s.takeEvent es).pending = es := rfl
@[simp] theorem takeEvent_resp (s : State) (es : List Event) : (s.takeEvent es).resp = s.resp := rfl
@[simp] theorem takeEvent_reg (s : State) (es : List Event) (i : RegIx) : (s.takeEvent es).reg i = s.reg i := rfl
@[simp] theorem takeEvent_bufByte (s : State) (es : List Event) (i : Nat) : (s.takeEvent es).bufByte i = s.bufByte i := rfl
@[simp] theorem takeEvent_seeded (s : State) (es : List Event) : (s.takeEvent es).seeded = s.seeded := rfl

/-! ## Views through the updates that change them -/

/-- The written register holds the value written (rule R11). -/
@[simp] theorem putReg_reg_self (s : State) (r : RegIx) (v : Nat) : (s.putReg r v).reg r = v := by
  simp [State.reg, State.putReg]

/-- Every other register keeps its value (rule R11). -/
theorem putReg_reg_ne (s : State) (r i : RegIx) (v : Nat) (h : i ≠ r) :
    (s.putReg r v).reg i = s.reg i := by
  have hne : r.toNat ≠ i.toNat := fun e => h (BitVec.eq_of_toNat_eq e.symm)
  simp [State.reg, State.putReg, Vector.getElem_set_ne, hne]

/-- Any register after a register write. -/
theorem putReg_reg (s : State) (r i : RegIx) (v : Nat) :
    (s.putReg r v).reg i = if i = r then v else s.reg i := by
  split
  · next h => subst h; simp
  · next h => exact putReg_reg_ne s r i v h

@[simp] theorem wipe_reg (s : State) (i : RegIx) : s.wipe.reg i = 0 := by
  simp [State.reg, State.wipe]

@[simp] theorem wipe_bufByte (s : State) (i : Nat) : s.wipe.bufByte i = 0 := rfl

@[simp] theorem putGen_seeded (s : State) (v : Nat) : (s.putGen v).seeded = true := rfl

@[simp] theorem dropGen_seeded (s : State) : s.dropGen.seeded = false := rfl

@[simp] theorem wipe_seeded (s : State) : s.wipe.seeded = false := rfl

/-! ## The state after reset -/

@[simp] theorem resetAt_reg (w : Nat) (i : RegIx) : (State.resetAt w).reg i = 0 := by
  simp [State.reg, State.resetAt]

@[simp] theorem resetAt_bufByte (w i : Nat) : (State.resetAt w).bufByte i = 0 := rfl

end Sys2Proof.Laws
end

