-- ==== Sys2Proof/Laws/Ops.lean ====
section
/-! SUPPORT. What each shared operation of a command's life can do, said once: register writes, the two
ways a command ends, the key writes, abort. -/

namespace Sys2Proof.Laws

open Sys2Proof Sys2Proof.Machine

/-! ## Register writes -/

theorem writeReg_fits {s : State} {v : Nat} (r : RegIx) (h : v < 2 ^ s.width) :
    s.writeReg r v = .ok (s.putReg r v) := if_pos h

theorem writeReg_overflows {s : State} {v : Nat} (r : RegIx) (h : 2 ^ s.width ≤ v) :
    s.writeReg r v = .error .overflow := if_neg (Nat.not_lt.mpr h)

/-- A register write answers the written state when the value fits, and `OVERFLOW` otherwise. -/
theorem writeReg_cases (s : State) (r : RegIx) (v : Nat) :
    (v < 2 ^ s.width ∧ s.writeReg r v = .ok (s.putReg r v)) ∨
      (2 ^ s.width ≤ v ∧ s.writeReg r v = .error .overflow) := by
  by_cases h : v < 2 ^ s.width
  · exact .inl ⟨h, writeReg_fits r h⟩
  · exact .inr ⟨Nat.not_lt.mp h, writeReg_overflows r (Nat.not_lt.mp h)⟩

theorem writeInverse_fits {s : State} {inv : Nat × Bool} (r : RegIx) (h : inv.1 < 2 ^ s.width) :
    s.writeInverse r inv = .ok ((s.putReg r inv.1).putT inv.2) := by
  rw [State.writeInverse, writeReg_fits r h]; rfl

theorem writeInverse_overflows {s : State} {inv : Nat × Bool} (r : RegIx)
    (h : 2 ^ s.width ≤ inv.1) : s.writeInverse r inv = .error .overflow := by
  rw [State.writeInverse, writeReg_overflows r h]; rfl

/-- The four key parts, when all fit. -/
theorem writeKey_fits {s : State} {p q e : Nat} (rp rq rn re : RegIx) (hp : p < 2 ^ s.width)
    (hq : q < 2 ^ s.width) (hn : p * q < 2 ^ s.width) (he : e < 2 ^ s.width) :
    s.writeKey rp rq rn re p q e =
      .ok ((((s.putReg rp p).putReg rq q).putReg rn (p * q)).putReg re e) := by
  have h1 := writeReg_fits rp hp
  have h2 := writeReg_fits (s := s.putReg rp p) rq hq
  have h3 := writeReg_fits (s := (s.putReg rp p).putReg rq q) rn hn
  have h4 := writeReg_fits (s := ((s.putReg rp p).putReg rq q).putReg rn (p * q)) re he
  simp only [State.writeKey, h1, h2, h3, h4, bind, Except.bind]

/-! ## How a command ends -/

@[simp] theorem commit_ok (s t : State) : s.commit (.ok t) = .next t.complete := rfl

@[simp] theorem commit_error (s : State) (c : ErrCode) :
    s.commit (.error c) = .next (s.failWith c) := rfl

@[simp] theorem raise_eq (s : State) (c : ErrCode) : s.raise c = .next (s.failWith c) := rfl

/-- A completion keeps `ERRCMD`, counts once, and clears the error. -/
theorem complete_succeeded {s t : State} (hc : t.cmdcnt = s.cmdcnt) (he : t.errcmd = s.errcmd) :
    Succeeded s t.complete :=
  ⟨rfl, rfl, rfl, rfl, he, congrArg (· + 1) hc, rfl⟩

/-- An error completion records the code and the command, and counts once. -/
theorem failWith_failed {s t : State} (c : ErrCode) (hc : t.cmdcnt = s.cmdcnt)
    (hl : t.cmdlatch = s.cmdlatch) : Failed c s (t.failWith c) :=
  ⟨rfl, rfl, rfl, rfl, hl, congrArg (· + 1) hc, rfl⟩

/-- Nothing but the status fields differs after an error completion. -/
theorem failWith_frame (s : State) (c : ErrCode) : Frame [] [] s (s.failWith c) :=
  ⟨rfl, rfl, rfl, rfl, rfl, rfl, ⟨rfl, rfl⟩, fun _ _ => rfl, fun _ => rfl, fun _ _ => rfl,
    fun _ => rfl, fun _ => rfl, fun _ => ⟨rfl, rfl⟩, fun _ => rfl⟩

/-- Nothing but the status fields differs after a bare completion. -/
theorem complete_frame (s : State) : Frame [] [] s s.complete :=
  ⟨rfl, rfl, rfl, rfl, rfl, rfl, ⟨rfl, rfl⟩, fun _ _ => rfl, fun _ => rfl, fun _ _ => rfl,
    fun _ => rfl, fun _ => rfl, fun _ => ⟨rfl, rfl⟩, fun _ => rfl⟩

/-- A frame holds for more destinations and parts. -/
theorem frame_weaken {ds ds' : List RegIx} {ps ps' : List Part} {s t : State}
    (h : Frame ds ps s t) (hd : ds ⊆ ds') (hp : ps ⊆ ps') : Frame ds' ps' s t :=
  ⟨h.width, h.iters, h.bits, h.ie, h.hosterr, h.cmdlatch, h.port,
    fun r hr => h.regs r fun m => hr (hd m), fun hn => h.flag fun m => hn (hp m),
    fun hn => h.buffer fun m => hn (hp m), fun hn => h.len fun m => hn (hp m),
    fun hn => h.kbytes fun m => hn (hp m), fun hn => h.seed fun m => hn (hp m),
    fun hn => h.gen fun m => hn (hp m)⟩

/-- Frames compose. -/
theorem frame_trans {ds : List RegIx} {ps : List Part} {s t u : State} (h : Frame ds ps s t)
    (k : Frame ds ps t u) : Frame ds ps s u :=
  ⟨k.width.trans h.width, k.iters.trans h.iters, k.bits.trans h.bits, k.ie.trans h.ie,
    k.hosterr.trans h.hosterr, k.cmdlatch.trans h.cmdlatch,
    ⟨k.port.1.trans h.port.1, k.port.2.trans h.port.2⟩,
    fun r hr => (k.regs r hr).trans (h.regs r hr), fun hn => (k.flag hn).trans (h.flag hn),
    fun hn i => (k.buffer hn i).trans (h.buffer hn i), fun hn => (k.len hn).trans (h.len hn),
    fun hn => (k.kbytes hn).trans (h.kbytes hn),
    fun hn => ⟨(k.seed hn).1.trans (h.seed hn).1, (k.seed hn).2.trans (h.seed hn).2⟩,
    fun hn => (k.gen hn).trans (h.gen hn)⟩

/-- A register write and completion: the destination alone. -/
theorem putReg_complete_frame (s : State) (rd : RegIx) (v : Nat) :
    Frame [rd] [] s (s.putReg rd v).complete :=
  ⟨rfl, rfl, rfl, rfl, rfl, rfl, ⟨rfl, rfl⟩,
    fun r hr => putReg_reg_ne s rd r v (by simpa using hr), fun _ => rfl, fun _ _ => rfl,
    fun _ => rfl, fun _ => rfl, fun _ => ⟨rfl, rfl⟩, fun _ => rfl⟩

/-! ## Abort -/

theorem abort_idle {s : State} (h : s.busy = false) : s.abort = s := by
  simp [State.abort, h]

/-- An abort of a running command: its generator state is dropped exactly when it draws. -/
theorem abort_busy {s : State} (h : s.busy = true) :
    s.abort = (if drawingWord s.cmdlatch then s.dropGen else s).failWith .aborted := by
  rw [State.abort, if_pos h]

end Sys2Proof.Laws
end

