-- ==== Sys2Proof/Laws/Random.lean ====
section
/-! SUPPORT. The range laws of rule R10, for every random source. -/

namespace Sys2Proof.Laws

open Sys2Proof Sys2Proof.Machine

/-- `RandBits(g, b)` gives a value below `2^b`. -/
theorem randBits_lt (src : RandSource) (g b : Nat) : (randBits src g b).1 < 2 ^ b :=
  Nat.mod_lt _ (Nat.two_pow_pos b)

/-- `RandBelow(g, m)` gives a value below `m`. -/
theorem randBelow_lt (src : RandSource) (g : Nat) {m : Nat} (h : 0 < m) :
    (randBelow src g m).1 < m := Nat.mod_lt _ h

/-- `RandBits(g, 0)` gives 0. -/
theorem randBits_zero (src : RandSource) (g : Nat) : (randBits src g 0).1 = 0 := by
  simp [randBits, Nat.mod_one]

end Sys2Proof.Laws
end

