-- ==== Sys2Proof/Laws/Exec.lean ====
section
/-! SUPPORT. What a move of the engine can do, said once for every command: it completes with its writes,
or it raises an error and writes nothing, or a search goes on. -/

namespace Sys2Proof.Laws

open Sys2Proof Sys2Proof.Machine

/-! ## What a command may write -/

/-- The destination registers. -/
def destinations : Instr → List RegIx
  | .mov rd _ => [rd]
  | .ldi rd _ => [rd]
  | .clr rd => [rd]
  | .clrall => (List.range 16).map (BitVec.ofNat 4)
  | .gcd rd _ _ => [rd]
  | .modinv rd _ _ => [rd]
  | .modmul rd _ _ _ => [rd]
  | .powmod rd _ _ _ => [rd]
  | .mkprime rd => [rd]
  | .mkpub rp rq rn re => [rp, rq, rn, re]
  | .mkpriv rd _ _ _ => [rd]
  | .encblk rd _ _ => [rd]
  | .nop => []
  | .seed => []
  | .rngclr => []
  | .isprime _ => []
  | .verify _ _ _ _ => []
  | .blksz _ => []
  | .decblk _ _ _ => []

/-- What is written beside registers. -/
def writtenParts : Instr → List Part
  | .clrall => [.flag, .buffer, .len, .kbytes, .seed, .gen]
  | .seed => [.gen]
  | .rngclr => [.gen]
  | .modinv _ _ _ => [.flag]
  | .isprime _ => [.flag, .gen]
  | .mkprime _ => [.gen]
  | .mkpub _ _ _ _ => [.gen]
  | .mkpriv _ _ _ _ => [.flag]
  | .verify _ _ _ _ => [.flag]
  | .blksz _ => [.kbytes]
  | .decblk _ _ _ => [.buffer, .len]
  | .nop => []
  | .mov _ _ => []
  | .ldi _ _ => []
  | .clr _ => []
  | .gcd _ _ _ => []
  | .modmul _ _ _ _ => []
  | .powmod _ _ _ _ => []
  | .encblk _ _ _ => []

/-- What the invariant says of the values a command can write. -/
structure ValuesSound (s : State) : Prop where
  regs : ∀ r, s.reg r < 2 ^ s.width
  canonical : Memory.wf s.buf = true
  inBuf : ∀ i, regBytes s.width ≤ i → s.bufByte i = 0
  kbytes : s.kbytes.toNat < regBytes s.width

theorem Inv_values {s : State} (h : s.Inv) : ValuesSound s :=
  ⟨h.regs, h.canonical, h.inBuf, h.kbytes⟩

/-- `u` is `s` after command `i`'s own writes. -/
structure Writes (i : Instr) (s u : State) : Prop where
  frame : Frame (destinations i) (writtenParts i) s u
  errcmd : u.errcmd = s.errcmd
  cmdcnt : u.cmdcnt = s.cmdcnt
  values : s.Inv → ValuesSound u

/-- A move of the engine on command `i`. -/
inductive Moves (i : Instr) (s : State) : State → Prop where
  /-- it completes with its writes -/
  | done (u : State) : Writes i s u → Moves i s u.complete
  /-- it raises an error and writes nothing; a drawing command's generator state has advanced -/
  | raised (c : ErrCode) (x : Option Nat) : (drawing i = false → x = s.g) →
      (s.seeded = true → x.isSome = true) → c ≠ .none → c ≠ .aborted →
      (s.Inv → i.wf = true → c ∈ mayRaise i) →
      Moves i s ({ s with g := x }.failWith c)
  /-- a search goes on -/
  | searching : ((∃ rd, i = .mkprime rd) ∨ ∃ rp rq rn re, i = .mkpub rp rq rn re) →
      Moves i s s.goOn

/-! ## Building blocks -/

theorem frame_refl (ds : List RegIx) (ps : List Part) (s : State) : Frame ds ps s s :=
  ⟨rfl, rfl, rfl, rfl, rfl, rfl, ⟨rfl, rfl⟩, fun _ _ => rfl, fun _ => rfl, fun _ _ => rfl,
    fun _ => rfl, fun _ => rfl, fun _ => ⟨rfl, rfl⟩, fun _ => rfl⟩

theorem putReg_frame (s : State) {rd : RegIx} {ds : List RegIx} (h : rd ∈ ds) (ps : List Part)
    (v : Nat) : Frame ds ps s (s.putReg rd v) :=
  ⟨rfl, rfl, rfl, rfl, rfl, rfl, ⟨rfl, rfl⟩,
    fun r hr => putReg_reg_ne s rd r v fun e => hr (e ▸ h), fun _ => rfl, fun _ _ => rfl,
    fun _ => rfl, fun _ => rfl, fun _ => ⟨rfl, rfl⟩, fun _ => rfl⟩

theorem putT_frame (s : State) (ds : List RegIx) {ps : List Part} (h : Part.flag ∈ ps) (b : Bool) :
    Frame ds ps s (s.putT b) :=
  ⟨rfl, rfl, rfl, rfl, rfl, rfl, ⟨rfl, rfl⟩, fun _ _ => rfl, fun hn => absurd h hn,
    fun _ _ => rfl, fun _ => rfl, fun _ => rfl, fun _ => ⟨rfl, rfl⟩, fun _ => rfl⟩

theorem putGen_frame (s : State) (ds : List RegIx) {ps : List Part} (h : Part.gen ∈ ps) (g : Nat) :
    Frame ds ps s (s.putGen g) :=
  ⟨rfl, rfl, rfl, rfl, rfl, rfl, ⟨rfl, rfl⟩, fun _ _ => rfl, fun _ => rfl,
    fun _ _ => rfl, fun _ => rfl, fun _ => rfl, fun _ => ⟨rfl, rfl⟩, fun hn => absurd h hn⟩

theorem dropGen_frame (s : State) (ds : List RegIx) {ps : List Part} (h : Part.gen ∈ ps) :
    Frame ds ps s s.dropGen :=
  ⟨rfl, rfl, rfl, rfl, rfl, rfl, ⟨rfl, rfl⟩, fun _ _ => rfl, fun _ => rfl,
    fun _ _ => rfl, fun _ => rfl, fun _ => rfl, fun _ => ⟨rfl, rfl⟩, fun hn => absurd h hn⟩

theorem putReg_values {s : State} (h : ValuesSound s) (rd : RegIx) {v : Nat}
    (hv : v < 2 ^ s.width) : ValuesSound (s.putReg rd v) where
  regs r := by
    by_cases e : r = rd
    · subst e; simpa using hv
    · rw [putReg_reg_ne _ _ _ _ e]; exact h.regs r
  canonical := h.canonical
  inBuf := h.inBuf
  kbytes := h.kbytes

theorem values_of_eq {s u : State} (h : ValuesSound s) (hr : u.regs = s.regs) (hb : u.buf = s.buf)
    (hk : u.kbytes = s.kbytes) (hw : u.width = s.width) : ValuesSound u where
  regs r := by simpa only [State.reg, hr, hw] using h.regs r
  canonical := by rw [hb]; exact h.canonical
  inBuf i hi := by simpa only [State.bufByte, hb] using h.inBuf i (hw ▸ hi)
  kbytes := by rw [hk, hw]; exact h.kbytes

/-- An error raised on the state as it stands. -/
theorem raised_here {i : Instr} {s : State} (c : ErrCode) (h1 : c ≠ .none) (h2 : c ≠ .aborted)
    (h : s.Inv → i.wf = true → c ∈ mayRaise i) :
    ∃ t, s.raise c = .next t ∧ Moves i s t :=
  ⟨_, rfl, .raised c s.g (fun _ => rfl) id h1 h2 h⟩

/-- A register command: the destination takes the value, or `OVERFLOW` is raised. -/
theorem moves_write {i : Instr} {s : State} {rd : RegIx} {v : Nat} (hd : rd ∈ destinations i)
    (hv : s.Inv → v < 2 ^ s.width) : ∃ t, s.commit (s.writeReg rd v) = .next t ∧ Moves i s t := by
  rcases writeReg_cases s rd v with ⟨h, e⟩ | ⟨h, e⟩ <;> rw [e]
  · exact ⟨_, rfl, .done _ ⟨putReg_frame s hd _ v, rfl, rfl,
      fun hi => putReg_values (Inv_values hi) rd h⟩⟩
  · exact raised_here .overflow (by simp) (by simp) fun hi => absurd (hv hi) (Nat.not_lt.mpr h)

/-- The same for an inverse and `T`. -/
theorem moves_writeInverse {i : Instr} {s : State} {rd : RegIx} {inv : Nat × Bool}
    (hd : rd ∈ destinations i) (hf : Part.flag ∈ writtenParts i)
    (hv : s.Inv → i.wf = true → 2 ^ s.width ≤ inv.1 → .overflow ∈ mayRaise i) :
    ∃ t, s.commit (s.writeInverse rd inv) = .next t ∧ Moves i s t := by
  by_cases h : inv.1 < 2 ^ s.width
  · rw [writeInverse_fits rd h]
    exact ⟨_, rfl, .done _ ⟨frame_trans (putReg_frame s hd _ _) (putT_frame _ _ hf _), rfl, rfl,
      fun hi => values_of_eq (putReg_values (Inv_values hi) rd h) rfl rfl rfl rfl⟩⟩
  · rw [writeInverse_overflows rd (Nat.not_lt.mp h)]
    exact raised_here .overflow (by simp) (by simp) fun hi hw => hv hi hw (Nat.not_lt.mp h)

/-- A result that does not exceed a modulus register fits. -/
theorem powMod_fits {s : State} (h : s.Inv) (b e : Nat) {rm : RegIx} (hm : s.reg rm ≠ 0) :
    powMod b e (s.reg rm) < 2 ^ s.width := (powMod_le b e hm).trans_lt (h.regs rm)

/-- `DECBLK`'s buffer bytes. -/
theorem storeBlock_bufByte {s : State} (h : Memory.wf s.buf = true) (m i : Nat) :
    (s.storeBlock m).bufByte i =
      if i < bytelen m - 1 then (unpackBlock m).getD i 0 else s.bufByte i := by
  show Memory.read (Memory.writeBytes s.buf 0 _) i = _
  rw [read_writeBytes h, length_unpackBlock]
  simp [blankByte, State.bufByte]

/-! ## The searches -/

/-- One pass of the candidate loop: `SMALLN` on a candidate up to 4, else the candidate or another
pass. -/
theorem makePrimePass_cases (src : RandSource) (bits iters g : Nat) :
    ∃ g', makePrimePass src bits iters g = (.error .smalln, g') ∧
        (randBits src g bits).1 + 2 ^ bits ≤ 4 ∨
      makePrimePass src bits iters g = (.ok none, g') ∨
      makePrimePass src bits iters g = (.ok (some ((randBits src g bits).1 + 2 ^ bits)), g') ∧
        4 < (randBits src g bits).1 + 2 ^ bits := by
  by_cases h : (randBits src g bits).1 + 2 ^ bits ≤ 4
  · exact ⟨_, .inl ⟨by simp only [makePrimePass, isPrime, if_pos h]; rfl, h⟩⟩
  · simp only [makePrimePass, isPrime, if_neg h]
    generalize roundsPass _ _ _ _ _ _ = q
    obtain ⟨b, g'⟩ := q
    cases b
    · exact ⟨g', .inr (.inl rfl)⟩
    · exact ⟨g', .inr (.inr ⟨rfl, by omega⟩)⟩

/-- A candidate has its top bit and no higher one. -/
theorem candidate_range (src : RandSource) (g bits : Nat) :
    2 ^ bits ≤ (randBits src g bits).1 + 2 ^ bits ∧
      (randBits src g bits).1 + 2 ^ bits < 2 ^ (bits + 1) := by
  have := randBits_lt src g bits
  rw [Nat.pow_succ]; omega

/-- What `MakePrime` ends with: a candidate above 4 with its top bit and no higher one, or `SMALLN` for
a width up to 2. -/
theorem makePrimeWithin_sound {src : RandSource} {bits iters fuel g : Nat}
    {r : Except ErrCode Nat × Nat} (h : makePrimeWithin src bits iters fuel g = some r) :
    (∃ c, r.1 = .ok c ∧ 4 < c ∧ 2 ^ bits ≤ c ∧ c < 2 ^ (bits + 1)) ∨
      r.1 = .error .smalln ∧ bits ≤ 2 := by
  induction fuel generalizing g with
  | zero => simp [makePrimeWithin] at h
  | succ fuel ih =>
    have hr := candidate_range src g bits
    rw [makePrimeWithin] at h
    obtain ⟨g', ⟨e, hc⟩ | e | ⟨e, hc⟩⟩ := makePrimePass_cases src bits iters g <;> rw [e] at h
    · obtain rfl := Option.some.inj h
      refine .inr ⟨rfl, ?_⟩
      by_contra hb
      have : 2 ^ 3 ≤ 2 ^ bits := Nat.pow_le_pow_right (by omega) (by omega)
      omega
    · exact ih h
    · obtain rfl := Option.some.inj h
      exact .inl ⟨_, rfl, hc, hr⟩

/-- An accepted exponent is below `2^bits` and coprime to the totient. -/
theorem exponentWithin_sound {src : RandSource} {bits tot fuel g : Nat} {r : Nat × Nat}
    (h : exponentWithin src bits tot fuel g = some r) : r.1 < 2 ^ bits ∧ Nat.gcd r.1 tot = 1 := by
  induction fuel generalizing g with
  | zero => simp [exponentWithin] at h
  | succ fuel ih =>
    rw [exponentWithin, gcdFn_eq] at h
    split at h
    · next hc => obtain rfl := Option.some.inj h; exact ⟨randBits_lt src g bits, hc⟩
    · exact ih h

/-- What `make_public` returns, with `p` of `pbits + 1` bits. -/
structure PublicSound (bits pbits : Nat) (m : PublicMaterial) : Prop where
  split : splitLow bits ≤ pbits ∧ pbits < splitHigh bits
  p : 4 < m.p ∧ 2 ^ pbits ≤ m.p ∧ m.p < 2 ^ (pbits + 1)
  q : 4 < m.q ∧ 2 ^ (bits - pbits) ≤ m.q ∧ m.q < 2 ^ (bits - pbits + 1)
  n : m.n = m.p * m.q
  e : m.e < 2 ^ bits ∧ Nat.gcd m.e (Nat.lcm (m.p - 1) (m.q - 1)) = 1

/-- The modulus has `bits + 1` or `bits + 2` bits (rule R191). -/
theorem PublicSound.range {bits pbits : Nat} {m : PublicMaterial} (h : PublicSound bits pbits m) :
    2 ^ bits ≤ m.p * m.q ∧ m.p * m.q < 2 ^ (bits + 2) := by
  have hb : pbits + (bits - pbits) = bits := by
    have := h.split.2; simp only [splitHigh] at this; omega
  constructor
  · calc 2 ^ bits = 2 ^ pbits * 2 ^ (bits - pbits) := by rw [← Nat.pow_add, hb]
      _ ≤ m.p * m.q := Nat.mul_le_mul h.p.2.1 h.q.2.1
  · calc m.p * m.q < 2 ^ (pbits + 1) * 2 ^ (bits - pbits + 1) :=
          Nat.mul_lt_mul'' h.p.2.2 h.q.2.2
      _ = 2 ^ (bits + 2) := by rw [← Nat.pow_add]; congr 1; omega

/-- What `make_public` ends with: sound key material, `PARAM` for an empty split range, or `SMALLN`,
which needs fewer than 12 bits (rule R191). -/
theorem makePublicWithin_sound {src : RandSource} {bits iters fuel g : Nat}
    {r : Except ErrCode PublicMaterial × Nat}
    (h : makePublicWithin src bits iters fuel g = some r) :
    (∃ m pbits, r.1 = .ok m ∧ PublicSound bits pbits m) ∨
      r.1 = .error .param ∧ bits < 2 ∨ r.1 = .error .smalln ∧ bits < 12 := by
  unfold makePublicWithin at h
  split at h
  · next h0 =>
    obtain rfl := Option.some.inj h
    exact .inr (.inl ⟨rfl, by simp only [splitHigh, splitLow] at h0; omega⟩)
  · next h0 =>
    have hs := randBelow_lt src g (m := splitHigh bits - splitLow bits) (by omega)
    revert h hs
    generalize randBelow src g (splitHigh bits - splitLow bits) = split
    intro h hs
    simp only at h
    split at h
    · simp at h
    · next c g1 h1 =>
      obtain rfl := Option.some.inj h
      rcases makePrimeWithin_sound h1 with ⟨_, e, -⟩ | ⟨e, hb⟩
      · simp at e
      · exact .inr (.inr ⟨by simpa using e, by simp only [splitHigh, splitLow] at *; omega⟩)
    · next p g1 h1 =>
      split at h
      · simp at h
      · next c g2 h2 =>
        obtain rfl := Option.some.inj h
        rcases makePrimeWithin_sound h2 with ⟨_, e, -⟩ | ⟨e, hb⟩
        · simp at e
        · exact .inr (.inr ⟨by simpa using e, by simp only [splitHigh, splitLow] at *; omega⟩)
      · next q g2 h2 =>
        rcases makePrimeWithin_sound h1 with ⟨_, e1, hp⟩ | ⟨e, -⟩
        case inr => simp at e
        rcases makePrimeWithin_sound h2 with ⟨_, e2, hq⟩ | ⟨e, -⟩
        case inr => simp at e
        obtain rfl := Except.ok.inj e1
        obtain rfl := Except.ok.inj e2
        rw [publicTail, lcmFn_eq (by omega)] at h
        simp only [Option.map_eq_some_iff] at h
        obtain ⟨x, hx, rfl⟩ := h
        exact .inl ⟨_, splitLow bits + split.1, rfl, ⟨by omega, by omega⟩, hp, hq, rfl,
          exponentWithin_sound hx⟩

@[simp] theorem search_none {α : Type} (s : State) (w : α → State → Except ErrCode State) :
    s.search none w = .next s.goOn := rfl

@[simp] theorem search_some {α : Type} (s : State) (r : Except ErrCode α × Nat)
    (w : α → State → Except ErrCode State) : s.search (some r) w = s.drawn r w := rfl

/-- A drawing command that ends with an error. -/
theorem drawn_error (s : State) {α : Type} {r : Except ErrCode α × Nat} {c : ErrCode}
    (h : r.1 = .error c) (w : α → State → Except ErrCode State) :
    s.drawn r w = .next ((s.putGen r.2).failWith c) := by simp [State.drawn, h]

/-- A drawing command that ends with its writes. -/
theorem drawn_ok (s : State) {α : Type} {r : Except ErrCode α × Nat} {v : α} {u : State}
    (h : r.1 = .ok v) {w : α → State → Except ErrCode State} (hw : w v (s.putGen r.2) = .ok u) :
    s.drawn r w = .next u.complete := by simp [State.drawn, h, hw]

theorem mkprime_moves (src : RandSource) (rd : RegIx) (s : State) :
    ∃ t, mkprimeWith src rd s = .next t ∧ Moves (.mkprime rd) s t := by
  unfold mkprimeWith
  split
  · exact raised_here .norng (by simp) (by simp) fun _ _ => by simp [mayRaise]
  · next g hg =>
    split
    · exact raised_here .param (by simp) (by simp) fun _ _ => by simp [mayRaise]
    · next hw =>
      cases h : makePrimeWithin src s.bitsArg s.itersArg (s.passes + 1) g with
      | none => exact ⟨_, rfl, .searching (.inl ⟨rd, rfl⟩)⟩
      | some r =>
        rw [search_some]
        rcases makePrimeWithin_sound h with ⟨c, e, -, hr⟩ | ⟨e, -⟩
        · have hf : c < 2 ^ s.width := hr.2.trans_le (Nat.pow_le_pow_right (by omega) (by omega))
          exact ⟨_, drawn_ok s e (writeReg_fits (s := s.putGen r.2) rd hf), .done _
            ⟨frame_trans (putGen_frame s _ (by simp [writtenParts]) r.2)
              (putReg_frame _ (by simp [destinations]) _ _), rfl, rfl,
            fun hi => putReg_values
              (values_of_eq (u := s.putGen r.2) (Inv_values hi) rfl rfl rfl rfl) rd hf⟩⟩
        · exact ⟨_, drawn_error s e _, .raised .smalln (some r.2) (fun h => by cases h)
            (fun _ => rfl) (by simp) (by simp) fun _ _ => by simp [mayRaise]⟩

/-- The four key parts are written together, or `OVERFLOW` is raised. -/
theorem writeKey_cases (s : State) (rp rq rn re : RegIx) (p q e : Nat) :
    s.writeKey rp rq rn re p q e = .error .overflow ∧
        ¬(p < 2 ^ s.width ∧ q < 2 ^ s.width ∧ p * q < 2 ^ s.width ∧ e < 2 ^ s.width) ∨
      s.writeKey rp rq rn re p q e =
          .ok ((((s.putReg rp p).putReg rq q).putReg rn (p * q)).putReg re e) ∧
        p < 2 ^ s.width ∧ q < 2 ^ s.width ∧ p * q < 2 ^ s.width ∧ e < 2 ^ s.width := by
  simp only [State.writeKey, bind, Except.bind]
  rcases writeReg_cases s rp p with ⟨h1, e1⟩ | ⟨h1, e1⟩
  case inr => exact .inl ⟨by simp [e1], by omega⟩
  rcases writeReg_cases (s.putReg rp p) rq q with ⟨h2, e2⟩ | ⟨h2, e2⟩
  case inr => exact .inl ⟨by simp [e1, e2], by simp at h2; omega⟩
  rcases writeReg_cases ((s.putReg rp p).putReg rq q) rn (p * q) with ⟨h3, e3⟩ | ⟨h3, e3⟩
  case inr => exact .inl ⟨by simp [e1, e2, e3], by simp at h3; omega⟩
  rcases writeReg_cases (((s.putReg rp p).putReg rq q).putReg rn (p * q)) re e
    with ⟨h4, e4⟩ | ⟨h4, e4⟩
  case inr => exact .inl ⟨by simp [e1, e2, e3, e4], by simp at h4; omega⟩
  exact .inr ⟨by simp [e1, e2, e3, e4], h1, by simpa using h2, by simpa using h3, by simpa using h4⟩

/-- A candidate of a product's factor pair, both above 1, is below the product's bound. -/
theorem factors_lt {p q b : Nat} (hp : 1 < p) (hq : 1 < q) (h : p * q < b) : p < b ∧ q < b := by
  constructor <;> nlinarith

/-- Sound key material fits the registers. -/
theorem PublicSound.fits {bits pbits w : Nat} {m : PublicMaterial} (h : PublicSound bits pbits m)
    (hw : bits + 2 ≤ w) :
    m.p < 2 ^ w ∧ m.q < 2 ^ w ∧ m.p * m.q < 2 ^ w ∧ m.e < 2 ^ w := by
  have hn := h.range.2.trans_le (Nat.pow_le_pow_right (show 0 < 2 by omega) hw)
  have hf := factors_lt (by have := h.p.1; omega) (by have := h.q.1; omega) hn
  exact ⟨hf.1, hf.2, hn, h.e.1.trans_le (Nat.pow_le_pow_right (by omega) (by omega))⟩

theorem mkpub_moves (src : RandSource) (rp rq rn re : RegIx) (s : State) :
    ∃ t, mkpubWith src rp rq rn re s = .next t ∧ Moves (.mkpub rp rq rn re) s t := by
  unfold mkpubWith
  split
  · split
    · exact raised_here .norng (by simp) (by simp) fun _ _ => by simp [mayRaise]
    · next g hg =>
      split
      · exact raised_here .param (by simp) (by simp) fun _ _ => by simp [mayRaise]
      · next hw =>
        cases h : makePublicWithin src s.bitsArg s.itersArg (s.passes + 1) g with
        | none => exact ⟨_, rfl, .searching (.inr ⟨rp, rq, rn, re, rfl⟩)⟩
        | some r =>
          rw [search_some]
          rcases makePublicWithin_sound h with ⟨m, pbits, e, hm⟩ | ⟨e, -⟩ | ⟨e, -⟩
          · obtain ⟨h1, h2, h3, h4⟩ := hm.fits (w := s.width) (by omega)
            refine ⟨_, drawn_ok s e (writeKey_fits (s := s.putGen r.2) rp rq rn re h1 h2 h3 h4), .done _
              ⟨frame_trans (putGen_frame s _ (by simp [writtenParts]) _)
                (frame_trans (putReg_frame _ (by simp [destinations]) _ _)
                  (frame_trans (putReg_frame _ (by simp [destinations]) _ _)
                    (frame_trans (putReg_frame _ (by simp [destinations]) _ _)
                      (putReg_frame _ (by simp [destinations]) _ _)))), rfl, rfl, fun hi => ?_⟩⟩
            have h0 := values_of_eq (u := s.putGen r.2) (Inv_values hi) rfl rfl rfl rfl
            exact putReg_values (putReg_values (putReg_values (putReg_values h0 rp h1) rq h2) rn h3)
              re h4
          · exact ⟨_, drawn_error s e _, .raised .param (some r.2) (fun h => by cases h)
              (fun _ => rfl) (by simp) (by simp) fun _ _ => by simp [mayRaise]⟩
          · exact ⟨_, drawn_error s e _, .raised .smalln (some r.2) (fun h => by cases h)
              (fun _ => rfl) (by simp) (by simp) fun _ _ => by simp [mayRaise]⟩
  · next h =>
    exact raised_here .illegal (by simp) (by simp) fun _ hw => absurd hw h

theorem isprime_moves (src : RandSource) (rn : RegIx) (s : State) :
    ∃ t, isprimeWith src rn s = .next t ∧ Moves (.isprime rn) s t := by
  unfold isprimeWith
  split
  · exact raised_here .norng (by simp) (by simp) fun _ _ => by simp [mayRaise]
  · next g hg =>
    unfold isPrime
    by_cases h : s.reg rn ≤ 4
    · rw [if_pos h]
      exact ⟨_, drawn_error s rfl _, .raised .smalln (some g) (fun h => by cases h)
        (fun _ => rfl) (by simp) (by simp) fun _ _ => by simp [mayRaise]⟩
    · rw [if_neg h]
      exact ⟨_, drawn_ok s rfl rfl, .done _ ⟨frame_trans (putGen_frame s _ (by simp [writtenParts]) _)
        (putT_frame _ _ (by simp [writtenParts]) _), rfl, rfl,
        fun hi => values_of_eq (Inv_values hi) rfl rfl rfl rfl⟩⟩

/-! ## Every command -/

/-- The greatest common divisor of two values that fit, fits. -/
theorem gcdFn_fits {a b w : Nat} (ha : a < 2 ^ w) (hb : b < 2 ^ w) : gcdFn a b < 2 ^ w := by
  rw [gcdFn_eq]
  by_cases h : a = 0
  · subst h; rwa [Nat.gcd_zero_left]
  · exact (Nat.gcd_le_left b (by omega)).trans_lt ha

/-- An inverse modulo a modulus up to `2^w` fits. -/
theorem modInv_fits (a : Nat) {n w : Nat} (hw : 0 < w) (hn : n ≤ 2 ^ w) :
    (modInv a n).1 < 2 ^ w := by
  have h1 : 1 < 2 ^ w := Nat.one_lt_two_pow (by omega)
  by_cases hg : 1 < Nat.gcd a n
  · rw [modInv_gcd_gt a n hg]; exact Nat.two_pow_pos w
  · rcases Nat.lt_trichotomy n 1 with h | h | h
    · obtain rfl : n = 0 := by omega
      rw [Nat.gcd_zero_right] at hg
      rw [modInv_zero a (by omega)]
      exact (show a ≤ 1 by omega).trans_lt h1
    · subst h; rw [modInv_one]; simp only; split <;> omega
    · have := Nat.gcd_pos_of_pos_right a (show 0 < n by omega)
      exact (modInv_coprime a n h (by omega)).2.1.trans_le hn

/-- Every command, on every state, answers a next state that one of the three cases of `Moves`
describes. -/
theorem exec_moves (i : Instr) (s : State) : ∃ t, exec i s = .next t ∧ Moves i s t := by
  cases i with
  | nop => exact ⟨_, rfl, .done s ⟨frame_refl _ _ s, rfl, rfl, fun hi => Inv_values hi⟩⟩
  | mov rd rs => exact moves_write (by simp [destinations]) fun hi => hi.regs rs
  | ldi rd imm =>
    refine moves_write (by simp [destinations]) fun hi => ?_
    have h1 := imm.isLt
    have h2 : 2 ^ 16 ≤ 2 ^ s.width := Nat.pow_le_pow_right (by omega) (by have := hi.width.1; omega)
    exact h1.trans_le h2
  | clr rd => exact moves_write (by simp [destinations]) fun _ => Nat.two_pow_pos _
  | clrall =>
    refine ⟨_, rfl, .done s.wipe ⟨⟨rfl, rfl, rfl, rfl, rfl, rfl, ⟨rfl, rfl⟩, fun r hr => absurd ?_ hr,
      by simp [writtenParts], by simp [writtenParts], by simp [writtenParts], by simp [writtenParts],
      by simp [writtenParts], by simp [writtenParts]⟩, rfl, rfl, fun hi => ?_⟩⟩
    · exact List.mem_map.mpr ⟨r.toNat, List.mem_range.mpr r.isLt, BitVec.ofNat_toNat ..⟩
    · refine ⟨fun r => ?_, rfl, fun _ _ => rfl, ?_⟩
      · simp [State.reg]
      · have := hi.width.1
        simp only [wipe_kbytes, wipe_width, regBytes]
        exact (show (0 : Word).toNat = 0 from rfl) ▸ (by omega)
  | seed =>
    exact ⟨_, rfl, .done _ ⟨putGen_frame s _ (by simp [writtenParts]) _, rfl, rfl,
      fun hi => values_of_eq (Inv_values hi) rfl rfl rfl rfl⟩⟩
  | rngclr =>
    exact ⟨_, rfl, .done _ ⟨dropGen_frame s _ (by simp [writtenParts]), rfl, rfl,
      fun hi => values_of_eq (Inv_values hi) rfl rfl rfl rfl⟩⟩
  | gcd rd ra rb =>
    exact moves_write (by simp [destinations]) fun hi => gcdFn_fits (hi.regs ra) (hi.regs rb)
  | modinv rd ra rn =>
    refine moves_writeInverse (by simp [destinations]) (by simp [writtenParts]) fun hi _ h => ?_
    have := hi.width.1
    exact absurd (modInv_fits (s.reg ra) (w := s.width) (by omega) (hi.regs rn).le)
      (Nat.not_lt.mpr h)
  | modmul rd ra rb rm =>
    simp only [exec, execModmul]
    split
    · exact raised_here .divzero (by simp) (by simp) fun _ _ => by simp [mayRaise]
    · next h =>
      exact moves_write (by simp [destinations]) fun hi =>
        (Nat.mod_lt _ (Nat.pos_of_ne_zero h)).trans (hi.regs rm)
  | powmod rd rb re rm =>
    simp only [exec, execPowmod]
    split
    · exact raised_here .divzero (by simp) (by simp) fun _ _ => by simp [mayRaise]
    · next h => exact moves_write (by simp [destinations]) fun hi => powMod_fits hi _ _ h
  | isprime rn => exact isprime_moves Config.source rn s
  | mkprime rd => exact mkprime_moves Config.source rd s
  | mkpub rp rq rn re => exact mkpub_moves Config.source rp rq rn re s
  | mkpriv rd re rp rq =>
    simp only [exec, execMkpriv]
    split
    · exact raised_here .param (by simp) (by simp) fun _ _ => by simp [mayRaise]
    · unfold lcmFn
      by_cases h : gcdFn (s.reg rp - 1) (s.reg rq - 1) = 0
      · rw [if_pos h]
        exact raised_here .divzero (by simp) (by simp) fun _ _ => by simp [mayRaise]
      · rw [if_neg h]
        exact moves_writeInverse (by simp [destinations]) (by simp [writtenParts])
          fun _ _ => by simp [mayRaise]
  | verify rs re rn rm =>
    simp only [exec, execVerify]
    split
    · exact raised_here .divzero (by simp) (by simp) fun _ _ => by simp [mayRaise]
    · exact ⟨_, rfl, .done _ ⟨putT_frame s _ (by simp [writtenParts]) _, rfl, rfl,
        fun hi => values_of_eq (Inv_values hi) rfl rfl rfl rfl⟩⟩
  | blksz rn =>
    simp only [exec, execBlksz]
    split
    · exact raised_here .param (by simp) (by simp) fun _ _ => by simp [mayRaise]
    · next h =>
      refine ⟨_, rfl, .done _ ⟨⟨rfl, rfl, rfl, rfl, rfl, rfl, ⟨rfl, rfl⟩, fun _ _ => rfl, fun _ => rfl,
        fun _ _ => rfl, fun _ => rfl, by simp [writtenParts], fun _ => ⟨rfl, rfl⟩, fun _ => rfl⟩,
        rfl, rfl, fun hi => ⟨hi.regs, hi.canonical, hi.inBuf, ?_⟩⟩⟩
      have := blockSize_lt hi.width h (hi.regs rn)
      simp only [putKbytes_kbytes, putKbytes_width, BitVec.toNat_ofNat]
      exact (Nat.mod_le _ _).trans_lt this
  | encblk rd re rn =>
    simp only [exec, execEncblk]
    split
    · exact raised_here .param (by simp) (by simp) fun _ _ => by simp [mayRaise]
    · split
      · exact raised_here .divzero (by simp) (by simp) fun _ _ => by simp [mayRaise]
      · next h => exact moves_write (by simp [destinations]) fun hi => powMod_fits hi _ _ h
  | decblk rc rd rn =>
    simp only [exec, execDecblk]
    split
    · exact raised_here .divzero (by simp) (by simp) fun _ _ => by simp [mayRaise]
    · next h =>
      split
      · exact raised_here .badblock (by simp) (by simp) fun _ _ => by simp [mayRaise]
      · refine ⟨_, rfl, .done _ ⟨⟨rfl, rfl, rfl, rfl, rfl, rfl, ⟨rfl, rfl⟩, fun _ _ => rfl,
          fun _ => rfl, by simp [writtenParts], by simp [writtenParts], fun _ => rfl,
          fun _ => ⟨rfl, rfl⟩, fun _ => rfl⟩, rfl, rfl, fun hi => ?_⟩⟩
        refine ⟨hi.regs, wf_writeBytes hi.canonical 0 _, fun j hj => ?_, hi.kbytes⟩
        have hb := bytelen_le hi.width (powMod_fits hi (s.reg rc) (s.reg rd) h)
        have hj' : regBytes s.width ≤ j := hj
        rw [storeBlock_bufByte hi.canonical, if_neg (by omega)]
        exact hi.inBuf j hj'

end Sys2Proof.Laws
end

