-- ==== Sys2Proof/Laws/HostPort.lean ====
section
/-! SUPPORT. The register map read both ways, and one lemma per kind of event that says what a step on it
does. -/

namespace Sys2Proof.Laws

open Sys2Proof Sys2Proof.Machine

/-- `BUFBASE + W/8` is the size of the register space (rule R60). -/
theorem decodedLimit_eq (w : Nat) : decodedLimit w = 0x1000 + 17 * (w / 8) := by
  simp only [decodedLimit, bufBase, regBytes]; omega

/-- The first 4096 bytes are decoded at every width. -/
theorem control_decoded (w : Nat) {off : Nat} (h : off < 0x1000) : ¬decodedLimit w ≤ off := by
  rw [decodedLimit_eq]; omega

/-- An offset in the first 4096 bytes names a control register. -/
theorem targetOf_control (w : Nat) {off : Nat} (h : off < 0x1000) :
    targetOf w off = controlTarget off := if_pos h

/-- Word `j` of `R[r]` is found at its offset (rule R44). -/
theorem targetOf_regWord {w : Nat} (hw : Config.LegalWidth w) (r : RegIx) {j : Nat}
    (hj : j < w / 32) : targetOf w (offsetOf w (.regWord r j)) = .regWord r j := by
  obtain ⟨h64, h32, -⟩ := hw
  obtain ⟨k, rfl⟩ : ∃ k, w = 32 * k := ⟨w / 32, by omega⟩
  have e8 : 32 * k / 8 = 4 * k := by omega
  have hk : 32 * k / 32 = k := by omega
  rw [hk] at hj
  have hr := r.isLt
  have hmul : r.toNat * (4 * k) ≤ 15 * (4 * k) := Nat.mul_le_mul_right _ (by omega)
  have hs : 0x1000 + r.toNat * (4 * k) + 4 * j - 0x1000 = 4 * j + 4 * k * r.toNat := by
    rw [Nat.mul_comm r.toNat]; omega
  simp only [targetOf, offsetOf, bufBase, regBytes, e8]
  rw [if_neg (by omega), if_pos (by omega), hs, Nat.add_mul_div_left _ _ (by omega),
    Nat.add_mul_mod_self_left, Nat.div_eq_of_lt (by omega), Nat.mod_eq_of_lt (by omega)]
  simp

/-- Word `j` of `BUF` is found at its offset (rule R44). -/
theorem targetOf_bufWord {w : Nat} (hw : Config.LegalWidth w) {j : Nat} (hj : j < w / 32) :
    targetOf w (offsetOf w (.bufWord j)) = .bufWord j := by
  obtain ⟨h64, h32, -⟩ := hw
  show targetOf w (bufBase w + 4 * j) = _
  unfold targetOf
  rw [if_neg (by simp only [bufBase, regBytes]; omega), if_neg (by omega),
    if_pos (by simp only [decodedLimit, regBytes]; omega), Nat.add_sub_cancel_left,
    Nat.mul_div_cancel_left _ (by omega)]

/-- Every offset in the windows names a window word whose index is in range (rules R44, R61). -/
theorem targetOf_window {w off : Nat} (hw : Config.LegalWidth w) (h : 0x1000 ≤ off)
    (hl : off < decodedLimit w) :
    (∃ r j, j < w / 32 ∧ targetOf w off = .regWord r j) ∨
      ∃ j, j < w / 32 ∧ targetOf w off = .bufWord j := by
  obtain ⟨h64, h32, -⟩ := hw
  have hpos : 0 < w / 8 := by omega
  unfold targetOf
  rw [if_neg (by omega)]
  split
  · refine .inl ⟨_, _, ?_, rfl⟩
    have := Nat.mod_lt (off - 0x1000) hpos
    simp only [regBytes]
    omega
  · refine .inr ⟨_, ?_, rfl⟩
    simp only [decodedLimit, bufBase, regBytes] at *
    omega

/-! ## A step, by its oldest pending event -/

theorem step_none {s : State} (h : s.pending = []) : step s = engineTurn s := by
  simp [step, move, h]

theorem step_engine {s : State} {es : List Event} (h : s.pending = .engine :: es) :
    step s = engineTurn (s.takeEvent es) := by
  simp [step, move, h]

theorem step_wait {s : State} {es : List Event} (h : s.pending = .wait :: es) :
    step s = hostWait es s := by
  simp [step, move, h]

theorem step_read {s : State} {off size : Nat} {es : List Event}
    (h : s.pending = .read off size :: es) : step s = hostRead off size (s.takeEvent es) := by
  simp [step, move, h]

theorem step_write {s : State} {off size : Nat} {v : Word} {es : List Event}
    (h : s.pending = .write off size v :: es) :
    step s = hostWrite off size v (s.takeEvent es) := by
  simp [step, move, h]

theorem step_reset {s : State} {es : List Event} (h : s.pending = .reset :: es) :
    step s = hardReset es s := by
  simp [step, move, h]

/-! ## The accesses, by their three outcomes -/

/-- A read is outside the block, or a bus error, or a read of a target. -/
theorem hostRead_cases (off size : Nat) (s : State) :
    hostRead off size s = .fault (.outsideBlock off) ∨
      hostRead off size s = .next (s.answer .busError) ∨
      hostRead off size s = .next (s.readTarget (targetOf s.width off)) := by
  unfold hostRead
  split
  · exact .inl rfl
  · split
    · exact .inr (.inr rfl)
    · exact .inr (.inl rfl)

/-- A write is outside the block, or a bus error, or a write of a target. -/
theorem hostWrite_cases (off size : Nat) (v : Word) (s : State) :
    hostWrite off size v s = .fault (.outsideBlock off) ∨
      hostWrite off size v s = .next (s.answer .busError) ∨
      hostWrite off size v s = .next (s.writeTarget (targetOf s.width off) v) := by
  unfold hostWrite
  split
  · exact .inl rfl
  · split
    · exact .inr (.inr rfl)
    · exact .inr (.inl rfl)

/-- A busy read of a target either only answers or is refused with 0 and the mark. -/
theorem readTarget_cases (s : State) (t : Target) :
    s.readTarget t = s.answer (.data (s.readValue t)) ∨
      (s.busy = true ∧ s.readTarget t = s.refuse.answer (.data 0)) := by
  unfold State.readTarget
  split
  · next h => exact .inr ⟨(Bool.and_eq_true .. ▸ h).1, rfl⟩
  · exact .inl rfl

/-- A 32-bit read of a decoded word-aligned offset reads its target. -/
theorem step_read_target {s : State} {off : Nat} {es : List Event}
    (h : s.pending = .read off 4 :: es) (h1 : off < decodedLimit s.width) (h2 : off % 4 = 0) :
    step s = .next ((s.takeEvent es).readTarget (targetOf s.width off)) := by
  rw [step_read h, hostRead, if_neg (by simp only [State.takeEvent]; omega),
    if_pos (by simp [aligned, h2])]
  rfl

/-- A 32-bit write of a decoded word-aligned offset writes its target. -/
theorem step_write_target {s : State} {off : Nat} {v : Word} {es : List Event}
    (h : s.pending = .write off 4 v :: es) (h1 : off < decodedLimit s.width) (h2 : off % 4 = 0) :
    step s = .next ((s.takeEvent es).writeTarget (targetOf s.width off) v) := by
  rw [step_write h, hostWrite, if_neg (by simp only [State.takeEvent]; omega),
    if_pos (by simp [aligned, h2])]
  rfl

/-- Every window offset is refused while busy, for reads and writes (rule R70). -/
theorem window_refused {w off : Nat} (h1 : 0x1000 ≤ off) (h2 : off < decodedLimit w) :
    refusedRead (targetOf w off) = true ∧ refusedWrite (targetOf w off) = true := by
  unfold targetOf
  rw [if_neg (by omega)]
  split <;> exact ⟨rfl, rfl⟩

/-- A byte of a buffer word is the buffer byte in its lane (rule R65). -/
theorem lane_bufWordAt (s : State) (j : Nat) {b : Nat} (hb : b < 4) :
    (s.bufWordAt j).extractLsb' (8 * b) 8 = s.bufByte (4 * j + b) := by
  apply BitVec.eq_of_getLsbD_eq
  intro i hi
  simp only [State.bufWordAt, BitVec.getLsbD_extractLsb', BitVec.getLsbD_append]
  interval_cases b <;> interval_cases i <;> simp

/-- A lane's byte (rule R65). -/
theorem getD_laneBytes (v : Word) {b : Nat} (h : b < 4) :
    (laneBytes v).getD b 0 = v.extractLsb' (8 * b) 8 := by
  interval_cases b <;> rfl

end Sys2Proof.Laws
end

