-- ==== Sys2Proof/Laws/HostProcedures.lean ====
section
/-! SUPPORT. What each piece of a host procedure does on an idle block, said once: a read, a write, an
operand written, a result read, a chunk in and out, one command of the protocol (rule R231). -/

namespace Sys2Proof.Laws

open Sys2Proof Sys2Proof.Machine

@[simp] theorem withMachine_machine (h : Session) (s : State) : (h.withMachine s).machine = s := rfl
@[simp] theorem withMachine_text (h : Session) (s : State) : (h.withMachine s).text = h.text := rfl
@[simp] theorem withMachine_bytes (h : Session) (s : State) : (h.withMachine s).bytes = h.bytes := rfl
@[simp] theorem withMachine_withMachine (h : Session) (s t : State) :
    (h.withMachine s).withMachine t = h.withMachine t := rfl
@[simp] theorem withEvent_pending (s : State) (e : Event) :
    (s.withEvent e).pending = e :: s.pending := rfl
@[simp] theorem withEvent_width (s : State) (e : Event) : (s.withEvent e).width = s.width := rfl

/-! ## Sequencing -/

theorem act_bind_ok {α β : Type} {x : HostAct α} {f : α → HostAct β} {h u : Session} {a : α}
    (hx : x h = (.ok a, u)) : (x >>= f) h = f a u := by
  simp only [bind, ExceptT.bind, ExceptT.mk, StateT.bind, hx]
  rfl

theorem act_bind_error {α β : Type} {x : HostAct α} {f : α → HostAct β} {h u : Session}
    {e : HostStop} (hx : x h = (.error e, u)) : (x >>= f) h = (.error e, u) := by
  simp only [bind, ExceptT.bind, ExceptT.mk, StateT.bind, hx]
  rfl

/-- A loop whose every pass keeps an assertion about the passes done. -/
theorem act_forM {α : Type} {f : α → HostAct Unit} (I : List α → Session → Prop) (l : List α)
    {h : Session} (h0 : I [] h)
    (hs : ∀ done a rest u, l = done ++ a :: rest → I done u →
      ∃ u', f a u = (.ok (), u') ∧ I (done ++ [a]) u') :
    ∃ u, l.forM f h = (.ok (), u) ∧ I l u := by
  suffices ∀ rest done u, l = done ++ rest → I done u →
      ∃ u', rest.forM f u = (.ok (), u') ∧ I l u' from this l [] h rfl h0
  intro rest
  induction rest with
  | nil => intro done u e hi; exact ⟨u, rfl, by rw [e, List.append_nil]; exact hi⟩
  | cons a rest ih =>
    intro done u e hi
    obtain ⟨u1, h1, i1⟩ := hs done a rest u e hi
    obtain ⟨u2, h2, i2⟩ := ih (done ++ [a]) u1 (by simp [e]) i1
    exact ⟨u2, (act_bind_ok h1).trans h2, i2⟩

/-- A loop over indexes. -/
theorem act_forM_range {f : Nat → HostAct Unit} (I : Nat → Session → Prop) (n : Nat) {h : Session}
    (h0 : I 0 h) (hs : ∀ j u, j < n → I j u → ∃ u', f j u = (.ok (), u') ∧ I (j + 1) u') :
    ∃ u, (List.range n).forM f h = (.ok (), u) ∧ I n u := by
  obtain ⟨u, h1, h2⟩ := act_forM (f := f) (h := h) (fun done u => I done.length u) (List.range n) h0
    fun done a rest u e hi => by
      have hl : n = done.length + (rest.length + 1) := by simpa using congrArg List.length e
      have ha : a = done.length := by
        have := congrArg (fun l => l[done.length]?) e
        simpa [show done.length < n by omega] using this.symm
      subst ha
      simpa using hs _ u (by omega) hi
  exact ⟨u, h1, by simpa using h2⟩

/-- A collecting loop whose passes give known values and keep an assertion. -/
theorem act_mapM {α β : Type} {f : α → HostAct β} (I : Session → Prop) (g : α → β) (l : List α)
    {h : Session} (h0 : I h) (hs : ∀ a u, a ∈ l → I u → ∃ u', f a u = (.ok (g a), u') ∧ I u') :
    ∃ u, l.mapM f h = (.ok (l.map g), u) ∧ I u := by
  induction l generalizing h with
  | nil => exact ⟨h, rfl, h0⟩
  | cons a l ih =>
    obtain ⟨u1, h1, i1⟩ := hs a h (by simp) h0
    obtain ⟨u2, h2, i2⟩ := ih i1 fun b u hb => hs b u (by simp [hb])
    refine ⟨u2, ?_, i2⟩
    rw [List.mapM_cons, act_bind_ok h1, act_bind_ok h2]
    rfl

/-! ## One access -/

/-- A target the host can name: its offset leads back to it. -/
structure Named (w : Nat) (t : Target) : Prop where
  target : targetOf w (offsetOf w t) = t
  decoded : offsetOf w t < decodedLimit w
  word : offsetOf w t % 4 = 0

theorem named_control {w : Nat} {t : Target} (h : offsetOf w t < 0x1000)
    (ht : controlTarget (offsetOf w t) = t) (ha : offsetOf w t % 4 = 0) : Named w t :=
  ⟨(targetOf_control w h).trans ht, Nat.not_le.mp (control_decoded w h), ha⟩

theorem named_status (w : Nat) : Named w .status :=
  named_control (by simp [offsetOf]) (by simp [offsetOf, controlTarget]) (by simp [offsetOf])
theorem named_cmd (w : Nat) : Named w .cmd :=
  named_control (by simp [offsetOf]) (by simp [offsetOf, controlTarget]) (by simp [offsetOf])
theorem named_errcode (w : Nat) : Named w .errcode :=
  named_control (by simp [offsetOf]) (by simp [offsetOf, controlTarget]) (by simp [offsetOf])
theorem named_len (w : Nat) : Named w .len :=
  named_control (by simp [offsetOf]) (by simp [offsetOf, controlTarget]) (by simp [offsetOf])
theorem named_kbytes (w : Nat) : Named w .kbytes :=
  named_control (by simp [offsetOf]) (by simp [offsetOf, controlTarget]) (by simp [offsetOf])

theorem named_regWord {w : Nat} (hw : Config.LegalWidth w) (r : RegIx) {j : Nat} (hj : j < w / 32) :
    Named w (.regWord r j) := by
  have hw' := hw
  obtain ⟨h64, h32, -⟩ := hw'
  refine ⟨targetOf_regWord hw r hj, ?_, ?_⟩
  · have := r.isLt
    have : r.toNat * (w / 8) ≤ 15 * (w / 8) := Nat.mul_le_mul_right _ (by omega)
    simp only [offsetOf, decodedLimit, bufBase, regBytes]
    omega
  · have e : w / 8 = 4 * (w / 32) := by omega
    simp only [offsetOf, regBytes, e]
    rw [Nat.mul_left_comm]
    omega

theorem named_bufWord {w : Nat} (hw : Config.LegalWidth w) {j : Nat} (hj : j < w / 32) :
    Named w (.bufWord j) := by
  have hw' := hw
  obtain ⟨h64, h32, -⟩ := hw'
  refine ⟨targetOf_bufWord hw hj, ?_, ?_⟩ <;> simp only [offsetOf, decodedLimit, bufBase, regBytes] <;>
    omega

/-- An event put in front and taken again leaves the block as it was. -/
theorem takeEvent_withEvent (s : State) (e : Event) :
    (s.withEvent e).takeEvent s.pending = s := rfl

/-- What `perform` does with a step that answers. -/
theorem perform_next (h : Session) {s t : State} {e : Event}
    (hs : step (s.withEvent e) = .next t) :
    perform e (h.withMachine s) = (.ok t.resp, h.withMachine t) := by
  show (match step (s.withEvent e) with
    | .next t => ((.ok t.resp, h.withMachine t) : Except HostStop Response × Session)
    | .fault _ => (.error .noAnswer, h.withMachine s)
    | .refused _ => (.error .noAnswer, h.withMachine s)) = _
  rw [hs]

/-- A read the block does not refuse: the value, and nothing else moves. -/
theorem readWord_open (h : Session) {s : State} {t : Target} (hn : Named s.width t)
    (ho : (s.busy && refusedRead t) = false) :
    readWord t (h.withMachine s) =
      (.ok (s.readValue t), h.withMachine (s.answer (.data (s.readValue t)))) := by
  have hs : step (s.withEvent (readFrom s.width t)) =
      .next (s.answer (.data (s.readValue t))) := by
    rw [step_read_target (s := s.withEvent (readFrom s.width t)) (es := s.pending) rfl hn.decoded
      hn.word, takeEvent_withEvent]
    show Host.Outcome.next (s.readTarget (targetOf s.width _)) = _
    simp only [hn.target, State.readTarget, ho, Bool.false_eq_true, if_false]
  unfold readWord
  rw [act_bind_ok (x := blockWidth) (a := s.width) rfl, act_bind_ok (perform_next h hs)]
  rfl

/-- A write the idle block is given: performed. -/
theorem writeWord_idle (h : Session) {s : State} {t : Target} (hn : Named s.width t)
    (hb : s.busy = false) (v : Word) :
    writeWord t v (h.withMachine s) =
      (.ok (), h.withMachine ((s.writeValue v t).answer .written)) := by
  have hs : step (s.withEvent (writeTo s.width t v)) =
      .next ((s.writeValue v t).answer .written) := by
    rw [step_write_target (s := s.withEvent (writeTo s.width t v)) (es := s.pending) rfl hn.decoded
      hn.word, takeEvent_withEvent]
    show Host.Outcome.next (s.writeTarget (targetOf s.width _) v) = _
    simp only [hn.target, State.writeTarget, hb, Bool.false_and, Bool.false_eq_true, if_false]
  unfold writeWord
  rw [act_bind_ok (x := blockWidth) (a := s.width) rfl]
  simp only [discard, Functor.discard, Functor.mapConst]
  exact act_bind_ok (perform_next h hs)

/-! ## Operands and results -/

/-- What the procedures ask of the block between two commands. -/
structure Ready (how : Waiting) (s : State) : Prop where
  width : Config.LegalWidth s.width
  idle : s.busy = false
  regs : ∀ r, s.reg r < 2 ^ s.width
  buf : Memory.wf s.buf = true
  ie : how = .interrupt → s.ie = true

theorem Ready.answer {how : Waiting} {s : State} (h : Ready how s) (x : Response) :
    Ready how (s.answer x) := ⟨h.width, h.idle, h.regs, h.buf, h.ie⟩

/-- It depends on five fields only. -/
theorem Ready.congr {how : Waiting} {s t : State} (h : Ready how s) (h1 : t.width = s.width)
    (h2 : t.busy = false) (h3 : t.regs = s.regs) (h4 : t.buf = s.buf) (h5 : t.ie = s.ie) :
    Ready how t :=
  ⟨h1 ▸ h.width, h2, fun r => by simpa only [State.reg, h1, h3] using h.regs r, h4 ▸ h.buf,
    fun e => h5 ▸ h.ie e⟩

theorem Ready.putReg {how : Waiting} {s : State} (h : Ready how s) (r : RegIx) {v : Nat}
    (hv : v < 2 ^ s.width) : Ready how (s.putReg r v) :=
  ⟨h.width, h.idle, fun i => by rw [putReg_reg]; split; exacts [hv, h.regs i], h.buf, h.ie⟩

theorem Ready.words {how : Waiting} {s : State} (h : Ready how s) : 32 * (s.width / 32) = s.width := by
  have := h.width.2.1; omega

/-- `v` in the low `32*k` bits, `x` above. -/
def splice (x v k : Nat) : Nat := x / 2 ^ (32 * k) * 2 ^ (32 * k) + v % 2 ^ (32 * k)

theorem testBit_splice (x v k i : Nat) :
    (splice x v k).testBit i = if i < 32 * k then v.testBit i else x.testBit i := by
  rw [splice, Nat.mul_comm (x / _), Nat.testBit_two_pow_mul_add _ (Nat.mod_lt _ (by positivity))]
  split
  · next h => rw [Nat.testBit_mod_two_pow]; simp [h]
  · next h => rw [Nat.testBit_div_two_pow, Nat.sub_add_cancel (by omega)]

theorem splice_zero (x v : Nat) : splice x v 0 = x := by simp [splice, Nat.mod_one]

theorem splice_succ (x v k : Nat) :
    replaceWord (splice x v k) k (wordOf v k) = splice x v (k + 1) := by
  refine Nat.eq_of_testBit_eq fun i => ?_
  rw [testBit_replaceWord, testBit_splice, testBit_splice]
  by_cases h1 : i < 32 * k
  · rw [if_neg (by omega), if_pos h1, if_pos (by omega)]
  · by_cases h2 : i < 32 * (k + 1)
    · rw [if_pos (by omega), if_pos h2, getLsbD_wordOf _ _ _ (by omega)]
      congr 1; omega
    · rw [if_neg (by omega), if_neg h1, if_neg h2]

theorem splice_all {x v k : Nat} (hx : x < 2 ^ (32 * k)) (hv : v < 2 ^ (32 * k)) :
    splice x v k = v := by
  rw [splice, Nat.div_eq_of_lt hx, Nat.mod_eq_of_lt hv, Nat.zero_mul, Nat.zero_add]

theorem putReg_same (s : State) (r : RegIx) : s.putReg r (s.reg r) = s := by
  simp [State.putReg, State.reg]

theorem putReg_twice (s : State) (r : RegIx) (v v' : Nat) :
    (s.putReg r v).putReg r v' = s.putReg r v' := by
  simp [State.putReg]

/-- One word of an operand written on top of those before it. -/
theorem putWord_idle {how : Waiting} (h : Session) {s : State} (hr : Ready how s) (r : RegIx)
    (v : Nat) {j : Nat} (hj : j < s.width / 32) (x : Response) :
    writeWord (.regWord r j) (wordOf v j)
        (h.withMachine ((s.putReg r (splice (s.reg r) v j)).answer x)) =
      (.ok (), h.withMachine ((s.putReg r (splice (s.reg r) v (j + 1))).answer .written)) := by
  rw [writeWord_idle h (s := (s.putReg r (splice (s.reg r) v j)).answer x)
    (named_regWord hr.width r hj) hr.idle]
  have e : ((s.putReg r (splice (s.reg r) v j)).answer x).reg r = splice (s.reg r) v j :=
    putReg_reg_self _ _ _
  rw [State.writeValue, State.putRegWord, e, splice_succ]
  show (_, h.withMachine (((s.putReg r _).putReg r _).answer _)) = _
  rw [putReg_twice]

/-- An integer that fits is written to its register, and nothing else changes. -/
theorem putInteger_fits {how : Waiting} (h : Session) {s : State} (hr : Ready how s) (r : RegIx)
    {v : Nat} (hv : v < 2 ^ s.width) :
    ∃ x, putInteger r v (h.withMachine s) =
      (.ok (), h.withMachine ((s.putReg r v).answer x)) := by
  obtain ⟨u, h1, x, rfl⟩ := act_forM_range
    (f := fun j => writeWord (.regWord r j) (wordOf v j)) (fun k u =>
      ∃ x, u = h.withMachine ((s.putReg r (splice (s.reg r) v k)).answer x))
    (s.width / 32) (h := h.withMachine s)
    ⟨s.resp, by rw [splice_zero, putReg_same]; rfl⟩
    fun j u hj hu => by
      obtain ⟨x, rfl⟩ := hu
      exact ⟨_, putWord_idle h hr r v hj x, .written, rfl⟩
  refine ⟨x, ?_⟩
  unfold putInteger
  rw [act_bind_ok (x := blockWidth) (a := s.width) rfl, if_pos hv,
    act_bind_ok (x := blockWidth) (a := s.width) rfl, h1,
    splice_all (by rw [hr.words]; exact hr.regs r) (by rw [hr.words]; exact hv)]

/-- An integer that does not fit is never written (rules R244, R248). -/
theorem putInteger_overflows (h : Session) {s : State} (r : RegIx) {v : Nat} (hv : 2 ^ s.width ≤ v) :
    putInteger r v (h.withMachine s) = (.error .malformed, h.withMachine s) := by
  unfold putInteger
  rw [act_bind_ok (x := blockWidth) (a := s.width) rfl, if_neg (Nat.not_lt.mpr hv)]
  rfl

theorem joinWords_range (x n : Nat) :
    joinWords ((List.range n).map (wordOf x)) = x % 2 ^ (32 * n) := by
  induction n generalizing x with
  | zero => simp [joinWords, Nat.mod_one]
  | succ n ih =>
    have e : (List.range n).map (wordOf x ∘ Nat.succ) = (List.range n).map (wordOf (x / 2 ^ 32)) := by
      refine List.map_congr_left fun j _ => ?_
      simp only [Function.comp, wordOf]
      rw [Nat.div_div_eq_div_mul, ← Nat.pow_add, Nat.mul_succ, Nat.add_comm]
    rw [List.range_succ_eq_map, List.map_cons, List.map_map, joinWords, e, ih, Nat.mul_succ,
      Nat.add_comm (32 * n), Nat.pow_add, Nat.mod_mul]
    simp [wordOf]

/-- A register is read whole, and nothing changes. -/
theorem getInteger_idle {how : Waiting} (h : Session) {s : State} (hr : Ready how s) (r : RegIx) :
    ∃ x, getInteger r (h.withMachine s) = (.ok (s.reg r), h.withMachine (s.answer x)) := by
  obtain ⟨u, h1, x, rfl⟩ := act_mapM (f := fun j => readWord (.regWord r j)) (h := h.withMachine s)
    (fun u => ∃ x, u = h.withMachine (s.answer x)) (wordOf (s.reg r))
    (List.range (s.width / 32)) ⟨s.resp, rfl⟩ fun j u hj hu => by
      obtain ⟨x, rfl⟩ := hu
      exact ⟨_, readWord_open h (s := s.answer x) (named_regWord hr.width r (List.mem_range.mp hj))
        (by simp [hr.idle]), _, rfl⟩
  refine ⟨x, ?_⟩
  unfold getInteger
  rw [act_bind_ok (x := blockWidth) (a := s.width) rfl, act_bind_ok h1, joinWords_range, hr.words,
    Nat.mod_eq_of_lt (hr.regs r)]
  rfl

theorem getD_lane_chunkWord (bytes : List Byte) (j : Nat) {b : Nat} (hb : b < 4) :
    (laneBytes (chunkWord bytes j)).getD b 0 = bytes.getD (4 * j + b) 0 := by
  rw [getD_laneBytes _ hb]
  apply BitVec.eq_of_getLsbD_eq
  intro i hi
  simp only [chunkWord, BitVec.getLsbD_extractLsb', BitVec.getLsbD_append]
  interval_cases b <;> interval_cases i <;> simp

/-- The block with another byte store. -/
def withBuf (s : State) (m : Memory) : State := { s with buf := m }

/-- A chunk is in the buffer with its length in `LEN`, and nothing else but unused buffer bytes has
changed. -/
theorem putChunk_idle {how : Waiting} (h : Session) {s : State} (hr : Ready how s)
    {bytes : List Byte} (hl : bytes.length ≤ s.width / 8) :
    ∃ m x, putChunk bytes (h.withMachine s) =
        (.ok (), h.withMachine (((withBuf s m).putLen bytes.length).answer x)) ∧
      Memory.wf m = true ∧ Memory.readBytes m 0 bytes.length = bytes := by
  obtain ⟨h64, h32, -⟩ := hr.width
  have hn : wordsFor bytes.length ≤ s.width / 32 := by simp only [wordsFor]; omega
  obtain ⟨u, h1, m, x, rfl, hm, hi⟩ := act_forM_range
    (f := fun j => writeWord (.bufWord j) (chunkWord bytes j)) (fun k u =>
      ∃ m x, u = h.withMachine ((withBuf s m).answer x) ∧ Memory.wf m = true ∧
        ∀ i, i < 4 * k → Memory.read m i = bytes.getD i 0)
    (wordsFor bytes.length) (h := h.withMachine s) ⟨s.buf, s.resp, rfl, hr.buf, by omega⟩
    fun j u hj hu => by
      obtain ⟨m, x, rfl, hm, hi⟩ := hu
      refine ⟨_, writeWord_idle h (s := (withBuf s m).answer x)
        (named_bufWord hr.width (show j < s.width / 32 by omega)) hr.idle _,
        Memory.writeBytes m (4 * j) (laneBytes (chunkWord bytes j)), .written, rfl,
        wf_writeBytes hm _ _, fun i hlt => ?_⟩
      rw [read_writeBytes hm]
      by_cases hc : 4 * j ≤ i
      · rw [if_pos ⟨hc, by simp [laneBytes]; omega⟩]
        exact (getD_lane_chunkWord bytes j (b := i - 4 * j) (by omega)).trans (by congr 1; omega)
      · rw [if_neg (by omega)]
        exact hi i (by omega)
  refine ⟨m, .written, ?_, hm, ?_⟩
  · unfold putChunk
    rw [act_bind_ok h1, writeWord_idle h (s := (withBuf s m).answer x) (named_len _) hr.idle]
    rfl
  · refine List.ext_getElem? fun i => ?_
    rw [getElem?_readBytes, Nat.zero_add]
    split
    · next hb =>
      rw [hi i (by simp only [wordsFor]; omega), List.getD_eq_getElem?_getD,
        List.getElem?_eq_getElem hb]
      rfl
    · next hb => rw [List.getElem?_eq_none (by omega)]

theorem getElem?_flatMap_lanes (f : Nat → Word) (n i : Nat) :
    (((List.range n).map f).flatMap laneBytes)[i]? =
      if i < 4 * n then (laneBytes (f (i / 4)))[i % 4]? else none := by
  induction n with
  | zero => simp
  | succ n ih =>
    have hl : (((List.range n).map f).flatMap laneBytes).length = 4 * n := by
      simp [List.length_flatMap, laneBytes, Function.comp_def, Nat.mul_comm]
    rw [List.range_succ, List.map_append, List.flatMap_append, List.getElem?_append, hl]
    split
    · next h => rw [ih, if_pos h, if_pos (by omega)]
    · next h =>
      by_cases h2 : i < 4 * (n + 1)
      · rw [if_pos h2, show i / 4 = n by omega, show i % 4 = i - 4 * n by omega]
        simp
      · rw [if_neg h2, List.getElem?_eq_none (by simp [laneBytes]; omega)]

/-- The chunk in the buffer is read, and nothing changes. -/
theorem getChunk_idle {how : Waiting} (h : Session) {s : State} (hr : Ready how s)
    (hl : s.lenArg ≤ s.width / 8) :
    ∃ x, getChunk (h.withMachine s) = (.ok (s.bufBytes s.lenArg), h.withMachine (s.answer x)) := by
  obtain ⟨h64, h32, -⟩ := hr.width
  obtain ⟨u, h1, x, rfl⟩ := act_mapM (f := fun j => readWord (.bufWord j))
    (h := h.withMachine (s.answer (.data s.len)))
    (fun u => ∃ x, u = h.withMachine (s.answer x)) s.bufWordAt
    (List.range (wordsFor s.lenArg)) ⟨_, rfl⟩ fun j u hj hu => by
      obtain ⟨x, rfl⟩ := hu
      have := List.mem_range.mp hj
      exact ⟨_, readWord_open h (s := s.answer x)
        (named_bufWord hr.width (show j < s.width / 32 by simp only [wordsFor] at this; omega))
        (by simp [hr.idle]), _, rfl⟩
  refine ⟨x, ?_⟩
  unfold getChunk
  rw [act_bind_ok (readWord_open h (named_len _) (by simp [hr.idle]))]
  refine (act_bind_ok h1).trans (congrArg (fun bs => (Except.ok bs, _)) ?_)
  refine List.ext_getElem? fun i => ?_
  rw [List.getElem?_take, State.bufBytes, getElem?_readBytes, Nat.zero_add,
    show (s.readValue .len).toNat = s.lenArg from rfl]
  split
  · next hi =>
    have hm := Nat.mod_lt i (show 0 < 4 by omega)
    have hm' : i % 4 < (laneBytes (s.bufWordAt (i / 4))).length := hm
    rw [getElem?_flatMap_lanes, if_pos (by simp only [wordsFor]; omega),
      List.getElem?_eq_getElem hm']
    have := getD_laneBytes (s.bufWordAt (i / 4)) hm
    rw [lane_bufWordAt _ _ hm, List.getD_eq_getElem?_getD, List.getElem?_eq_getElem hm',
      Option.getD_some, Nat.div_add_mod] at this
    rw [this]
    rfl
  · rfl

/-! ## One command (rule R231) -/

theorem statusWord_busy (s : State) : s.statusWord.getLsbD 0 = s.busy := by
  simp only [State.statusWord, BitVec.getLsbD_append]; simp
theorem statusWord_err (s : State) : s.statusWord.getLsbD 2 = s.err := by
  simp only [State.statusWord, BitVec.getLsbD_append]; simp
theorem statusWord_tflag (s : State) : s.statusWord.getLsbD 3 = s.tflag := by
  simp only [State.statusWord, BitVec.getLsbD_append]; simp

/-- The wait for the idle block ends at the first look. -/
theorem awaitIdle_idle (h : Session) {s : State} (hb : s.busy = false) {budget : Nat}
    (h0 : 0 < budget) :
    awaitIdle budget (h.withMachine s) =
      (.ok (), h.withMachine (s.answer (.data s.statusWord))) := by
  obtain ⟨b, rfl⟩ := Nat.exists_eq_succ_of_ne_zero (Nat.pos_iff_ne_zero.mp h0)
  rw [awaitIdle, act_bind_ok (readWord_open h (named_status _) (by simp [hb]))]
  simp only [State.readValue, statusWord_busy, hb, Bool.false_eq_true, if_false]
  rfl

/-- The operands of a command cannot be written: the procedure stops there. -/
theorem command_operands_stop {how : Waiting} (h : Session) {s : State} {u : Session}
    (hb : s.busy = false) {budget : Nat} (h0 : 0 < budget) {operands : HostAct Unit} {e : HostStop}
    (ho : operands (h.withMachine (s.answer (.data s.statusWord))) = (.error e, u)) (i : Instr) :
    command how budget operands i (h.withMachine s) = (.error e, u) := by
  unfold command
  rw [act_bind_ok (awaitIdle_idle h hb h0), act_bind_error ho]

/-- A command that ends in the engine's first move: its result is `T`, or the stop `ERR` asks for. -/
theorem command_ends {how : Waiting} (h : Session) {s s' t : State} (hb : s.busy = false)
    {budget : Nat} (h0 : 0 < budget) {operands : HostAct Unit}
    (ho : operands (h.withMachine (s.answer (.data s.statusWord))) = (.ok (), h.withMachine s'))
    (hr : Ready how s') {i : Instr} (hi : decode (encode i) = .ok i)
    (hx : exec i ((s'.issue (encode i)).answer .written) = .next t) (htb : t.busy = false)
    (htd : t.done = true) (hte : t.ie = s'.ie) :
    ∃ x, command how budget operands i (h.withMachine s) =
      (if t.err then .error (.commandError (BitVec.setWidth 32 t.errcode.number)) else .ok t.tflag,
        h.withMachine (t.answer x)) := by
  obtain ⟨b, rfl⟩ := Nat.exists_eq_succ_of_ne_zero (Nat.pos_iff_ne_zero.mp h0)
  have hs : step (((s'.issue (encode i)).answer .written).withEvent .engine) = .next t := by
    rw [step_engine (s := ((s'.issue (encode i)).answer .written).withEvent .engine)
      (es := s'.pending) rfl]
    show engineTurn ((s'.issue (encode i)).answer .written) = _
    rw [engineTurn, if_pos (show ((s'.issue (encode i)).answer .written).busy = true from rfl), runLatched,
      show ((s'.issue (encode i)).answer .written).cmdlatch = encode i from rfl, hi, ← hx]
  have hd : discard (perform .engine) (h.withMachine ((s'.issue (encode i)).answer .written)) =
      (.ok (), h.withMachine t) := by
    simp only [discard, Functor.discard, Functor.mapConst]
    exact act_bind_ok (perform_next h hs)
  have hw : ∃ x, awaitCompletion how (b + 1) (h.withMachine ((s'.issue (encode i)).answer .written)) =
      (.ok (), h.withMachine (t.answer x)) := by
    unfold awaitCompletion
    rw [act_bind_ok hd]
    cases how with
    | polling =>
      have he : ended .polling (h.withMachine t) =
          (.ok true, h.withMachine (t.answer (.data t.statusWord))) := by
        refine (act_bind_ok (readWord_open h (s := t) (named_status _) (by simp [htb]))).trans ?_
        simp only [State.readValue, statusWord_busy, htb]
        rfl
      exact ⟨_, act_bind_ok he⟩
    | interrupt =>
      have he : ended .interrupt (h.withMachine t) = (.ok true, h.withMachine t) := by
        show ((.ok (t.ie && t.done), h.withMachine t) : Except HostStop Bool × Session) = _
        rw [hte, hr.ie rfl, htd]
        rfl
      exact ⟨t.resp, act_bind_ok he⟩
  obtain ⟨x, hw⟩ := hw
  unfold command
  rw [act_bind_ok (awaitIdle_idle h hb h0), act_bind_ok ho,
    act_bind_ok (writeWord_idle h (named_cmd _) hr.idle _),
    show s'.writeValue (encode i) .cmd = s'.issue (encode i) from rfl, act_bind_ok hw,
    act_bind_ok (readWord_open h (named_status _) (by simp [htb]))]
  simp only [State.readValue, statusWord_err, statusWord_tflag,
    show (t.answer x).statusWord = t.statusWord from rfl]
  cases he : t.err with
  | false => exact ⟨_, rfl⟩
  | true =>
    simp only [if_true]
    rw [act_bind_ok (readWord_open h (named_errcode _) (by simp [htb]))]
    exact ⟨_, rfl⟩

end Sys2Proof.Laws
end

