-- ==== Sys2Proof/Laws/HostText.lean ====
section
/-! SUPPORT. Hexadecimal text read back, lines and chunks (rules R235, R242). -/

namespace Sys2Proof.Laws

open Sys2Proof Sys2Proof.Machine

theorem digitValue_hexDigit {d : Nat} (h : d < 16) : digitValue 16 (hexDigit d) = some d := by
  interval_cases d <;> rfl

theorem hexDigit_ne_newline {d : Nat} (h : d < 16) : hexDigit d ≠ '\n' := by
  interval_cases d <;> decide

theorem length_hexLoop (fuel n : Nat) (acc : List Char) :
    (hexLoop fuel n acc).length = (hexLoop fuel n []).length + acc.length := by
  induction fuel generalizing n acc with
  | zero => simp [hexLoop]
  | succ fuel ih =>
    rw [hexLoop, hexLoop]
    split
    · simp
    · rw [ih, ih _ [_]]; simp; omega

/-- The digits written in front of a text are read before it. -/
theorem digitsValue_hexLoop {fuel n : Nat} (acc : List Char) (h : n < 2 ^ fuel) (start : Nat) :
    digitsValue 16 start (hexLoop fuel n acc) =
      digitsValue 16
        (if n = 0 then start else start * 16 ^ (hexLoop fuel n []).length + n) acc := by
  induction fuel generalizing n acc with
  | zero =>
    obtain rfl : n = 0 := by simpa using h
    simp [hexLoop]
  | succ fuel ih =>
    rw [hexLoop]
    split
    · rfl
    · next h0 =>
      have hlt : n / 16 < 2 ^ fuel := by rw [Nat.pow_succ] at h; omega
      rw [ih _ hlt, digitsValue, digitValue_hexDigit (Nat.mod_lt _ (by omega)), hexLoop, if_neg h0,
        length_hexLoop _ _ [_], Option.bind_some]
      congr 1
      by_cases h1 : n / 16 = 0
      · have h2 : hexLoop fuel 0 [] = [] := by cases fuel <;> rfl
        rw [if_pos h1, h1, h2]
        simp only [List.length_nil, List.length_singleton, Nat.zero_add, Nat.pow_one]
        omega
      · have := Nat.div_add_mod n 16
        rw [if_neg h1, List.length_singleton, Nat.pow_succ, Nat.add_mul, ← Nat.mul_assoc]
        omega

/-- Hexadecimal text is read back (rule R235). -/
theorem parseHex_hexText (n : Nat) : parseHex (hexText n) = some n := by
  rw [hexText]
  split
  · next h => subst h; rfl
  · next h =>
    have key := digitsValue_hexLoop [] (lt_two_pow_bitlength n) 0
    rw [if_neg h] at key
    rw [parseHex]
    cases hc : hexLoop (bitlength n) n [] with
    | nil =>
      rw [hc] at key
      simp only [digitsValue, List.length_nil, Nat.zero_mul, Nat.zero_add, Option.some.injEq] at key
      omega
    | cons c cs => rw [numeral, ← hc, key]; simp [digitsValue]

theorem newline_notMem_hexLoop (fuel n : Nat) {acc : List Char} (h : '\n' ∉ acc) :
    '\n' ∉ hexLoop fuel n acc := by
  induction fuel generalizing n acc with
  | zero => exact h
  | succ fuel ih =>
    rw [hexLoop]
    split
    · exact h
    · refine ih _ ?_
      rw [List.mem_cons, not_or]
      exact ⟨(hexDigit_ne_newline (Nat.mod_lt _ (by omega))).symm, h⟩

theorem newline_notMem_hexText (n : Nat) : '\n' ∉ hexText n := by
  rw [hexText]
  split
  · decide
  · exact newline_notMem_hexLoop _ _ (by simp)

/-- The first line of a text. -/
theorem textLines_line {l : List Char} (rest : List Char) (h : '\n' ∉ l) :
    textLines (l ++ '\n' :: rest) = l :: textLines rest := by
  induction l with
  | nil => rfl
  | cons c cs ih =>
    rw [List.mem_cons, not_or] at h
    rw [List.cons_append, textLines, ih h.2]
    exact fun e => h.1 e.symm

/-- The chunks of a stream: together the stream, each of at most `size` bytes, one more than `size`
goes into the stream's length. -/
theorem chunksLoop_spec {size fuel : Nat} {bs : List Byte} (hs : 0 < size) (h : bs.length < fuel) :
    (chunksLoop size fuel bs).flatten = bs ∧ (∀ c ∈ chunksLoop size fuel bs, c.length ≤ size) ∧
      (chunksLoop size fuel bs).length = bs.length / size + 1 := by
  induction fuel generalizing bs with
  | zero => omega
  | succ fuel ih =>
    rw [chunksLoop]
    split
    · next hl => exact ⟨by simp, by simp; omega, by simp [Nat.div_eq_of_lt hl]⟩
    · next hl =>
      obtain ⟨h1, h2, h3⟩ := ih (bs := bs.drop size) (by simp; omega)
      refine ⟨by simp [h1], fun x hx => ?_, ?_⟩
      · rcases List.mem_cons.mp hx with rfl | hx
        · simp
        · exact h2 x hx
      · have e : bs.length = (bs.length - size) + size := by omega
        rw [List.length_cons, h3, List.length_drop]
        conv_rhs => rw [e, Nat.add_div_right _ hs]

end Sys2Proof.Laws
end

