-- ==== Sys2Proof/Laws/PerInstr.lean ====
section
/-! SUPPORT. Facts about every command as syntax, one lemma per constructor. -/

namespace Sys2Proof.Laws.MatchesRow

open Sys2Proof

/-- The word of a command matches a row of the opcode table under its format's mask (rule R99). -/
def Statement (i : Instr) : Prop :=
  ∃ row ∈ opcodeTable, encode i &&& formatMask row.fmt = matchWord row.code

theorem nop : Statement (.nop) :=
  ⟨opcodeTable[0], List.getElem_mem _, mask_wordN 0x00⟩

theorem mov (rd rs : RegIx) : Statement (.mov rd rs) :=
  ⟨opcodeTable[1], List.getElem_mem _, mask_wordR2 0x01 rd rs⟩

theorem ldi (rd : RegIx) (imm : Imm16) : Statement (.ldi rd imm) :=
  ⟨opcodeTable[2], List.getElem_mem _, mask_wordI 0x02 rd imm⟩

theorem clr (rd : RegIx) : Statement (.clr rd) :=
  ⟨opcodeTable[3], List.getElem_mem _, mask_wordR1 0x03 rd⟩

theorem clrall : Statement (.clrall) :=
  ⟨opcodeTable[4], List.getElem_mem _, mask_wordN 0x04⟩

theorem seed : Statement (.seed) :=
  ⟨opcodeTable[5], List.getElem_mem _, mask_wordN 0x08⟩

theorem rngclr : Statement (.rngclr) :=
  ⟨opcodeTable[6], List.getElem_mem _, mask_wordN 0x09⟩

theorem gcd (rd ra rb : RegIx) : Statement (.gcd rd ra rb) :=
  ⟨opcodeTable[7], List.getElem_mem _, mask_wordR3 0x10 rd ra rb⟩

theorem modinv (rd ra rn : RegIx) : Statement (.modinv rd ra rn) :=
  ⟨opcodeTable[8], List.getElem_mem _, mask_wordR3 0x11 rd ra rn⟩

theorem modmul (rd ra rb rm : RegIx) : Statement (.modmul rd ra rb rm) :=
  ⟨opcodeTable[9], List.getElem_mem _, mask_wordR4 0x12 rd ra rb rm⟩

theorem powmod (rd rb re rm : RegIx) : Statement (.powmod rd rb re rm) :=
  ⟨opcodeTable[10], List.getElem_mem _, mask_wordR4 0x13 rd rb re rm⟩

theorem isprime (rn : RegIx) : Statement (.isprime rn) :=
  ⟨opcodeTable[11], List.getElem_mem _, mask_wordR1 0x20 rn⟩

theorem mkprime (rd : RegIx) : Statement (.mkprime rd) :=
  ⟨opcodeTable[12], List.getElem_mem _, mask_wordR1 0x21 rd⟩

theorem mkpub (rp rq rn re : RegIx) : Statement (.mkpub rp rq rn re) :=
  ⟨opcodeTable[13], List.getElem_mem _, mask_wordR4 0x30 rp rq rn re⟩

theorem mkpriv (rd re rp rq : RegIx) : Statement (.mkpriv rd re rp rq) :=
  ⟨opcodeTable[14], List.getElem_mem _, mask_wordR4 0x31 rd re rp rq⟩

theorem verify (rs re rn rm : RegIx) : Statement (.verify rs re rn rm) :=
  ⟨opcodeTable[15], List.getElem_mem _, mask_wordR4 0x32 rs re rn rm⟩

theorem blksz (rn : RegIx) : Statement (.blksz rn) :=
  ⟨opcodeTable[16], List.getElem_mem _, mask_wordR1 0x40 rn⟩

theorem encblk (rd re rn : RegIx) : Statement (.encblk rd re rn) :=
  ⟨opcodeTable[17], List.getElem_mem _, mask_wordR3 0x41 rd re rn⟩

theorem decblk (rc rd rn : RegIx) : Statement (.decblk rc rd rn) :=
  ⟨opcodeTable[18], List.getElem_mem _, mask_wordR3 0x42 rc rd rn⟩

end Sys2Proof.Laws.MatchesRow
end

