-- ==== Sys2Proof/Tests/Slice0.lean ====
section
/-! SUPPORT. Tests: the ill-formed terms WellFormed refuses, every command's word decoded, one-step tests
against the vectors of `95_test_vectors.md`, and for every statement with hypotheses a witness that meets
them. -/

namespace Sys2Proof.Tests

open Sys2Proof Sys2Proof.Machine

-- One theorem at a time: many kernel evaluations waiting at once would need a thread each.
set_option Elab.async false

/-! ## WellFormed refuses each coincidence of `MKPUB`'s destinations (rule R101) -/

theorem test_wf_accepts : (Instr.mkpub 4 5 0 1).wf = true := by decide
theorem test_wf_p_q : (Instr.mkpub 4 4 0 1).wf = false := by decide
theorem test_wf_p_n : (Instr.mkpub 4 5 4 1).wf = false := by decide
theorem test_wf_p_e : (Instr.mkpub 4 5 0 4).wf = false := by decide
theorem test_wf_q_n : (Instr.mkpub 4 5 5 1).wf = false := by decide
theorem test_wf_q_e : (Instr.mkpub 4 5 0 5).wf = false := by decide
theorem test_wf_n_e : (Instr.mkpub 4 5 0 0).wf = false := by decide
theorem test_wf_others : (Instr.powmod 1 1 1 1).wf = true := by decide

/-! ## Decoding: the words of `30_encoding.md` section 7 and `95_test_vectors.md` section 2.1, bit by
bit as opcode, fields, zeros -/

theorem test_decode_nop : decode 0b00000000_0000_0000_0000_0000_00000000 = .ok .nop := by decide
theorem test_decode_mov : decode 0b00000001_0001_0010_0000_0000_00000000 = .ok (.mov 1 2) := by
  decide
theorem test_decode_ldi : decode 0b00000010_0000_0000_0000_1100_10100001 = .ok (.ldi 0 3233) := by
  decide
theorem test_decode_clr : decode 0b00000011_0101_0000_0000_0000_00000000 = .ok (.clr 5) := by decide
theorem test_decode_clrall : decode 0b00000100_0000_0000_0000_0000_00000000 = .ok .clrall := by
  decide
theorem test_decode_seed : decode 0b00001000_0000_0000_0000_0000_00000000 = .ok .seed := by decide
theorem test_decode_rngclr : decode 0b00001001_0000_0000_0000_0000_00000000 = .ok .rngclr := by
  decide
theorem test_decode_gcd : decode 0b00010000_0011_0001_0010_0000_00000000 = .ok (.gcd 3 1 2) := by
  decide
theorem test_decode_modinv :
    decode 0b00010001_0100_0001_0000_0000_00000000 = .ok (.modinv 4 1 0) := by decide
theorem test_decode_modmul :
    decode 0b00010010_0011_0001_0010_0000_00000000 = .ok (.modmul 3 1 2 0) := by decide
theorem test_decode_powmod :
    decode 0b00010011_0111_0110_0001_0000_00000000 = .ok (.powmod 7 6 1 0) := by decide
theorem test_decode_isprime :
    decode 0b00100000_0100_0000_0000_0000_00000000 = .ok (.isprime 4) := by decide
theorem test_decode_mkprime :
    decode 0b00100001_0100_0000_0000_0000_00000000 = .ok (.mkprime 4) := by decide
theorem test_decode_mkpub :
    decode 0b00110000_0100_0101_0000_0001_00000000 = .ok (.mkpub 4 5 0 1) := by decide
theorem test_decode_mkpriv :
    decode 0b00110001_0010_0001_0100_0101_00000000 = .ok (.mkpriv 2 1 4 5) := by decide
theorem test_decode_verify :
    decode 0b00110010_0011_0001_0000_0110_00000000 = .ok (.verify 3 1 0 6) := by decide
theorem test_decode_blksz : decode 0b01000000_0000_0000_0000_0000_00000000 = .ok (.blksz 0) := by
  decide
theorem test_decode_encblk :
    decode 0b01000001_0111_0001_0000_0000_00000000 = .ok (.encblk 7 1 0) := by decide
theorem test_decode_decblk :
    decode 0b01000010_0111_0010_0000_0000_00000000 = .ok (.decblk 7 2 0) := by decide

theorem test_decode_limits :
    decode 0x13FFFF00 = .ok (.powmod 15 15 15 15) ∧ decode 0x0200FFFF = .ok (.ldi 0 65535) ∧
      decode 0x02F00000 = .ok (.ldi 15 0) := by decide
theorem test_decode_unassigned :
    decode 0x05000000 = .error (.unassignedOpcode 0x05) ∧
      decode 0x14000000 = .error (.unassignedOpcode 0x14) ∧
      decode 0xFFFFFFFF = .error (.unassignedOpcode 0xFF) := by decide
theorem test_decode_reserved_bits :
    decode 0x00000001 = .error (.reservedBits 0x00) ∧ decode 0x00100000 = .error (.reservedBits 0x00) ∧
      decode 0x01120001 = .error (.reservedBits 0x01) ∧
      decode 0x02010CA1 = .error (.reservedBits 0x02) ∧
      decode 0x03501000 = .error (.reservedBits 0x03) ∧
      decode 0x10312001 = .error (.reservedBits 0x10) ∧
      decode 0x21400100 = .error (.reservedBits 0x21) ∧
      decode 0x30450105 = .error (.reservedBits 0x30) := by decide
theorem test_decode_coinciding :
    decode 0x30440100 = .error .coincidingDestinations ∧
      decode 0x30450000 = .error .coincidingDestinations := by decide
theorem test_decode_table_word :
    decodeTableWord 32 0x41710000 = some (.encblk 7 1 0) ∧ decodeTableWord 32 0x05000000 = none := by
  decide

/-! ## Assembler (rules R105, R106, R108; words of `95_test_vectors.md` P1) -/

theorem test_assemble_alias :
    assemble ['M', 'K', 'P', 'R', 'I', 'V', ' ', 'D', ',', ' ', 'E', ',', ' ', 'P', ',', ' ', 'Q'] =
      some 0x31214500 := by decide
theorem test_assemble_pseudo :
    assemble ['S', 'I', 'G', 'N', ' ', 'S', ',', 'M', ',', 'D', ',', 'N', ' ', '-', '-', 'x'] =
      some 0x13362000 := by decide
theorem test_assemble_immediate :
    assemble ['L', 'D', 'I', ' ', 'R', '1', '5', ',', ' ', '0', 'x', '4', '1'] =
      some 0x02F00041 := by decide

/-! ## States for tests and witnesses: `W = 64`, reset but for what is given -/

/-- Registers, buffer bytes and `LEN`, generator state, `BITS`, `ITERS`, pending events. -/
structure Setup where
  regs : List (RegIx × Nat) := []
  bytes : List Byte := []
  g : Option Nat := none
  bits : Word := 0
  iters : Word := 0
  pending : List Event := []

/-- Registers written one after the other. -/
def putRegs (s : State) : List (RegIx × Nat) → State
  | [] => s
  | p :: ps => putRegs (s.putReg p.1 p.2) ps

/-- The idle state of a setup. -/
def idle (x : Setup) : State :=
  { putRegs (State.resetAt 64) x.regs with
    buf := Memory.writeBytes [] 0 x.bytes, len := BitVec.ofNat 32 x.bytes.length, g := x.g,
    bits := x.bits, iters := x.iters, pending := x.pending }

/-- The same with a command issued. -/
def running (x : Setup) (v : Word) : State := (idle x).issue v

/-- A register of the next state. -/
def regOf (r : RegIx) : Host.Outcome State Fault Refusal → Option Nat
  | .next t => some (t.reg r)
  | .fault _ => none
  | .refused _ => none

/-- `STATUS`, `ERRCODE` of the next state. -/
def statusOf : Host.Outcome State Fault Refusal → Option (Word × ErrCode)
  | .next t => some (t.statusWord, t.errcode)
  | .fault _ => none
  | .refused _ => none

/-- The generator state of the next state. -/
def genOf : Host.Outcome State Fault Refusal → Option (Option Nat)
  | .next t => some t.g
  | .fault _ => none
  | .refused _ => none

/-- The bytes of the chunk the next state holds. -/
def chunkOf : Host.Outcome State Fault Refusal → Option (List Byte)
  | .next t => some (t.bufBytes t.lenArg)
  | .fault _ => none
  | .refused _ => none

/-- The answer at the port in the next state. -/
def respOf : Host.Outcome State Fault Refusal → Option Response
  | .next t => some t.resp
  | .fault _ => none
  | .refused _ => none

/-- A source whose draws are the list's values in call order; generator state `k` has made `k` draws. -/
def script (l : List Nat) : RandSource where
  init _ := 0
  bits g _ := (l.getD g 0, g + 1)
  below g _ := (l.getD g 0, g + 1)

/-! ## One-step tests (vectors of `95_test_vectors.md`) -/

theorem test_nop :
    statusOf (step (State.reset.withFetchWord 32 0x00000000)) = some (0x02, .none) := by
  decide +kernel

theorem test_mov_largest :
    regOf 1 (exec (.mov 1 2) (running { regs := [(2, 2 ^ 64 - 1)] } 0x01120000)) =
      some (2 ^ 64 - 1) := by decide +kernel

theorem test_ldi_no_sign_extension :
    regOf 0 (exec (.ldi 0 0xFFFF) (running { regs := [(0, 2 ^ 64 - 1)] } 0x0200FFFF)) = some 65535 := by
  decide +kernel

theorem test_clr : regOf 5 (exec (.clr 5) (running { regs := [(5, 77)] } 0x03500000)) = some 0 := by
  decide +kernel

theorem test_clrall_keeps_parameters :
    (match exec .clrall (running
        { regs := [(3, 1)], bytes := [0xAA], g := some 3, bits := 256, iters := 50 }
        0x04000000) with
      | .next t => (t.reg 3 == 0) && (t.buf == []) && (t.len == 0) && (t.g == none) &&
          (t.bits == 256) && (t.iters == 50)
      | _ => false) = true := by decide +kernel

theorem test_seed_reads_both_halves :
    genOf (seedWith ⟨fun s => s.toNat, fun g _ => (0, g), fun g _ => (0, g)⟩
      { idle { g := some 9 } with seedHi := 1 }) = some (some (2 ^ 32)) := by decide +kernel

theorem test_rngclr : genOf (exec .rngclr (running { g := some 9 } 0x09000000)) = some none := by
  decide +kernel

theorem test_gcd : regOf 3 (exec (.gcd 3 1 2) (idle { regs := [(1, 1071), (2, 462)] })) = some 21 := by
  decide +kernel
theorem test_gcd_destination_is_source :
    regOf 1 (exec (.gcd 1 1 2) (idle { regs := [(1, 12), (2, 18)] })) = some 6 := by decide +kernel

theorem test_modinv :
    regOf 3 (exec (.modinv 3 1 2) (idle { regs := [(1, 17), (2, 780)] })) = some 413 := by
  decide +kernel
theorem test_modinv_none :
    (regOf 3 (exec (.modinv 3 1 2) (idle { regs := [(1, 6), (2, 9), (3, 5)] })),
      statusOf (exec (.modinv 3 1 2) (idle { regs := [(1, 6), (2, 9), (3, 5)] }))) =
      (some 0, some (0x02, .none)) := by decide +kernel

theorem test_modmul_product_exact :
    regOf 3 (exec (.modmul 3 1 2 4)
      (idle { regs := [(1, 2 ^ 63), (2, 2 ^ 63), (4, 2 ^ 64 - 59)] })) =
      some 13835058055282164538 := by decide +kernel

theorem test_powmod :
    regOf 3 (exec (.powmod 3 1 2 4) (idle { regs := [(1, 65), (2, 17), (4, 3233)] })) =
      some 2790 := by decide +kernel
theorem test_powmod_exponent_zero_modulus_one :
    regOf 3 (exec (.powmod 3 1 2 4) (idle { regs := [(1, 5), (4, 1)] })) = some 1 := by
  decide +kernel

theorem test_isprime_second_witness_rejects :
    (genOf (isprimeWith (script [172, 135]) 4 (idle { regs := [(4, 221)], g := some 0, iters := 2 })),
      statusOf (isprimeWith (script [172, 135]) 4
        (idle { regs := [(4, 221)], g := some 0, iters := 2 }))) =
      (some (some 2), some (0x12, .none)) := by decide +kernel
theorem test_isprime_strong_liar :
    statusOf (isprimeWith (script [172]) 4 (idle { regs := [(4, 221)], g := some 0, iters := 1 })) =
      some (0x1A, .none) := by decide +kernel

theorem test_mkprime_two_candidates :
    regOf 4 (movesOf (mkprimeWith (script [5, 0, 7, 3, 5]) 4) 2
      (running { g := some 0, bits := 4, iters := 2 } 0x21400000)) = some 23 := by decide +kernel
theorem test_mkprime_largest :
    regOf 4 (mkprimeWith (script [2 ^ 63 - 1]) 4 (running { g := some 0, bits := 63 } 0x21400000)) =
      some (2 ^ 64 - 1) := by decide +kernel

/-- The draws of `95_test_vectors.md` section 2.5. -/
def keyDraws : List Nat := [2, 1, 0, 5, 0, 3, 5, 10, 7]

theorem test_mkpub :
    (match movesOf (mkpubWith (script keyDraws) 4 5 0 1) 6
        (running { g := some 0, bits := 12, iters := 1 } 0x30450100) with
      | .next t => (t.reg 4 == 37) && (t.reg 5 == 131) && (t.reg 0 == 4847) && (t.reg 1 == 7) &&
          (t.g == some 9) && (t.statusWord == 0x12)
      | _ => false) = true := by decide +kernel
theorem test_mkpub_two_bits_is_small :
    statusOf (movesOf (mkpubWith (script []) 4 5 0 1) 2
      (running { g := some 0, bits := 2, iters := 1 } 0x30450100)) = some (0x16, .smalln) := by
  decide +kernel

theorem test_mkpriv :
    regOf 2 (exec (.mkpriv 2 1 4 5) (idle { regs := [(1, 17), (4, 61), (5, 53)] })) = some 413 := by
  decide +kernel
theorem test_mkpriv_overflow :
    (regOf 0 (exec (.mkpriv 0 3 1 2)
        (idle { regs := [(0, 9), (1, 2 ^ 64 - 1), (2, 2 ^ 64 - 3), (3, 5)] })),
      statusOf (exec (.mkpriv 0 3 1 2)
        (idle { regs := [(0, 9), (1, 2 ^ 64 - 1), (2, 2 ^ 64 - 3), (3, 5)] }))) =
      (some 9, some (0x06, .overflow)) := by decide +kernel

theorem test_verify_true :
    statusOf (exec (.verify 3 1 0 6)
      (idle { regs := [(3, 588), (1, 17), (0, 3233), (6, 65)] })) = some (0x0A, .none) := by
  decide +kernel
theorem test_verify_message_not_reduced :
    statusOf (exec (.verify 3 1 0 6)
      (idle { regs := [(3, 588), (1, 17), (0, 3233), (6, 3298)] })) = some (0x02, .none) := by
  decide +kernel

theorem test_blksz :
    (match exec (.blksz 0) (idle { regs := [(0, 4611686138686472687)] }) with
      | .next t => t.kbytes
      | _ => 0) = 7 := by decide +kernel
theorem test_blksz_256 :
    (match exec (.blksz 0) (idle { regs := [(0, 256)] }) with
      | .next t => t.kbytes
      | _ => 0) = 1 := by decide +kernel

theorem test_encblk :
    regOf 7 (exec (.encblk 7 1 0)
      (idle { regs := [(0, 4611686138686472687), (1, 65537)],
              bytes := [0x68, 0x65, 0x6C, 0x6C, 0x6F] })) = some 249654646903083637 := by
  decide +kernel
theorem test_encblk_empty_chunk :
    regOf 7 (exec (.encblk 7 1 0) (idle { regs := [(0, 1022117), (1, 5)] })) = some 283234 := by
  decide +kernel

theorem test_decblk :
    chunkOf (exec (.decblk 7 2 0)
      (idle { regs := [(7, 249654646903083637), (2, 1474308284552292965),
        (0, 4611686138686472687)] })) = some [0x68, 0x65, 0x6C, 0x6C, 0x6F] := by decide +kernel
theorem test_decblk_zero :
    statusOf (exec (.decblk 7 2 0) (idle { regs := [(2, 51005), (0, 1022117)] })) =
      some (0x06, .badblock) := by decide +kernel

/-! ## The port (`95_test_vectors.md` section 2.7) -/

theorem test_read_id : respOf (step (idle { pending := [.read 0x000 4] })) =
    some (.data 0x52534101) := by decide +kernel
theorem test_write_register_word :
    regOf 1 (step (idle { regs := [(1, 5)], pending := [.write 0x100C 4 1] })) =
      some (2 ^ 32 + 5) := by decide +kernel
theorem test_read_buffer_word :
    respOf (step (idle { bytes := [0x68, 0x65, 0x6C, 0x6C], pending := [.read 0x1080 4] })) =
      some (.data 0x6C6C6568) := by decide +kernel
theorem test_last_register_word :
    targetOf 64 0x107C = .regWord 15 1 ∧ targetOf 64 0x1084 = .bufWord 1 ∧
      targetOf 64 0x1088 = .outside ∧ targetOf 4096 0x2E00 = .regWord 15 0 := by decide +kernel
theorem test_half_word_is_bus_error :
    respOf (step (idle { pending := [.write 0x024 2 7] })) = some .busError := by decide +kernel
theorem test_busy_window_read_refused :
    (respOf (step { running {} 0 with pending := [.read 0x1000 4] }),
      statusOf (step { running {} 0 with pending := [.read 0x1000 4] })) =
      (some (.data 0), some (0x21, .none)) := by decide +kernel
theorem test_abort_of_search :
    statusOf (step
      { running { regs := [(4, 77)], g := some 1, bits := 4, iters := 2 } 0x21400000 with
        pending := [.write 0x018 4 1] }) =
      some (0x06, .aborted) := by decide +kernel

/-! ## Host text (`95_test_vectors.md` section 2.9) -/

theorem test_hex : hexText 933459 = ['e', '3', 'e', '5', '3'] ∧ hexText 0 = ['0'] := by
  decide +kernel
theorem test_base62 :
    base62 ['a', 'l', 'i', 'c', 'e'] = some 152838198 ∧ base62 ['a', ' ', 'b'] = none ∧
      base62 [] = some 0 := by decide +kernel
theorem test_identity_must_fit :
    identityInteger 32 ['a', 'l', 'i', 'c', 'e'] = some 152838198 ∧
      identityInteger 27 ['a', 'l', 'i', 'c', 'e'] = none := by decide +kernel
theorem test_line_must_fit :
    plainChunk 64 1022117 51005 ['1', '0', '0', '0', '0', '0', '0', '0', '0', '0', '0', '0', '0', '0',
      '0', '0', '0'] = none ∧ plainChunk 64 0 5 ['1'] = none ∧
      plainChunk 64 1022117 51005 ['e', '3', 'e', '5', '3'] = some [0x68] := by decide +kernel
/-- A host that has waited long enough aborts (rule R231). -/
theorem test_wait_ends_in_abort :
    ((awaitCompletion .polling 0).run ⟨running { g := some 1 } 0x21400000, [], []⟩).2.machine.errcode =
      .aborted := by decide +kernel
theorem test_stream_lines :
    cipherLines 1022117 5 [0x68] = some [['e', '3', 'e', '5', '3'], ['4', '5', '2', '6', '2']] := by
  decide +kernel

/-! ## The test states meet the invariant -/

theorem putRegs_width (s : State) (ps : List (RegIx × Nat)) : (putRegs s ps).width = s.width := by
  induction ps generalizing s with
  | nil => rfl
  | cons p ps ih => rw [putRegs, ih]; rfl

theorem putRegs_values {s : State} (h : Laws.ValuesSound s) (ps : List (RegIx × Nat))
    (hp : ∀ p ∈ ps, p.2 < 2 ^ s.width) : Laws.ValuesSound (putRegs s ps) := by
  induction ps generalizing s with
  | nil => exact h
  | cons p ps ih =>
    rw [putRegs]
    exact ih (Laws.putReg_values h p.1 (hp p (by simp))) fun q hq => hp q (by simp [hq])

theorem putRegs_idle (s : State) (ps : List (RegIx × Nat)) :
    (putRegs s ps).busy = s.busy ∧ (putRegs s ps).err = s.err ∧
      (putRegs s ps).errcode = s.errcode ∧ (putRegs s ps).passes = s.passes ∧
      (putRegs s ps).kbytes = s.kbytes := by
  induction ps generalizing s with
  | nil => exact ⟨rfl, rfl, rfl, rfl, rfl⟩
  | cons p ps ih => rw [putRegs]; exact ih _

/-- Every test state is sound. -/
theorem idle_inv (x : Setup) (hr : ∀ p ∈ x.regs, p.2 < 2 ^ 64) (hb : x.bytes.length ≤ 8) :
    (idle x).Inv := by
  have h0 : Laws.ValuesSound (State.resetAt 64) :=
    ⟨fun r => by simp [State.reg, State.resetAt], rfl, fun _ _ => rfl, by decide⟩
  have hv := putRegs_values h0 x.regs hr
  have hw : (putRegs (State.resetAt 64) x.regs).width = 64 := putRegs_width _ _
  obtain ⟨e1, e2, e3, e4, e5⟩ := putRegs_idle (State.resetAt 64) x.regs
  refine ⟨?_, hv.regs, Laws.wf_writeBytes rfl 0 _, fun i hi => ?_, hv.kbytes, ?_, ?_, ?_⟩
  · exact hw ▸ (by decide)
  · have hi' : 8 ≤ i := by
      have : regBytes (idle x).width = 8 := by
        show regBytes (putRegs (State.resetAt 64) x.regs).width = 8
        rw [hw]; rfl
      omega
    show Memory.read (Memory.writeBytes [] 0 x.bytes) i = 0
    rw [Laws.read_writeBytes rfl, if_neg (by omega)]
    rfl
  · intro hbusy; exact absurd (e1.symm.trans hbusy) (by simp [State.resetAt])
  · intro _
    show (putRegs (State.resetAt 64) x.regs).err = true ↔
      (putRegs (State.resetAt 64) x.regs).errcode ≠ .none
    rw [e2, e3]; simp [State.resetAt]
  · intro _; exact e4

theorem running_inv (x : Setup) (v : Word) (hr : ∀ p ∈ x.regs, p.2 < 2 ^ 64)
    (hb : x.bytes.length ≤ 8) : (running x v).Inv := by
  have h := idle_inv x hr hb
  exact ⟨h.width, h.regs, h.canonical, h.inBuf, h.kbytes, fun _ => ⟨rfl, rfl⟩, by simp [running],
    fun _ => rfl⟩

/-! ## Witnesses: for each statement with hypotheses, a state and operands that meet them, at the ends
of their ranges -/

theorem witness_DecodeEncodeRoundTrip :
    ∃ i : Instr, i.wf = true :=
  ⟨.mkpub 4 5 0 1, by decide⟩

theorem witness_DecodedWordIsItsEncoding :
    ∃ (v : Word) (i : Instr), decode v = .ok i :=
  ⟨0x13FFFF00, .powmod 15 15 15 15, by decide⟩

theorem witness_DecodingFollowsMatchAndMask_row :
    ∃ v : Word, ∃ row ∈ opcodeTable, v &&& formatMask row.fmt = matchWord row.code ∧
      (row.make (fieldA v) (fieldB v) (fieldC v) (fieldD v) (fieldImm v)).wf = true :=
  ⟨0x30450100, opcodeTable[13], List.getElem_mem _, by decide, by decide⟩

theorem witness_DecodingFollowsMatchAndMask_coinciding :
    ∃ v : Word, ∃ row ∈ opcodeTable, v &&& formatMask row.fmt = matchWord row.code ∧
      (row.make (fieldA v) (fieldB v) (fieldC v) (fieldD v) (fieldImm v)).wf = false :=
  ⟨0x30440100, opcodeTable[13], List.getElem_mem _, by decide, by decide⟩

theorem witness_DecodingFollowsMatchAndMask_none :
    ∃ v : Word, ∀ row ∈ opcodeTable, v &&& formatMask row.fmt ≠ matchWord row.code :=
  ⟨0x05000000, by decide⟩

theorem witness_DecodingFollowsMatchAndMask_one :
    ∃ v : Word, ∃ row ∈ opcodeTable, ∃ row' ∈ opcodeTable,
      v &&& formatMask row.fmt = matchWord row.code ∧ v &&& formatMask row'.fmt = matchWord row'.code :=
  ⟨0, opcodeTable[0], List.getElem_mem _, opcodeTable[0], List.getElem_mem _, by decide, by decide⟩

theorem witness_IllegalWordEndsInIllegal_word :
    ∃ (s₁ s₂ s₃ : State) (e : DecodeError),
      (s₁.busy = true ∧ decode s₁.cmdlatch = .error e ∧ s₁.pending = []) ∧
      (s₂.busy = true ∧ decode s₂.cmdlatch = .error e ∧ s₂.pending = .wait :: []) ∧
      s₃.busy = true ∧ decode s₃.cmdlatch = .error e ∧ s₃.pending = .engine :: [.wait] :=
  ⟨running {} 0x05000000, running { pending := [.wait] } 0x05000000,
    running { pending := [.engine, .wait] } 0x05000000, .unassignedOpcode 0x05, by decide +kernel⟩

theorem witness_IllegalWordEndsInIllegal_coinciding :
    ∃ rp rq rn re : RegIx, pairwiseDistinct rp rq rn re = false :=
  ⟨4, 4, 0, 1, by decide⟩

theorem witness_StepRunsLatchedCommand :
    ∃ (s₁ s₂ s₃ : State) (i : Instr), (s₁.busy = true ∧ decode s₁.cmdlatch = .ok i ∧ s₁.pending = []) ∧
      (s₂.busy = true ∧ decode s₂.cmdlatch = .ok i ∧ s₂.pending = .engine :: [.wait]) ∧
      s₃.busy = true ∧ decode s₃.cmdlatch = .ok i ∧ s₃.pending = .wait :: [] :=
  ⟨running {} 0x03500000, running { pending := [.engine, .wait] } 0x03500000,
    running { pending := [.wait] } 0x03500000, .clr 5, by decide +kernel⟩

theorem witness_StepRunsLatchedCommand_placed :
    ∃ (v : Word) (i : Instr), decode v = .ok i :=
  ⟨0x41710000, .encblk 7 1 0, by decide⟩

theorem witness_ResetMeetsInvariant :
    Config.LegalWidth 64 ∧ Config.LegalWidth (2 ^ 32 - 32) := by decide

theorem witness_StepKeepsInvariant :
    ∃ s t : State, s.Inv ∧ step s = .next t :=
  ⟨running {} 0x00000000, _, running_inv {} 0 (by simp) (by simp), rfl⟩

theorem witness_ResetInputResets :
    ∃ (s : State) (es : List Event), s.pending = .reset :: es :=
  ⟨running { pending := [.reset, .wait] } 0, [.wait], rfl⟩

theorem witness_IdleBlockDoesNothing :
    ∃ s₁ s₂ s₃ : State, (s₁.busy = false ∧ s₁.pending = []) ∧
      (s₂.busy = false ∧ s₂.pending = .engine :: []) ∧ s₃.busy = false ∧ s₃.pending = .wait :: [] :=
  ⟨idle {}, idle { pending := [.engine] }, idle { pending := [.wait] }, by decide +kernel⟩

theorem witness_IssueLatchesWord :
    ∃ (s : State) (v : Word) (es : List Event), s.busy = false ∧ s.pending = .write 0x004 4 v :: es :=
  ⟨idle { pending := [.write 0x004 4 0xFFFFFFFF] }, 0xFFFFFFFF, [], by decide +kernel⟩

theorem witness_BusyAccessKeepsOperands_read :
    ∃ (s t : State) (off size : Nat) (es : List Event), s.Inv ∧ s.busy = true ∧
      s.pending = .read off size :: es ∧ step s = .next t :=
  ⟨running { pending := [.read 0x1000 4] } 0, _, 0x1000, 4, [],
    running_inv _ 0 (by simp) (by simp), rfl, rfl, rfl⟩

theorem witness_BusyAccessKeepsOperands_write :
    ∃ (s t : State) (off size : Nat) (v : Word) (es : List Event), s.Inv ∧ s.busy = true ∧
      s.pending = .write off size v :: es ∧ step s = .next t ∧ t.busy = true :=
  ⟨running { pending := [.write 0x1084 4 7] } 0, _, 0x1084, 4, 7, [],
    running_inv _ 0 (by simp) (by simp), rfl, rfl, rfl, by decide +kernel⟩

theorem witness_BusyReadsAreBlind :
    ∃ (s t : State) (g : Option Nat) (off size : Nat) (es : List Event), s.busy = true ∧
      g.isSome = s.g.isSome ∧ s.pending = .read off size :: es ∧ step s = .next t :=
  ⟨running { g := some 3, pending := [.read 0x1000 4] } 0, _, some 4, 0x1000, 4, [], rfl, rfl, rfl, rfl⟩

theorem witness_BusyAccessIsRefused_read :
    ∃ s₁ s₂ : State, (s₁.busy = true ∧ 0x1000 % 4 = 0 ∧ 0x1000 < 0x1000 + 17 * (s₁.width / 8) ∧
      s₁.pending = .read 0x1000 4 :: []) ∧ s₂.busy = true ∧ 0x1084 % 4 = 0 ∧
      0x1084 < 0x1000 + 17 * (s₂.width / 8) ∧ s₂.pending = .read 0x1084 4 :: [] :=
  ⟨running { pending := [.read 0x1000 4] } 0, running { pending := [.read 0x1084 4] } 0, by decide +kernel⟩

theorem witness_BusyAccessIsRefused_write :
    ∃ s₁ s₂ : State, (s₁.busy = true ∧ 0x1000 % 4 = 0 ∧ 0x1000 < 0x1000 + 17 * (s₁.width / 8) ∧
      s₁.pending = .write 0x1000 4 7 :: []) ∧ s₂.busy = true ∧ 0x1084 % 4 = 0 ∧
      0x1084 < 0x1000 + 17 * (s₂.width / 8) ∧ s₂.pending = .write 0x1084 4 7 :: [] :=
  ⟨running { pending := [.write 0x1000 4 7] } 0, running { pending := [.write 0x1084 4 7] } 0,
    by decide +kernel⟩

theorem witness_BusyAccessIsRefused_register :
    ∃ s₁ s₂ : State, (s₁.busy = true ∧ 0x004 ∈ [0x004, 0x01C, 0x020, 0x024, 0x02C, 0x030] ∧
      s₁.pending = .write 0x004 4 7 :: []) ∧ s₂.busy = true ∧
      0x030 ∈ [0x004, 0x01C, 0x020, 0x024, 0x02C, 0x030] ∧ s₂.pending = .write 0x030 4 7 :: [] :=
  ⟨running { pending := [.write 0x004 4 7] } 0, running { pending := [.write 0x030 4 7] } 0,
    by decide +kernel⟩

theorem witness_ControlRegisterReads_register :
    ∃ s₁ s₂ : State, s₁.pending = .read 0x000 4 :: [] ∧ s₂.pending = .read 0x038 4 :: [] ∧
      s₂.busy = true :=
  ⟨idle { pending := [.read 0x000 4] }, running { pending := [.read 0x038 4] } 0, by decide +kernel⟩

theorem witness_ControlRegisterReads_reserved :
    ∃ s₁ s₂ : State, (0x03C % 4 = 0 ∧ s₁.pending = .read 0x03C 4 :: []) ∧ 0xFFC < 0x1000 ∧
      0xFFC % 4 = 0 ∧ s₂.pending = .read 0xFFC 4 :: [] :=
  ⟨idle { pending := [.read 0x03C 4] }, idle { pending := [.read 0xFFC 4] }, by decide +kernel⟩

theorem witness_WindowReads :
    ∃ s₁ s₂ : State, (Config.LegalWidth s₁.width ∧ s₁.busy = false ∧ 0 < s₁.width / 32 ∧
      s₁.pending = .read (0x1000 + (0 : RegIx).toNat * (s₁.width / 8) + 4 * 0) 4 :: []) ∧
      Config.LegalWidth s₂.width ∧ s₂.busy = false ∧ 1 < s₂.width / 32 ∧
      s₂.pending = .read (0x1000 + 16 * (s₂.width / 8) + 4 * 1) 4 :: [] :=
  ⟨idle { pending := [.read 0x1000 4] }, idle { pending := [.read 0x1084 4] }, by decide +kernel⟩

theorem witness_ControlRegisterWrites_any :
    ∃ s₁ s₂ : State, s₁.pending = .write 0x000 4 7 :: [] ∧ s₂.pending = .write 0x014 4 1 :: [] ∧
      s₂.busy = true :=
  ⟨idle { pending := [.write 0x000 4 7] }, running { pending := [.write 0x014 4 1] } 0,
    by decide +kernel⟩

theorem witness_ControlRegisterWrites_reserved :
    ∃ s₁ s₂ : State, (0x03C % 4 = 0 ∧ s₁.pending = .write 0x03C 4 7 :: []) ∧ 0xFFC < 0x1000 ∧
      0xFFC % 4 = 0 ∧ s₂.pending = .write 0xFFC 4 7 :: [] :=
  ⟨idle { pending := [.write 0x03C 4 7] }, idle { pending := [.write 0xFFC 4 7] }, by decide +kernel⟩

theorem witness_ControlRegisterWrites_parameter :
    ∃ s₁ s₂ : State, (s₁.busy = false ∧ s₁.pending = .write 0x01C 4 7 :: []) ∧ s₂.busy = false ∧
      s₂.pending = .write 0x030 4 7 :: [] :=
  ⟨idle { pending := [.write 0x01C 4 7] }, idle { pending := [.write 0x030 4 7] }, by decide +kernel⟩

theorem witness_WindowWrites_register :
    ∃ (s : State) (r : RegIx) (j : Nat), s.Inv ∧ s.busy = false ∧ j < s.width / 32 ∧
      s.pending = .write (0x1000 + r.toNat * (s.width / 8) + 4 * j) 4 0xFFFFFFFF :: [] :=
  ⟨idle { pending := [.write 0x107C 4 0xFFFFFFFF] }, 15, 1, idle_inv _ (by simp) (by simp), rfl,
    by decide +kernel, by decide +kernel⟩

theorem witness_WindowWrites_buffer :
    ∃ (s : State) (j : Nat), s.Inv ∧ s.busy = false ∧ j < s.width / 32 ∧
      s.pending = .write (0x1000 + 16 * (s.width / 8) + 4 * j) 4 0x44434241 :: [] :=
  ⟨idle { pending := [.write 0x1084 4 0x44434241] }, 1, idle_inv _ (by simp) (by simp), rfl,
    by decide +kernel, by decide +kernel⟩

theorem witness_OtherAccessIsBusError_read :
    ∃ s₁ s₂ : State, (0x024 < 0x1000 + 17 * (s₁.width / 8) ∧ 2 ≠ 4 ∧ s₁.pending = .read 0x024 2 :: []) ∧
      0x1087 < 0x1000 + 17 * (s₂.width / 8) ∧ 0x1087 % 4 ≠ 0 ∧ s₂.pending = .read 0x1087 4 :: [] :=
  ⟨idle { pending := [.read 0x024 2] }, idle { pending := [.read 0x1087 4] }, by decide +kernel⟩

theorem witness_OtherAccessIsBusError_write :
    ∃ s₁ s₂ : State, (0x1084 < 0x1000 + 17 * (s₁.width / 8) ∧ 8 ≠ 4 ∧
      s₁.pending = .write 0x1084 8 7 :: []) ∧ 0x001 < 0x1000 + 17 * (s₂.width / 8) ∧ 0x001 % 4 ≠ 0 ∧
      s₂.pending = .write 0x001 4 7 :: [] :=
  ⟨idle { pending := [.write 0x1084 8 7] }, idle { pending := [.write 0x001 4 7] }, by decide +kernel⟩

theorem witness_OutsideOffsetFaults :
    ∃ s₁ s₂ : State, (0x1000 + 17 * (s₁.width / 8) ≤ 0x1088 ∧ s₁.pending = .read 0x1088 4 :: []) ∧
      0x1000 + 17 * (s₂.width / 8) ≤ 0x1088 ∧ s₂.pending = .write 0x1088 4 7 :: [] :=
  ⟨idle { pending := [.read 0x1088 4] }, idle { pending := [.write 0x1088 4 7] }, by decide +kernel⟩

theorem witness_AcknowledgeClearsMarks :
    ∃ s₁ s₂ : State, ((2 : Word).getLsbD 0 = false ∧ (2 : Word).getLsbD 1 = true ∧
      s₁.pending = .write 0x018 4 2 :: []) ∧ (0xFFFFFFFC : Word).getLsbD 0 = false ∧
      (0xFFFFFFFC : Word).getLsbD 1 = false ∧ s₂.pending = .write 0x018 4 0xFFFFFFFC :: [] :=
  ⟨running { pending := [.write 0x018 4 2] } 0, idle { pending := [.write 0x018 4 0xFFFFFFFC] },
    by decide +kernel⟩

theorem witness_AbortEndsCommand_drawing :
    ∃ (s : State) (i : Instr), (1 : Word).getLsbD 0 = true ∧ s.pending = .write 0x018 4 1 :: [] ∧
      s.busy = true ∧ decode s.cmdlatch = .ok i ∧ drawing i = true :=
  ⟨running { pending := [.write 0x018 4 1] } 0x21400000, .mkprime 4, by decide +kernel⟩

theorem witness_AbortEndsCommand_other :
    ∃ s : State, (3 : Word).getLsbD 0 = true ∧ s.pending = .write 0x018 4 3 :: [] ∧
      s.busy = true ∧ ∀ i, decode s.cmdlatch = .ok i → drawing i = false :=
  ⟨running { pending := [.write 0x018 4 3] } 0x00000000, by decide, rfl, rfl, fun i h => by
    have e : decode 0x00000000 = .ok .nop := by decide
    cases Except.ok.inj (e.symm.trans h); rfl⟩

theorem witness_AbortEndsCommand_idle :
    ∃ s₁ s₂ : State, (s₁.busy = false ∧ (3 : Word).getLsbD 1 = true ∧
      s₁.pending = .write 0x018 4 3 :: []) ∧ s₂.busy = false ∧ (1 : Word).getLsbD 1 = false ∧
      s₂.pending = .write 0x018 4 1 :: [] :=
  ⟨idle { pending := [.write 0x018 4 3] }, idle { pending := [.write 0x018 4 1] }, by decide +kernel⟩

theorem witness_CompletionRaisesInterrupt :
    ∃ (i : Instr) (s t : State), s.Inv ∧ s.busy = true ∧ exec i s = .next t :=
  ⟨.nop, running {} 0, _, running_inv {} 0 (by simp) (by simp), rfl, rfl⟩

theorem witness_MoveCommandsWriteDestination :
    ∃ s : State, s.Inv ∧ s.reg 2 = 2 ^ 64 - 1 :=
  ⟨running { regs := [(2, 2 ^ 64 - 1)] } 0x01120000, running_inv _ _ (by simp) (by simp),
    by decide +kernel⟩

theorem witness_GcdGivesGreatestDivisor :
    ∃ s : State, s.Inv ∧ s.reg 1 = 0 ∧ s.reg 2 = 2 ^ 64 - 1 :=
  ⟨running { regs := [(2, 2 ^ 64 - 1)] } 0x10312000, running_inv _ _ (by simp) (by simp),
    by decide +kernel⟩

theorem witness_ModinvGivesInverse :
    ∃ s₁ s₂ : State, (s₁.Inv ∧ 1 < s₁.reg 2 ∧ Nat.gcd (s₁.reg 1) (s₁.reg 2) = 1) ∧ s₂.Inv ∧
      1 < Nat.gcd (s₂.reg 1) (s₂.reg 2) :=
  ⟨idle { regs := [(1, 1), (2, 2)] }, idle { regs := [(2, 2)] },
    ⟨idle_inv _ (by simp) (by simp), by decide +kernel⟩, idle_inv _ (by simp) (by simp),
    by decide +kernel⟩

theorem witness_DegenerateInverseRows_modinv :
    ∃ s₁ s₂ s₃ : State, (s₁.Inv ∧ s₁.reg 2 = 1) ∧ (s₂.Inv ∧ s₂.reg 2 = 0 ∧ s₂.reg 1 = 1) ∧ s₃.Inv ∧
      s₃.reg 2 = 0 ∧ 1 < s₃.reg 1 :=
  ⟨idle { regs := [(2, 1)] }, idle { regs := [(1, 1)] }, idle { regs := [(1, 2)] },
    ⟨idle_inv _ (by simp) (by simp), by decide +kernel⟩,
    ⟨idle_inv _ (by simp) (by simp), by decide +kernel⟩, idle_inv _ (by simp) (by simp),
    by decide +kernel⟩

theorem witness_DegenerateInverseRows_mkpriv :
    ∃ s₁ s₂ s₃ : State, (s₁.Inv ∧ 0 < s₁.reg 4 ∧ 0 < s₁.reg 5 ∧ ¬(s₁.reg 4 = 1 ∧ s₁.reg 5 = 1) ∧
      Nat.lcm (s₁.reg 4 - 1) (s₁.reg 5 - 1) = 1) ∧ (s₂.Inv ∧ 0 < s₂.reg 4 ∧ 0 < s₂.reg 5 ∧
      ¬(s₂.reg 4 = 1 ∧ s₂.reg 5 = 1) ∧ Nat.lcm (s₂.reg 4 - 1) (s₂.reg 5 - 1) = 0 ∧ s₂.reg 1 ≤ 1) ∧
      s₃.Inv ∧ 0 < s₃.reg 4 ∧ 0 < s₃.reg 5 ∧ ¬(s₃.reg 4 = 1 ∧ s₃.reg 5 = 1) ∧
      Nat.lcm (s₃.reg 4 - 1) (s₃.reg 5 - 1) = 0 ∧ 1 < s₃.reg 1 :=
  ⟨idle { regs := [(1, 5), (4, 2), (5, 2)] }, idle { regs := [(1, 1), (4, 1), (5, 7)] },
    idle { regs := [(1, 3), (4, 1), (5, 7)] },
    ⟨idle_inv _ (by simp) (by simp), by decide +kernel⟩,
    ⟨idle_inv _ (by simp) (by simp), by decide +kernel⟩, idle_inv _ (by simp) (by simp),
    by decide +kernel⟩

theorem witness_ModmulReducesProduct :
    ∃ s : State, s.Inv ∧ s.reg 4 ≠ 0 :=
  ⟨idle { regs := [(1, 2 ^ 63), (2, 2 ^ 63), (4, 1)] }, idle_inv _ (by simp) (by simp),
    by decide +kernel⟩

theorem witness_PowmodGivesPower :
    ∃ s₁ s₂ : State, (s₁.Inv ∧ s₁.reg 4 ≠ 0 ∧ s₁.reg 2 = 0) ∧ s₂.Inv ∧ s₂.reg 4 ≠ 0 ∧ s₂.reg 2 ≠ 0 :=
  ⟨idle { regs := [(1, 5), (4, 1)] }, idle { regs := [(1, 5), (2, 1), (4, 1)] },
    ⟨idle_inv _ (by simp) (by simp), by decide +kernel⟩, idle_inv _ (by simp) (by simp),
    by decide +kernel⟩

theorem witness_DivzeroOnZeroModulus :
    ∃ s₁ s₂ : State, (s₁.reg 0 = 0 ∧ s₁.lenArg + 1 ≤ s₁.width / 8) ∧ s₂.reg 4 = 1 ∧ s₂.reg 5 = 1 :=
  ⟨idle { bytes := [1, 2, 3, 4, 5, 6, 7] }, idle { regs := [(4, 1), (5, 1)] }, by decide +kernel⟩

theorem witness_IsprimeReportsPrimes :
    ∃ (s : State) (g : Nat) (b : Bool) (g' : Nat), s.g = some g ∧ 4 < s.reg 4 ∧ Nat.Prime (s.reg 4) ∧
      s.iters = 0 ∧ isPrime Config.source (s.reg 4) s.itersArg g = (.ok b, g') :=
  by
  refine ⟨idle { regs := [(4, 5)], g := some 0 }, 0, true, 0, rfl, by decide +kernel, ?_, rfl, ?_⟩
  all_goals rw [show (idle { regs := [(4, 5)], g := some 0 }).reg 4 = 5 by decide +kernel]
  · norm_num
  · rfl

theorem witness_MillerRabinRound :
    ∃ n r : Nat, 2 ≤ n ∧ 5 ≤ n ∧ 0 < r :=
  ⟨5, 1, by decide⟩

theorem witness_RoundsRunInOrder_passing :
    ∃ n iters : Nat, 4 < n ∧ ∀ k, k < iters → roundPasses (2 + (randBelow (script [0, 1])
      ((fun g => (randBelow (script [0, 1]) g (n - 3)).2)^[k] 0) (n - 3)).1) n (factorTwos n).1
      (factorTwos n).2 = true :=
  ⟨5, 2, by decide, fun k h => by interval_cases k <;> decide +kernel⟩

theorem witness_RoundsRunInOrder_rejecting :
    ∃ n iters k : Nat, 4 < n ∧ k < iters ∧ (∀ j, j < k → roundPasses (2 + (randBelow (script [172, 135])
      ((fun g => (randBelow (script [172, 135]) g (n - 3)).2)^[j] 0) (n - 3)).1) n (factorTwos n).1
      (factorTwos n).2 = true) ∧ roundPasses (2 + (randBelow (script [172, 135])
      ((fun g => (randBelow (script [172, 135]) g (n - 3)).2)^[k] 0) (n - 3)).1) n (factorTwos n).1
      (factorTwos n).2 = false :=
  ⟨221, 2, 1, by decide, by decide, fun j h => by interval_cases j; decide +kernel, by decide +kernel⟩

theorem witness_MkprimeStoresCandidate_noRounds :
    ∃ (s : State) (g : Nat), s.g = some g ∧ s.bitsArg + 1 ≤ s.width ∧ s.iters = 0 ∧ 3 ≤ s.bitsArg :=
  ⟨idle { g := some 0, bits := 3 }, 0, by decide +kernel⟩

theorem witness_MkprimeStoresCandidate_accepted :
    ∃ (s : State) (g c g' : Nat), s.g = some g ∧ s.bitsArg + 1 ≤ s.width ∧
      makePrimePass Config.source s.bitsArg s.itersArg g = (.ok (some c), g') ∧
      makePrimeWithin Config.source s.bitsArg s.itersArg (s.passes + 1) g = some (.ok c, g') :=
  by
  have h : makePrimePass Config.source 3 0 0 =
      (.ok (some ((randBits Config.source 0 3).1 + 2 ^ 3)), (randBits Config.source 0 3).2) := by
    simp only [makePrimePass, isPrime, if_neg (show ¬(randBits Config.source 0 3).1 + 2 ^ 3 ≤ 4 by omega)]
    rfl
  refine ⟨idle { g := some 0, bits := 3 }, 0, _, _, rfl, by decide +kernel, h, ?_⟩
  show makePrimeWithin Config.source 3 0 1 0 = _
  rw [makePrimeWithin, h]

theorem witness_MkprimeRefinesMakePrime_returns :
    ∃ (s : State) (g fuel c g' : Nat), s.g = some g ∧ s.busy = true ∧ s.bitsArg + 1 ≤ s.width ∧
      makePrimeWithin (script [5, 0, 7, 3, 5]) s.bitsArg s.itersArg fuel g = some (.ok c, g') :=
  ⟨running { g := some 0, bits := 4, iters := 2 } 0x21400000, 0, 2, 23, 5, rfl, rfl,
    by decide +kernel, rfl⟩

theorem witness_MkprimeRefinesMakePrime_raises :
    ∃ (s : State) (g fuel : Nat) (e : ErrCode) (g' : Nat), s.g = some g ∧ s.busy = true ∧
      s.bitsArg + 1 ≤ s.width ∧
      makePrimeWithin (script [0]) s.bitsArg s.itersArg fuel g = some (.error e, g') :=
  ⟨running { g := some 0, bits := 2, iters := 2 } 0x21400000, 0, 1, .smalln, 1, rfl, rfl,
    by decide +kernel, rfl⟩

theorem witness_MkprimeRefinesMakePrime_runsOn :
    ∃ (s : State) (g fuel : Nat), s.g = some g ∧ s.busy = true ∧ s.bitsArg + 1 ≤ s.width ∧
      makePrimeWithin (script [5, 0]) s.bitsArg s.itersArg fuel g = none :=
  ⟨running { g := some 0, bits := 4, iters := 2 } 0x21400000, 0, 1, rfl, rfl, by decide +kernel, rfl⟩

theorem witness_MkpubFirstAndLastMove_goesOn :
    ∃ (src : RandSource) (s : State) (g : Nat), pairwiseDistinct 4 5 0 1 = true ∧ s.g = some g ∧
      s.busy = true ∧ s.bitsArg + 2 ≤ s.width ∧
      makePublicWithin src s.bitsArg s.itersArg (s.passes + 1) g = none :=
  ⟨script keyDraws, running { g := some 0, bits := 12, iters := 1 } 0x30450100, 0, by decide, rfl, rfl,
    by decide +kernel, rfl⟩

theorem witness_MkpubFirstAndLastMove_completes :
    ∃ (src : RandSource) (s : State) (g : Nat) (m : PublicMaterial) (g' : Nat),
      pairwiseDistinct 4 5 0 1 = true ∧ s.g = some g ∧ s.busy = true ∧ s.bitsArg + 2 ≤ s.width ∧
      makePublicWithin src s.bitsArg s.itersArg (s.passes + 1) g = some (.ok m, g') :=
  ⟨script keyDraws,
    { running { g := some 0, bits := 12, iters := 1 } 0x30450100 with passes := 1 }, 0,
    ⟨37, 131, 4847, 7⟩, 9, by decide, rfl, rfl, by decide +kernel, rfl⟩

/-- With `BITS = 0` the split range is empty: the clause of an error that `make_public` raises. -/
theorem witness_MkpubFirstAndLastMove_raises :
    ∃ (s : State) (g g' : Nat) (c : ErrCode), pairwiseDistinct 4 5 0 1 = true ∧ s.g = some g ∧
      s.busy = true ∧ s.bitsArg + 2 ≤ s.width ∧
      makePublicWithin Config.source s.bitsArg s.itersArg (s.passes + 1) g = some (.error c, g') :=
  ⟨running { g := some 0 } 0x30450100, 0, 0, .param, by decide, rfl, rfl, by decide +kernel, rfl⟩

theorem witness_MkpubFirstAndLastMove_draws :
    ∃ (bits iters fuel g p q g1 g2 k : Nat), 2 ≤ bits ∧ k < fuel ∧
      makePrimeWithin (script keyDraws)
        (bits / 4 + (randBelow (script keyDraws) g (3 * bits / 4 - bits / 4)).1) iters fuel
        (randBelow (script keyDraws) g (3 * bits / 4 - bits / 4)).2 = some (.ok p, g1) ∧
      makePrimeWithin (script keyDraws)
        (bits - (bits / 4 + (randBelow (script keyDraws) g (3 * bits / 4 - bits / 4)).1)) iters fuel g1 =
        some (.ok q, g2) ∧
      (∀ j, j < k → Nat.gcd (randBits (script keyDraws)
        ((fun g => (randBits (script keyDraws) g bits).2)^[j] g2) bits).1 (Nat.lcm (p - 1) (q - 1)) ≠ 1) ∧
      Nat.gcd (randBits (script keyDraws)
        ((fun g => (randBits (script keyDraws) g bits).2)^[k] g2) bits).1 (Nat.lcm (p - 1) (q - 1)) = 1 :=
  ⟨12, 1, 2, 0, 37, 131, 5, 7, 1, by decide, by decide, by decide +kernel, by decide +kernel,
    fun j h => by interval_cases j; decide +kernel, by decide +kernel⟩

theorem witness_MkprimeRefinesMakePrime_candidates :
    ∃ bits iters fuel g k : Nat, k < fuel ∧
      (∀ j, j < k → (isPrime (script [5, 0, 7, 3, 5])
        ((randBits (script [5, 0, 7, 3, 5]) ((fun g => (isPrime (script [5, 0, 7, 3, 5])
          ((randBits (script [5, 0, 7, 3, 5]) g bits).1 + 2 ^ bits) iters
          (randBits (script [5, 0, 7, 3, 5]) g bits).2).2)^[j] g) bits).1 + 2 ^ bits) iters
        (randBits (script [5, 0, 7, 3, 5]) ((fun g => (isPrime (script [5, 0, 7, 3, 5])
          ((randBits (script [5, 0, 7, 3, 5]) g bits).1 + 2 ^ bits) iters
          (randBits (script [5, 0, 7, 3, 5]) g bits).2).2)^[j] g) bits).2).1.toOption = some false) ∧
      (isPrime (script [5, 0, 7, 3, 5])
        ((randBits (script [5, 0, 7, 3, 5]) ((fun g => (isPrime (script [5, 0, 7, 3, 5])
          ((randBits (script [5, 0, 7, 3, 5]) g bits).1 + 2 ^ bits) iters
          (randBits (script [5, 0, 7, 3, 5]) g bits).2).2)^[k] g) bits).1 + 2 ^ bits) iters
        (randBits (script [5, 0, 7, 3, 5]) ((fun g => (isPrime (script [5, 0, 7, 3, 5])
          ((randBits (script [5, 0, 7, 3, 5]) g bits).1 + 2 ^ bits) iters
          (randBits (script [5, 0, 7, 3, 5]) g bits).2).2)^[k] g) bits).2).1.toOption = some true :=
  ⟨4, 2, 2, 0, 1, by decide, fun j h => by interval_cases j; decide +kernel, by decide +kernel⟩

theorem witness_MkpubRefinesMakePublic_returns :
    ∃ (s : State) (g fuel : Nat) (m : PublicMaterial) (g' : Nat), pairwiseDistinct 4 5 0 1 = true ∧
      s.g = some g ∧ s.busy = true ∧ 2 ≤ s.bitsArg ∧ s.bitsArg + 2 ≤ s.width ∧
      makePublicWithin (script keyDraws) s.bitsArg s.itersArg fuel g = some (.ok m, g') :=
  ⟨running { g := some 0, bits := 12, iters := 1 } 0x30450100, 0, 2, ⟨37, 131, 4847, 7⟩, 9, by decide,
    rfl, rfl, by decide +kernel, by decide +kernel, rfl⟩

theorem witness_MkpubRefinesMakePublic_raises :
    ∃ (s : State) (g fuel : Nat) (c : ErrCode) (g' : Nat), pairwiseDistinct 4 5 0 1 = true ∧
      s.g = some g ∧ s.busy = true ∧ 2 ≤ s.bitsArg ∧ s.bitsArg + 2 ≤ s.width ∧
      makePublicWithin (script []) s.bitsArg s.itersArg fuel g = some (.error c, g') :=
  ⟨running { g := some 0, bits := 2, iters := 1 } 0x30450100, 0, 1, .smalln, 2, by decide,
    rfl, rfl, by decide +kernel, by decide +kernel, rfl⟩

theorem witness_MkpubRefinesMakePublic_runsOn :
    ∃ (s : State) (g fuel : Nat), pairwiseDistinct 4 5 0 1 = true ∧ s.g = some g ∧ s.busy = true ∧
      2 ≤ s.bitsArg ∧ s.bitsArg + 2 ≤ s.width ∧
      makePublicWithin (script keyDraws) s.bitsArg s.itersArg (s.passes + fuel) g = none :=
  ⟨running { g := some 0, bits := 12, iters := 1 } 0x30450100, 0, 1, by decide, rfl, rfl,
    by decide +kernel, by decide +kernel, rfl⟩

theorem witness_MkpubWithTwelveBitsNeverSmall :
    ∃ s t : State, s.Inv ∧ s.busy = true ∧ 12 ≤ s.bitsArg ∧ exec (.mkpub 4 5 0 1) s = .next t ∧
      t.err = true :=
  ⟨running { bits := 12 } 0x30450100, _, running_inv _ _ (by simp) (by simp), rfl, by decide +kernel,
    rfl, rfl⟩

theorem witness_MkprivDerivesExponent_inverse :
    ∃ (s : State) (i : Nat), s.Inv ∧ 0 < s.reg 4 ∧ 0 < s.reg 5 ∧
      1 < Nat.lcm (s.reg 4 - 1) (s.reg 5 - 1) ∧ i < Nat.lcm (s.reg 4 - 1) (s.reg 5 - 1) ∧
      s.reg 1 * i % Nat.lcm (s.reg 4 - 1) (s.reg 5 - 1) = 1 ∧ i < 2 ^ s.width :=
  ⟨idle { regs := [(1, 1), (4, 3), (5, 3)] }, 1, idle_inv _ (by simp) (by simp), by decide +kernel⟩

/-- The last vector of `95_test_vectors.md` section 2.8: a totient above `2^W`, an inverse that fits. -/
theorem witness_MkprivDerivesExponent_largeTotient :
    ∃ (s : State) (i : Nat), s.Inv ∧ 0 < s.reg 1 ∧ 0 < s.reg 2 ∧
      2 ^ s.width < Nat.lcm (s.reg 1 - 1) (s.reg 2 - 1) ∧
      i < Nat.lcm (s.reg 1 - 1) (s.reg 2 - 1) ∧
      s.reg 3 * i % Nat.lcm (s.reg 1 - 1) (s.reg 2 - 1) = 1 ∧ i < 2 ^ s.width :=
  ⟨idle { regs := [(1, 2 ^ 64 - 1), (2, 2 ^ 64 - 3), (3, 1)] }, 1, idle_inv _ (by simp) (by simp),
    by decide +kernel⟩

theorem witness_MkprivDerivesExponent_none :
    ∃ s : State, s.Inv ∧ 0 < s.reg 1 ∧ 0 < s.reg 2 ∧
      2 ^ s.width < Nat.lcm (s.reg 1 - 1) (s.reg 2 - 1) ∧
      Nat.gcd (s.reg 3) (Nat.lcm (s.reg 1 - 1) (s.reg 2 - 1)) ≠ 1 :=
  ⟨idle { regs := [(1, 2 ^ 64 - 1), (2, 2 ^ 64 - 3), (3, 2)] }, idle_inv _ (by simp) (by simp),
    by decide +kernel⟩

theorem witness_MkprivDerivesExponent_overflows :
    ∃ (s : State) (i : Nat), s.Inv ∧ 0 < s.reg 1 ∧ 0 < s.reg 2 ∧
      1 < Nat.lcm (s.reg 1 - 1) (s.reg 2 - 1) ∧ i < Nat.lcm (s.reg 1 - 1) (s.reg 2 - 1) ∧
      s.reg 3 * i % Nat.lcm (s.reg 1 - 1) (s.reg 2 - 1) = 1 ∧ 2 ^ s.width ≤ i :=
  ⟨idle { regs := [(1, 2 ^ 64 - 1), (2, 2 ^ 64 - 3), (3, 5)] },
    34028236692093846335269414298951090177, idle_inv _ (by simp) (by simp), by decide +kernel⟩

theorem witness_VerifyComparesSignature :
    ∃ s : State, s.reg 0 ≠ 0 :=
  ⟨idle { regs := [(0, 1)] }, by decide +kernel⟩

theorem witness_BlkszGivesBlockSize :
    ∃ (s : State) (chunk : List Byte), s.Inv ∧ s.reg 0 ≠ 0 ∧ chunk.length + 1 ≤ blockSize (s.reg 0) :=
  ⟨idle { regs := [(0, 256)] }, [], idle_inv _ (by simp) (by simp), by decide +kernel⟩

theorem witness_EncblkEncryptsChunk :
    ∃ s₁ s₂ : State, (s₁.Inv ∧ s₁.lenArg + 1 ≤ s₁.width / 8 ∧ s₁.reg 0 ≠ 0) ∧ s₂.Inv ∧
      s₂.lenArg + 1 ≤ s₂.width / 8 ∧ s₂.reg 0 ≠ 0 ∧ s₂.lenArg = 7 :=
  ⟨idle { regs := [(0, 1)] }, idle { regs := [(0, 1)], bytes := [1, 2, 3, 4, 5, 6, 7] },
    ⟨idle_inv _ (by simp) (by simp), by decide +kernel⟩, idle_inv _ (by simp) (by simp),
    by decide +kernel⟩

theorem witness_DecblkUnpacksBlock :
    ∃ (s₁ s₂ : State) (m : Nat), (s₁.Inv ∧ s₁.reg 0 ≠ 0 ∧ m ≠ 0 ∧
      m = if s₁.reg 2 = 0 then 1 else s₁.reg 7 ^ s₁.reg 2 % s₁.reg 0) ∧ s₂.Inv ∧ s₂.reg 0 ≠ 0 ∧
      0 = if s₂.reg 2 = 0 then 1 else s₂.reg 7 ^ s₂.reg 2 % s₂.reg 0 :=
  ⟨idle { regs := [(0, 1)] }, idle { regs := [(0, 1), (2, 1)] }, 1,
    ⟨idle_inv _ (by simp) (by simp), by decide +kernel⟩, idle_inv _ (by simp) (by simp),
    by decide +kernel⟩

theorem witness_NorngWithoutGenerator :
    ∃ s : State, s.g = none ∧ pairwiseDistinct 4 5 0 1 = true :=
  ⟨State.reset, rfl, by decide⟩

theorem witness_ParamOutOfRange :
    ∃ s₁ s₂ s₃ s₄ : State, (s₁.seeded = true ∧ s₁.width < s₁.bitsArg + 1) ∧
      (pairwiseDistinct 4 5 0 1 = true ∧ s₂.seeded = true ∧ s₂.bitsArg < 2) ∧
      (s₃.seeded = true ∧ s₃.width < s₃.bitsArg + 2) ∧ s₄.reg 4 = 0 ∧
      s₄.width / 8 < s₄.lenArg + 1 :=
  ⟨idle { g := some 0, bits := 64 }, idle { g := some 0, bits := 1 }, idle { g := some 0, bits := 63 },
    idle { bytes := [1, 2, 3, 4, 5, 6, 7, 8] }, by decide +kernel⟩

theorem witness_SmallCandidatesAreErrors :
    ∃ (s₁ s₂ : State) (g : Nat), (s₁.seeded = true ∧ s₁.reg 4 ≤ 4) ∧ s₂.g = some g ∧
      s₂.bitsArg ≤ 1 ∧ 2 ≤ s₂.width :=
  ⟨idle { regs := [(4, 4)], g := some 0 }, idle { g := some 0, bits := 1 }, 0, by decide +kernel⟩

theorem witness_ErrorsArePrecise :
    ∃ (i : Instr) (s t : State), s.Inv ∧ s.busy = true ∧ exec i s = .next t ∧ t.err = true :=
  ⟨.powmod 3 1 2 0, running { regs := [(3, 99)] } 0x13312000, _,
    running_inv _ _ (by simp) (by simp), rfl, rfl, by decide +kernel⟩

theorem witness_ErrorsFollowTable :
    ∃ (i : Instr) (s t : State), s.Inv ∧ s.busy = true ∧ decode s.cmdlatch = .ok i ∧
      exec i s = .next t ∧ t.err = true :=
  ⟨.isprime 4, running { regs := [(4, 5)] } 0x20400000, _,
    running_inv _ _ (by simp) (by simp), rfl, by decide +kernel, rfl, rfl⟩

theorem witness_FlagWriters :
    ∃ (i : Instr) (s t : State), exec i s = .next t ∧ t.tflag ≠ s.tflag :=
  ⟨.verify 3 1 0 6, idle { regs := [(3, 588), (1, 17), (0, 3233), (6, 65)] }, _, rfl,
    by decide +kernel⟩

theorem witness_OnlyDrawingCommandsReadGenerator :
    ∃ i : Instr, drawing i = false ∧ i ≠ .seed ∧ i ≠ .rngclr ∧ i ≠ .clrall :=
  ⟨.decblk 7 2 0, by decide⟩

theorem witness_EveryCommandAnswers :
    ∃ s : State, s.busy = true :=
  ⟨running {} 0, rfl⟩

theorem witness_RsaRoundTrip :
    ∃ p q e d m : Nat, Nat.Prime p ∧ Nat.Prime q ∧ p ≠ q ∧ e * d % Nat.lcm (p - 1) (q - 1) = 1 ∧
      m < p * q :=
  ⟨61, 53, 17, 413, 3232, by norm_num, by norm_num, by decide, by decide +kernel, by decide⟩

theorem witness_BlockRoundTrip :
    ∃ (s : State) (p q : Nat), s.Inv ∧ Nat.Prime p ∧ Nat.Prime q ∧ p ≠ q ∧ s.reg 0 = p * q ∧
      s.reg 1 * s.reg 2 % Nat.lcm (p - 1) (q - 1) = 1 ∧ s.lenArg + 1 ≤ blockSize (p * q) ∧
      (7 : RegIx) ≠ 2 ∧ (7 : RegIx) ≠ 0 :=
  ⟨idle { regs := [(0, 1022117), (1, 5), (2, 51005)], bytes := [0x68] }, 1009, 1013,
    idle_inv _ (by simp) (by simp), by norm_num, by norm_num, by decide, by decide +kernel,
    by decide +kernel, by decide +kernel, by decide, by decide⟩

theorem witness_StreamRoundTrip :
    ∃ (w p q e d : Nat) (bs : List Byte) (lines : List (List Char)), Nat.Prime p ∧ Nat.Prime q ∧
      p ≠ q ∧ p * q ≤ 2 ^ w ∧ e * d % Nat.lcm (p - 1) (q - 1) = 1 ∧ cipherLines (p * q) e bs = some lines :=
  ⟨64, 1009, 1013, 5, 51005, [0x68], [['e', '3', 'e', '5', '3'], ['4', '5', '2', '6', '2']],
    by norm_num, by norm_num, by decide, by decide, by decide +kernel, by decide +kernel⟩

theorem witness_KeyFilesReadBack :
    ∃ identity : List Char, '\n' ∉ identity :=
  ⟨['a', ' ', 'b'], by decide⟩

theorem witness_ProceduresRunTheStreams_session :
    ∃ h₁ h₂ : Session, (h₁.machine.Inv ∧ h₁.machine.busy = false) ∧ h₂.machine.Inv ∧
      h₂.machine.busy = false ∧ h₂.machine.ie = true :=
  ⟨⟨idle {}, [], []⟩, ⟨{ idle {} with ie := true }, [], []⟩,
    ⟨idle_inv _ (by simp) (by simp), by decide +kernel⟩,
    have h := idle_inv {} (by simp) (by simp)
    ⟨h.width, h.regs, h.canonical, h.inBuf, h.kbytes, h.busyClear, h.errIdle, h.passesIdle⟩,
    by decide +kernel⟩

theorem witness_ProceduresRunTheStreams_mismatch :
    parsePublicKey (publicKeyText 1022117 5 1 ['2']) = some (1022117, 5, 1, ['2']) ∧
      identityInteger 64 ['2'] = some 2 ∧ 1022117 < 2 ^ 64 ∧ powMod 1 5 1022117 ≠ 2 := by
  decide +kernel

theorem witness_ProceduresRunTheStreams_smallModulus :
    parsePublicKey (publicKeyText 65535 1 1 ['1']) = some (65535, 1, 1, ['1']) ∧
      identityInteger 64 ['1'] = some 1 ∧ powMod 1 1 65535 = 1 ∧ blockSize 65535 < 2 := by
  decide +kernel

theorem witness_ProceduresRunTheStreams_encrypts :
    parsePublicKey (publicKeyText 1022117 5 1 ['1']) = some (1022117, 5, 1, ['1']) ∧
      identityInteger 64 ['1'] = some 1 ∧ powMod 1 5 1022117 = 1 ∧
      cipherLines 1022117 5 [0x68] = some [['e', '3', 'e', '5', '3'], ['4', '5', '2', '6', '2']] := by
  decide +kernel

theorem witness_ProceduresRunTheStreams_decrypts :
    parsePrivateKey (privateKeyText 1022117 51005) = some (1022117, 51005) ∧
      (textLines (cipherText [['e', '3', 'e', '5', '3'], ['4', '5', '2', '6', '2']])).mapM
        (plainChunk 64 1022117 51005) = some [[0x68], []] ∧
      (textLines ['e', '3', 'e', '5', '3', '\n', '0', '\n']).mapM (plainChunk 64 1022117 51005) = none ∧
      (textLines ['e', '3', 'e', '5', '3', '\n', ' ', '0', '\n']).mapM (plainChunk 64 1022117 51005) =
        none ∧
      (textLines ['0', '\n']).mapM (plainChunk 64 0 51005) = none := by
  decide +kernel

theorem witness_ProceduresRunTheStreams_zeroModulus :
    parsePublicKey (publicKeyText 0 5 1 ['1']) = some (0, 5, 1, ['1']) ∧
      identityInteger 64 ['1'] = some 1 := by
  decide +kernel

end Sys2Proof.Tests
end

section
/-! PROOFS. O37: which witness each round of `IsPrime` tests and where the rounds end. O43: what
`ModInv` gives, and how a command that stores its result ends. -/

namespace Sys2Proof.Proofs

open Sys2Proof Sys2Proof.Machine Sys2Proof.Laws

/-! ## Rounds -/

/-- The witness a round of `IsPrime(n)` draws from generator state `g`. -/
def roundWitness (src : RandSource) (n g : Nat) : Nat := 2 + (randBelow src g (n - 3)).1

/-- The generator state a round of `IsPrime(n)` leaves. -/
def afterRound (src : RandSource) (n g : Nat) : Nat := (randBelow src g (n - 3)).2

/-- A round that passes hands its generator state to the rounds after it (rule R171). -/
theorem roundsPass_of_passes {src : RandSource} {n s r g : Nat} (k : Nat)
    (h : roundPasses (roundWitness src n g) n s r = true) :
    roundsPass src n s r (k + 1) g = roundsPass src n s r k (afterRound src n g) := if_pos h

/-- A round that rejects ends the rounds (rule R171). -/
theorem roundsPass_of_rejects {src : RandSource} {n s r g : Nat} (k : Nat)
    (h : roundPasses (roundWitness src n g) n s r = false) :
    roundsPass src n s r (k + 1) g = (false, afterRound src n g) := if_neg (Bool.eq_false_iff.mp h)

/-- A witness lies in `[2, n - 2]` (rule R171). -/
theorem roundWitness_range (src : RandSource) {n : Nat} (hn : 4 < n) (g : Nat) :
    2 ≤ roundWitness src n g ∧ roundWitness src n g ≤ n - 2 := by
  have := randBelow_lt src g (show 0 < n - 3 by omega)
  rw [roundWitness]
  omega

theorem roundsPass_of_all_pass {src : RandSource} {n s r iters g : Nat}
    (h : ∀ j, j < iters → roundPasses (roundWitness src n ((afterRound src n)^[j] g)) n s r = true) :
    roundsPass src n s r iters g = (true, (afterRound src n)^[iters] g) := by
  induction iters generalizing g with
  | zero => rfl
  | succ iters ih =>
    calc roundsPass src n s r (iters + 1) g
        = roundsPass src n s r iters (afterRound src n g) :=
          roundsPass_of_passes iters (h 0 iters.succ_pos)
      _ = (true, (afterRound src n)^[iters + 1] g) := ih fun j hj => h (j + 1) (Nat.succ_lt_succ hj)

theorem roundsPass_of_first_rejects {src : RandSource} {n s r iters k g : Nat} (hk : k < iters)
    (h : ∀ j, j < k → roundPasses (roundWitness src n ((afterRound src n)^[j] g)) n s r = true)
    (hr : roundPasses (roundWitness src n ((afterRound src n)^[k] g)) n s r = false) :
    roundsPass src n s r iters g = (false, (afterRound src n)^[k + 1] g) := by
  induction iters generalizing k g with
  | zero => omega
  | succ iters ih =>
    cases k with
    | zero => exact roundsPass_of_rejects iters hr
    | succ k =>
      calc roundsPass src n s r (iters + 1) g
          = roundsPass src n s r iters (afterRound src n g) :=
            roundsPass_of_passes iters (h 0 k.succ_pos)
        _ = (false, (afterRound src n)^[k + 2] g) :=
            ih (Nat.lt_of_succ_lt_succ hk) (fun j hj => h (j + 1) (Nat.succ_lt_succ hj)) hr

/-- Above 4, `IsPrime` answers what its rounds answer. -/
theorem isPrime_eq_of_roundsPass {src : RandSource} {n iters g g' : Nat} {b : Bool} (hn : 4 < n)
    (h : roundsPass src n (factorTwos n).1 (factorTwos n).2 iters g = (b, g')) :
    isPrime src n iters g = (.ok b, g') := by
  rw [isPrime, if_neg (Nat.not_le.mpr hn), h]

/-- Settles O37, by induction on the number of rounds still to run. -/
theorem roundsRunInOrder : Obligations.RoundsRunInOrder := by
  intro src n iters g hn next witness passes
  refine ⟨fun k => roundWitness_range src hn _, fun h => ?_, fun k hk h hr => ?_⟩
  · exact isPrime_eq_of_roundsPass hn (roundsPass_of_all_pass h)
  · exact isPrime_eq_of_roundsPass hn (roundsPass_of_first_rejects hk h hr)

/-! ## Inverses -/

/-- The inverse in `[0, n)` is the one `ModInv` finds (rules R143, R145). -/
theorem modInv_eq_of_mul_mod_eq_one {a n i : Nat} (hn : 1 < n) (hi : i < n) (h : a * i % n = 1) :
    modInv a n = (i, true) := by
  have hmod : a * i ≡ 1 [MOD n] := by rw [Nat.ModEq, h, Nat.mod_eq_of_lt hn]
  have hcop : Nat.gcd a n = 1 := Nat.coprime_of_mul_modEq_one i hmod
  obtain ⟨hok, hlt, hinv⟩ := modInv_coprime a n hn hcop
  have hsame : a * (modInv a n).1 ≡ a * i [MOD n] := hinv.trans h.symm
  have hcancel := hsame.cancel_left_of_coprime (Nat.gcd_comm n a ▸ hcop)
  exact Prod.ext (hcancel.eq_of_lt_of_lt hlt hi) hok

/-! ## How a command that stores an inverse ends -/

theorem complete_keeps_frame {ds : List RegIx} {ps : List Part} {s t : State} (h : Frame ds ps s t) :
    Frame ds ps s t.complete :=
  frame_trans h (frame_weaken (complete_frame t) (List.nil_subset _) (List.nil_subset _))

/-- An inverse, or the sentinel, that fits is stored with `T`. -/
theorem commit_writeInverse_fits (s : State) (rd : RegIx) {inv : Nat × Bool}
    (h : inv.1 < 2 ^ s.width) :
    ∃ t, s.commit (s.writeInverse rd inv) = .next t ∧ Succeeded s t ∧ Frame [rd] [.flag] s t ∧
      t.reg rd = inv.1 ∧ t.tflag = inv.2 := by
  have hframe : Frame [rd] [.flag] s ((s.putReg rd inv.1).putT inv.2) :=
    frame_trans (putReg_frame s (by simp) _ _) (putT_frame _ _ (by simp) _)
  rw [writeInverse_fits rd h]
  exact ⟨_, rfl, complete_succeeded rfl rfl, complete_keeps_frame hframe, by simp, rfl⟩

/-- An inverse that does not fit ends the command with `OVERFLOW` (rule R266). -/
theorem commit_writeInverse_overflows (s : State) (rd : RegIx) {inv : Nat × Bool}
    (h : 2 ^ s.width ≤ inv.1) :
    ∃ t, s.commit (s.writeInverse rd inv) = .next t ∧ Failed .overflow s t ∧ Frame [] [] s t := by
  rw [writeInverse_overflows rd h]
  exact ⟨_, rfl, failWith_failed _ rfl rfl, failWith_frame s _⟩

/-- `MKPRIV` stores the inverse modulo the totient, unless `p = q = 1` (rule R193). -/
theorem exec_mkpriv {s : State} (rd re : RegIx) {rp rq : RegIx} (hp : 0 < s.reg rp)
    (hq : 0 < s.reg rq) (h1 : ¬(s.reg rp = 1 ∧ s.reg rq = 1)) :
    exec (.mkpriv rd re rp rq) s = s.commit
      (s.writeInverse rd (modInv (s.reg re) (Nat.lcm (s.reg rp - 1) (s.reg rq - 1)))) := by
  rw [exec, execMkpriv, if_neg (by omega), lcmFn_eq (by omega)]

/-- Settles O43: `ModInv` answers the inverse or the sentinel, and only its size decides how the write
ends. -/
theorem mkprivDerivesExponent : Obligations.MkprivDerivesExponent := by
  intro s rd re rp rq tot _ hp hq htot ht
  have hexec : exec (.mkpriv rd re rp rq) s =
      s.commit (s.writeInverse rd (modInv (s.reg re) tot)) := by
    rw [htot]
    refine exec_mkpriv rd re hp hq fun ⟨h1, h2⟩ => ?_
    simp [htot, h1, h2] at ht
  rw [hexec]
  refine ⟨fun i hi hinv hfit => ?_, fun hg => ?_, fun i hi hinv hbig => ?_, fun hg => ?_⟩
  · rw [modInv_eq_of_mul_mod_eq_one ht hi hinv]
    exact commit_writeInverse_fits s rd hfit
  · have hpos := Nat.gcd_pos_of_pos_right (s.reg re) (show 0 < tot by omega)
    rw [modInv_gcd_gt (s.reg re) tot (by omega)]
    exact commit_writeInverse_fits s rd (Nat.two_pow_pos s.width)
  · rw [modInv_eq_of_mul_mod_eq_one ht hi hinv]
    exact commit_writeInverse_overflows s rd hbig
  · exact ⟨_, (modInv_coprime (s.reg re) tot ht hg).2⟩

end Sys2Proof.Proofs
end

section
/-! PROOFS. The invariant (O8, O9) and reset (O7, O10): each update of the state keeps the
invariant, so every step does. -/

namespace Sys2Proof.Proofs

open Sys2Proof Sys2Proof.Machine Sys2Proof.Laws

/-! ## Reset -/

theorem resetAt_atReset (w : Nat) : AtReset (State.resetAt w) where
  regs := resetAt_reg w
  buffer := resetAt_bufByte w
  len := rfl
  kbytes := rfl
  iters := rfl
  bits := rfl
  seedLo := rfl
  seedHi := rfl
  ie := rfl
  busy := rfl
  done := rfl
  err := rfl
  tflag := rfl
  seeded := rfl
  hosterr := rfl
  errcode := rfl
  errcmd := rfl
  cmdcnt := rfl
  gen := rfl
  passes := rfl
  irq := rfl

theorem resetAt_inv {w : Nat} (hw : Config.LegalWidth w) : (State.resetAt w).Inv where
  width := hw
  regs r := by
    rw [resetAt_reg]
    exact Nat.two_pow_pos w
  canonical := rfl
  inBuf i _ := resetAt_bufByte w i
  kbytes := Nat.div_pos (le_trans (by decide) hw.1) (by decide)
  busyClear := nofun
  errIdle _ := ⟨nofun, fun h => absurd rfl h⟩
  passesIdle _ := rfl

/-- Settles O7: the values at every width, `State.reset` being the suggested one. -/
theorem resetGivesStatedValues : Obligations.ResetGivesStatedValues :=
  ⟨resetAt_atReset _, resetAt_atReset⟩

/-- Settles O8: the invariant at every legal width; the suggested width is legal. -/
theorem resetMeetsInvariant : Obligations.ResetMeetsInvariant :=
  ⟨resetAt_inv (by decide), fun _ => resetAt_inv⟩

/-- Settles O10: the reset input is `State.resetAt` with the later events still pending. -/
theorem resetInputResets : Obligations.ResetInputResets := by
  intro s es hp
  have h := resetAt_atReset s.width
  -- `AtReset` does not speak of `pending`, the only field that differs from `State.resetAt`
  exact ⟨_, step_reset hp, { h with }, rfl, rfl⟩

/-! ## Updates that keep the invariant -/

theorem takeEvent_inv {s : State} (h : s.Inv) (es : List Event) : (s.takeEvent es).Inv :=
  { h with }

theorem answer_inv {s : State} (h : s.Inv) (r : Response) : (s.answer r).Inv :=
  { h with }

theorem refuse_inv {s : State} (h : s.Inv) : s.refuse.Inv :=
  { h with }

theorem setGen_inv {s : State} (h : s.Inv) (x : Option Nat) : { s with g := x }.Inv :=
  { h with }

theorem acknowledge_inv {s : State} (h : s.Inv) : s.acknowledge.Inv :=
  { h with busyClear := fun hb => ⟨rfl, (h.busyClear hb).2⟩ }

theorem issue_inv {s : State} (h : s.Inv) (v : Word) : (s.issue v).Inv :=
  { h with busyClear := fun _ => ⟨rfl, rfl⟩, errIdle := nofun, passesIdle := nofun }

/-- A successful completion needs of its state only the width and the values written. -/
theorem complete_inv {u : State} (hw : Config.LegalWidth u.width) (hv : ValuesSound u) :
    u.complete.Inv :=
  { hv with
    width := hw
    busyClear := nofun
    errIdle := fun _ => ⟨nofun, fun h => absurd rfl h⟩
    passesIdle := fun _ => rfl }

theorem failWith_inv {s : State} (h : s.Inv) {c : ErrCode} (hc : c ≠ .none) : (s.failWith c).Inv :=
  { h with
    busyClear := nofun
    errIdle := fun _ => ⟨fun _ => hc, fun _ => rfl⟩
    passesIdle := fun _ => rfl }

theorem goOn_inv {s : State} (h : s.Inv) (hb : s.busy = true) : s.goOn.Inv :=
  { h with passesIdle := fun hi => absurd (hb.symm.trans hi) (by decide) }

/-- An abort of a running command touches only the generator state and the status fields (R274). -/
theorem abort_busy_eq {s : State} (h : s.busy = true) :
    s.abort =
      { s with g := if drawingWord s.cmdlatch then none else s.g }.failWith .aborted := by
  rw [abort_busy h]
  split <;> rfl

theorem abort_inv {s : State} (h : s.Inv) : s.abort.Inv := by
  by_cases hb : s.busy = true
  · rw [abort_busy_eq hb]
    exact failWith_inv (setGen_inv h _) (by decide)
  · rw [abort_idle (Bool.eq_false_iff.mpr hb)]
    exact h

theorem action_inv {s : State} (h : s.Inv) (v : Word) : (s.action v).Inv := by
  unfold State.action
  split
  · split
    · exact abort_inv (acknowledge_inv h)
    · exact abort_inv h
  · split
    · exact acknowledge_inv h
    · exact h

/-! ## The engine -/

theorem moves_inv {i : Instr} {s t : State} (h : s.Inv) (hb : s.busy = true) (hm : Moves i s t) :
    t.Inv := by
  cases hm with
  | done u hw => exact complete_inv (hw.frame.width ▸ h.width) (hw.values h)
  | raised c x _ _ hc _ _ => exact failWith_inv (setGen_inv h x) hc
  | searching _ => exact goOn_inv h hb

theorem runLatched_inv {s t : State} (h : s.Inv) (hb : s.busy = true)
    (ht : runLatched s = .next t) : t.Inv := by
  unfold runLatched at ht
  split at ht
  · next i _ =>
    obtain ⟨u, hu, hm⟩ := exec_moves i s
    obtain rfl := Host.Outcome.next.inj (hu.symm.trans ht)
    exact moves_inv h hb hm
  · obtain rfl := Host.Outcome.next.inj ht
    exact failWith_inv h (by decide)

theorem engineTurn_inv {s t : State} (h : s.Inv) (ht : engineTurn s = .next t) : t.Inv := by
  unfold engineTurn at ht
  split at ht
  · next hb => exact runLatched_inv h hb ht
  · exact Host.Outcome.next.inj ht ▸ h

theorem hostWait_inv {s t : State} {es : List Event} (h : s.Inv) (ht : hostWait es s = .next t) :
    t.Inv := by
  unfold hostWait at ht
  split at ht
  · next hb => exact runLatched_inv h hb ht
  · exact Host.Outcome.next.inj ht ▸ answer_inv (takeEvent_inv h es) _

/-! ## The host -/

/-- A window target names a word of a register or of `BUF` of width `w` (rule R44). -/
def wordInRange (w : Nat) : Target → Prop
  | .regWord _ j => j < w / 32
  | .bufWord j => j < w / 32
  | _ => True

theorem controlTarget_inRange (w off : Nat) : wordInRange w (controlTarget off) := by
  simp only [controlTarget, apply_ite (wordInRange w)]
  simp only [wordInRange, ite_self]

/-- Whatever the map names, a window word's index is in range (rules R44, R61). -/
theorem targetOf_inRange {w : Nat} (hw : Config.LegalWidth w) (off : Nat) :
    wordInRange w (targetOf w off) := by
  by_cases hc : off < 0x1000
  · rw [targetOf_control w hc]
    exact controlTarget_inRange w off
  · by_cases hl : off < decodedLimit w
    · rcases targetOf_window hw (Nat.not_lt.mp hc) hl with ⟨r, j, hj, e⟩ | ⟨j, hj, e⟩ <;> rw [e]
      · exact hj
      · exact hj
    · rw [targetOf, if_neg hc, if_neg (fun h => hl (Nat.lt_add_right _ h)), if_neg hl]
      trivial

theorem putRegWord_inv {s : State} (h : s.Inv) (r : RegIx) {j : Nat} (hj : j < s.width / 32)
    (v : Word) : (s.putRegWord r j v).Inv := by
  have hfit : replaceWord (s.reg r) j v < 2 ^ s.width := replaceWord_lt v (h.regs r) (by omega)
  exact { h with regs := (putReg_values (Inv_values h) r hfit).regs }

theorem putBufWord_inv {s : State} (h : s.Inv) {j : Nat} (hj : j < s.width / 32) (v : Word) :
    (s.putBufWord j v).Inv :=
  { h with
    canonical := wf_writeBytes h.canonical _ _
    inBuf := fun i hi => by
      have hlen : (laneBytes v).length = 4 := rfl
      have hi' : s.width / 8 ≤ i := hi
      refine (read_writeBytes h.canonical (4 * j) (laneBytes v) i).trans ?_
      rw [if_neg (by omega)]
      exact h.inBuf i hi }

theorem writeValue_inv {s : State} (h : s.Inv) (v : Word) {x : Target}
    (hx : wordInRange s.width x) : (s.writeValue v x).Inv := by
  cases x with
  | cmd => exact issue_inv h v
  | action => exact action_inv h v
  | regWord r j => exact putRegWord_inv h r hx v
  | bufWord j => exact putBufWord_inv h hx v
  | ctrl | iters | bits | len | seedLo | seedHi => exact { h with }
  | id | status | errcode | errcmd | kbytes | cmdcnt | wparam | reserved | outside => exact h

theorem hostRead_inv {s t : State} {off size : Nat} (h : s.Inv)
    (ht : hostRead off size s = .next t) : t.Inv := by
  rcases hostRead_cases off size s with e | e | e <;> rw [e] at ht
  · cases ht
  · obtain rfl := Host.Outcome.next.inj ht
    exact answer_inv h _
  · obtain rfl := Host.Outcome.next.inj ht
    rcases readTarget_cases s (targetOf s.width off) with e | ⟨-, e⟩ <;> rw [e]
    · exact answer_inv h _
    · exact answer_inv (refuse_inv h) _

theorem writeTarget_inv {s : State} (h : s.Inv) (v : Word) {x : Target}
    (hx : wordInRange s.width x) : (s.writeTarget x v).Inv := by
  unfold State.writeTarget
  split
  · exact answer_inv (refuse_inv h) _
  · exact answer_inv (writeValue_inv h v hx) _

theorem hostWrite_inv {s t : State} {off size : Nat} {v : Word} (h : s.Inv)
    (ht : hostWrite off size v s = .next t) : t.Inv := by
  rcases hostWrite_cases off size v s with e | e | e <;> rw [e] at ht
  · cases ht
  · obtain rfl := Host.Outcome.next.inj ht
    exact answer_inv h _
  · obtain rfl := Host.Outcome.next.inj ht
    exact writeTarget_inv h v (targetOf_inRange h.width off)

/-- Settles O9, by the oldest pending event: each agent's move keeps the invariant. -/
theorem stepKeepsInvariant : Obligations.StepKeepsInvariant := by
  intro s t h ht
  rcases hp : s.pending with _ | ⟨e, es⟩
  · exact engineTurn_inv h (step_none hp ▸ ht)
  · have h' := takeEvent_inv h es
    cases e with
    | read off size => exact hostRead_inv h' (step_read hp ▸ ht)
    | write off size v => exact hostWrite_inv h' (step_write hp ▸ ht)
    | wait => exact hostWait_inv h (step_wait hp ▸ ht)
    | engine => exact engineTurn_inv h' (step_engine hp ▸ ht)
    | reset =>
      rw [step_reset hp] at ht
      exact Host.Outcome.next.inj ht ▸ takeEvent_inv (resetAt_inv h.width) es

end Sys2Proof.Proofs
end

section
/-! PROOFS. What holds of every move of the engine: it answers (O55), it drives the interrupt output
(O24), it writes `T` only where it completes (O53). -/

namespace Sys2Proof.Proofs

open Sys2Proof Sys2Proof.Machine Sys2Proof.Laws

/-- A given answer of `exec` is one of the three kinds of move. -/
theorem moves_of_exec {i : Instr} {s t : State} (h : exec i s = .next t) : Moves i s t := by
  obtain ⟨u, hu, hm⟩ := exec_moves i s
  obtain rfl := Host.Outcome.next.inj (hu.symm.trans h)
  exact hm

/-- The five commands that write `T` (rules R25, R124). -/
theorem cases_of_flag_mem_writtenParts {i : Instr} (h : Part.flag ∈ writtenParts i) :
    (∃ rd ra rn, i = .modinv rd ra rn) ∨ (∃ rd re rp rq, i = .mkpriv rd re rp rq) ∨
      (∃ rn, i = .isprime rn) ∨ (∃ rs re rn rm, i = .verify rs re rn rm) ∨ i = .clrall := by
  cases i with
  | modinv | mkpriv | isprime | verify | clrall => simp
  | _ => simp [writtenParts] at h

/-- Settles O53: only a completion with the flag among the written parts can change `T`. -/
theorem flagWriters : Obligations.FlagWriters := by
  intro i s t h hne
  cases moves_of_exec h with
  | done u hw =>
    have hflag := by_contra fun hn => hne (hw.frame.flag hn)
    exact ⟨rfl, rfl, rfl, cases_of_flag_mem_writtenParts hflag⟩
  | raised | searching => exact absurd rfl hne

/-- Settles O24: a completion sets `DONE` and keeps `CTRL.IE`; a search has `DONE` clear. -/
theorem completionRaisesInterrupt : Obligations.CompletionRaisesInterrupt := by
  intro i s t hinv hb h
  cases moves_of_exec h with
  | done u hw => exact congrArg (· && true) hw.frame.ie
  | raised => rfl
  | searching => simp [State.irq, hb, (hinv.busyClear hb).1]

theorem goOn_running {s : State} (h : s.busy = true) : Running s s.goOn :=
  ⟨h, rfl, rfl, rfl, rfl, rfl⟩

theorem goOn_frame (s : State) : Frame [] [] s s.goOn :=
  { frame_refl [] [] s with }

/-- Settles O55, by the kind of move. -/
theorem everyCommandAnswers : Obligations.EveryCommandAnswers := by
  intro i s hb
  obtain ⟨t, ht, hm⟩ := exec_moves i s
  refine ⟨t, ht, ?_⟩
  cases hm with
  | done u hw =>
    exact .inl ⟨rfl, rfl, congrArg (· + 1) hw.cmdcnt, nofun, fun hn => absurd rfl hn⟩
  | raised c x _ _ hc => exact .inl ⟨rfl, rfl, rfl, fun _ => hc, fun _ => rfl⟩
  | searching hi => exact .inr ⟨goOn_running hb, goOn_frame s, hi⟩

end Sys2Proof.Proofs
end

section
/-! PROOFS. Control registers at the port, busy or idle: reads (O16), writes (O18), `ACTION` (O22,
O23). What an access to the busy block reaches (O13) and what it shows (O14). -/

namespace Sys2Proof.Proofs

open Sys2Proof Sys2Proof.Machine Sys2Proof.Laws

/-! ## One access of a control register -/

/-- No register value depends on what is pending. -/
theorem takeEvent_readValue (s : State) (es : List Event) (x : Target) :
    (s.takeEvent es).readValue x = s.readValue x := by
  cases x <;> rfl

/-- A control register that is not refused answers its value (rules R62, R70). -/
theorem step_read_control {s : State} {off : Nat} {es : List Event}
    (hp : s.pending = .read off 4 :: es) (hlt : off < 0x1000) (h4 : off % 4 = 0)
    (hr : refusedRead (controlTarget off) = false) :
    step s = .next { s with pending := es, resp := .data (s.readValue (controlTarget off)) } := by
  rw [step_read_target hp (Nat.not_le.mp (control_decoded _ hlt)) h4, targetOf_control _ hlt,
    State.readTarget, if_neg (by simp [hr]), takeEvent_readValue]
  rfl

/-- A control register that is not refused takes its write (rules R62, R70). -/
theorem step_write_control {s : State} {off : Nat} {v : Word} {es : List Event}
    (hp : s.pending = .write off 4 v :: es) (hlt : off < 0x1000) (h4 : off % 4 = 0)
    (hr : (s.busy && refusedWrite (controlTarget off)) = false) :
    step s = .next (((s.takeEvent es).writeValue v (controlTarget off)).answer .written) := by
  rw [step_write_target hp (Nat.not_le.mp (control_decoded _ hlt)) h4, targetOf_control _ hlt,
    State.writeTarget, takeEvent_busy, if_neg (Bool.eq_false_iff.mp hr)]

/-- From `0x03C` upwards the map of control registers has no row (rule R69). -/
theorem controlTarget_reserved {off : Nat} (h : 0x03C ≤ off) : controlTarget off = .reserved := by
  unfold controlTarget
  repeat rw [if_neg (by omega)]

/-! ## Reads -/

/-- `CTRL` reads `IE` in bit 0 (rule R29). -/
theorem readValue_ctrl (s : State) : s.readValue .ctrl = if s.ie then 1 else 0 := by
  rw [State.readValue]
  cases s.ie <;> rfl

theorem getLsbD_append_ofBool_zero {w : Nat} (x : BitVec w) (b : Bool) :
    (x ++ BitVec.ofBool b).getLsbD 0 = b := by
  rw [BitVec.getLsbD_append]
  simp

theorem getLsbD_append_ofBool_succ {w : Nat} (x : BitVec w) (b : Bool) (k : Nat) :
    (x ++ BitVec.ofBool b).getLsbD (k + 1) = x.getLsbD k := by
  simp [BitVec.getLsbD_append]

/-- The bits of `STATUS`, lowest first (rule R26). -/
theorem getLsbD_statusWord (s : State) (k : Nat) :
    s.statusWord.getLsbD k =
      [s.busy, s.done, s.err, s.tflag, s.seeded, s.hosterr].getD k false := by
  rcases k with _ | _ | _ | _ | _ | _ | k <;>
    simp [State.statusWord, getLsbD_append_ofBool_zero, getLsbD_append_ofBool_succ,
      -BitVec.getLsbD_eq_getElem]

/-- Settles O16: each offset of the map, the reserved range, the bits of `STATUS`. -/
theorem controlRegisterReads : Obligations.ControlRegisterReads := by
  refine ⟨fun s off v es hm hp => ?_, fun s off es hlo hhi h4 hp => ?_, fun s => ?_, rfl⟩
  · rw [← readValue_ctrl] at hm
    simp only [List.mem_cons, List.not_mem_nil, or_false, Prod.mk.injEq] at hm
    rcases hm with ⟨rfl, rfl⟩ | ⟨rfl, rfl⟩ | ⟨rfl, rfl⟩ | ⟨rfl, rfl⟩ | ⟨rfl, rfl⟩ | ⟨rfl, rfl⟩ |
      ⟨rfl, rfl⟩ | ⟨rfl, rfl⟩ | ⟨rfl, rfl⟩ | ⟨rfl, rfl⟩ | ⟨rfl, rfl⟩ | ⟨rfl, rfl⟩ | ⟨rfl, rfl⟩ |
      ⟨rfl, rfl⟩ | ⟨rfl, rfl⟩
    all_goals exact step_read_control hp (by decide) rfl rfl
  · have hr := controlTarget_reserved hlo
    rw [step_read_control hp hhi h4 (by rw [hr]; rfl), hr]
    rfl
  · have hbit := getLsbD_statusWord s
    refine ⟨hbit 0, hbit 1, hbit 2, hbit 3, hbit 4, hbit 5, fun k hk => ?_⟩
    rw [hbit, List.getD_eq_default _ _ hk]

/-! ## Writes -/

/-- Settles O18: each offset that ignores its write or stores it, and the reserved range. -/
theorem controlRegisterWrites : Obligations.ControlRegisterWrites := by
  refine ⟨fun s t off v es hm hp => ?_, fun s off v es hlo hhi h4 hp => ?_,
    fun s t off v es hidle hm hp => ?_⟩
  · simp only [List.mem_cons, List.not_mem_nil, or_false, Prod.mk.injEq] at hm
    rcases hm with ⟨rfl, rfl⟩ | ⟨rfl, rfl⟩ | ⟨rfl, rfl⟩ | ⟨rfl, rfl⟩ | ⟨rfl, rfl⟩ | ⟨rfl, rfl⟩ |
      ⟨rfl, rfl⟩ | ⟨rfl, rfl⟩
    all_goals exact step_write_control hp (by decide) rfl (Bool.and_false _)
  · have hr := controlTarget_reserved hlo
    rw [step_write_control hp hhi h4 (by rw [hr]; exact Bool.and_false _), hr]
    rfl
  · simp only [List.mem_cons, List.not_mem_nil, or_false, Prod.mk.injEq] at hm
    rcases hm with ⟨rfl, rfl⟩ | ⟨rfl, rfl⟩ | ⟨rfl, rfl⟩ | ⟨rfl, rfl⟩ | ⟨rfl, rfl⟩
    all_goals exact step_write_control hp (by decide) rfl (by rw [hidle]; rfl)

/-! ## `ACTION` (rules R31, R274) -/

/-- `ACTION` is never refused. -/
theorem step_write_action {s : State} {v : Word} {es : List Event}
    (hp : s.pending = .write 0x018 4 v :: es) :
    step s = .next (((s.takeEvent es).action v).answer .written) :=
  step_write_control hp (by decide) rfl (Bool.and_false _)

/-- What bit 1 of `ACTION` does before bit 0 acts (rule R31). -/
def acknowledgeIf (s : State) (ack : Bool) : State :=
  { s with done := s.done && !ack, hosterr := s.hosterr && !ack }

theorem acknowledgeIf_eq (s : State) (ack : Bool) :
    acknowledgeIf s ack = if ack then s.acknowledge else s := by
  cases ack <;> simp [acknowledgeIf, State.acknowledge]

theorem action_without_abort (s : State) {v : Word} (h : v.getLsbD 0 = false) :
    s.action v = acknowledgeIf s (v.getLsbD 1) := by
  rw [State.action, h, acknowledgeIf_eq]
  rfl

theorem action_with_abort (s : State) {v : Word} (h : v.getLsbD 0 = true) :
    s.action v = (acknowledgeIf s (v.getLsbD 1)).abort := by
  rw [State.action, h, acknowledgeIf_eq]
  rfl

/-- `ABORT` of a running command, after `ACK` where both are written (rules R31, R274). -/
theorem action_aborts {s : State} (hb : s.busy = true) (es : List Event) {v : Word}
    (h : v.getLsbD 0 = true) :
    ((s.takeEvent es).action v).answer .written =
      { s with
        g := if drawingWord s.cmdlatch then none else s.g
        hosterr := s.hosterr && !v.getLsbD 1
        pending := es
        resp := .written }.failWith .aborted := by
  have habort := abort_busy_eq (s := acknowledgeIf (s.takeEvent es) (v.getLsbD 1)) hb
  exact congrArg (State.answer · .written) ((action_with_abort _ h).trans habort)

/-- A write of `ACTION` that only acknowledges, or does nothing (rule R31). -/
theorem step_acknowledgeIf {s : State} {v : Word} {es : List Event}
    (hp : s.pending = .write 0x018 4 v :: es)
    (h : (s.takeEvent es).action v = acknowledgeIf (s.takeEvent es) (v.getLsbD 1)) :
    (v.getLsbD 1 = true →
      step s = .next { s with pending := es, resp := .written, done := false, hosterr := false }) ∧
    (v.getLsbD 1 = false → step s = .next { s with pending := es, resp := .written }) := by
  rw [step_write_action hp, h, acknowledgeIf_eq]
  constructor <;> (intro h1; rw [h1]; rfl)

/-- Settles O22: without `ABORT` the write is `ACK` or nothing. -/
theorem acknowledgeClearsMarks : Obligations.AcknowledgeClearsMarks :=
  fun _ _ _ h0 hp => step_acknowledgeIf hp (action_without_abort _ h0)

theorem drawingWord_iff (v : Word) :
    drawingWord v = true ↔ ∃ i, decode v = .ok i ∧ drawing i = true := by
  unfold drawingWord
  cases decode v <;> simp

/-- Settles O23: the busy block ends with `ABORTED`; on the idle block `ACK` alone acts. -/
theorem abortEndsCommand : Obligations.AbortEndsCommand := by
  intro s v es h0 hp
  have hack (hidle : s.busy = false) :=
    step_acknowledgeIf hp ((action_with_abort _ h0).trans (abort_idle hidle))
  refine ⟨fun hb => ?_, fun hidle => (hack hidle).1, fun hidle => (hack hidle).2⟩
  · have hstep := step_write_action hp
    rw [action_aborts hb es h0] at hstep
    refine ⟨_, hstep, failWith_failed .aborted rfl rfl, fun _ => rfl, fun _ => rfl, rfl, rfl,
      rfl, rfl, rfl, rfl, rfl, rfl, rfl, rfl, rfl, fun hd => ?_, fun hd => ?_⟩
    · exact if_pos ((drawingWord_iff _).mpr hd)
    · refine if_neg fun hw => ?_
      obtain ⟨i, hi, hdraw⟩ := (drawingWord_iff _).mp hw
      exact Bool.false_ne_true ((hd i hi).symm.trans hdraw)

/-! ## Accesses to the busy block -/

/-- What a host access makes of the busy block: all it reaches beside the port is `CTRL.IE` and the
sticky marks, and an abort ends the command (rules R22, R70, R74). -/
inductive BusyAccess (s : State) : State → Prop where
  /-- the command runs on; `ACK` leaves `DONE` as it is, since it is clear while busy -/
  | kept (ie hosterr done : Bool) (pending : List Event) (resp : Response) :
      (s.Inv → done = s.done) →
      BusyAccess s
        { s with ie := ie, hosterr := hosterr, done := done, pending := pending, resp := resp }
  /-- the command ends with `ABORTED` -/
  | aborted (hosterr : Bool) (g : Option Nat) (pending : List Event) (resp : Response) :
      BusyAccess s
        ({ s with hosterr := hosterr, g := g, pending := pending, resp := resp }.failWith .aborted)

theorem busyAccess_read (s : State) (es : List Event) (x : Target) :
    BusyAccess s ((s.takeEvent es).readTarget x) := by
  rcases readTarget_cases (s.takeEvent es) x with e | ⟨-, e⟩ <;> rw [e]
  · exact .kept _ s.hosterr _ _ _ fun _ => rfl
  · exact .kept _ true _ _ _ fun _ => rfl

theorem busyAccess_action {s : State} (hb : s.busy = true) (es : List Event) (v : Word) :
    BusyAccess s (((s.takeEvent es).action v).answer .written) := by
  cases h0 : v.getLsbD 0 with
  | false =>
    rw [action_without_abort _ h0]
    refine .kept _ _ _ _ _ fun hinv => ?_
    have hdone : s.done = false := (hinv.busyClear hb).1
    simp [acknowledgeIf, hdone]
  | true =>
    rw [action_aborts hb es h0]
    exact .aborted _ _ _ _

theorem busyAccess_write {s : State} (hb : s.busy = true) (es : List Event) (x : Target)
    (v : Word) : BusyAccess s ((s.takeEvent es).writeTarget x v) := by
  unfold State.writeTarget
  split
  · exact .kept _ true _ _ _ fun _ => rfl
  · next hr =>
    rw [takeEvent_busy, hb, Bool.true_and] at hr
    cases x with
    | action => exact busyAccess_action hb es v
    | ctrl => exact .kept (v.getLsbD 0) _ _ _ _ fun _ => rfl
    | cmd | iters | bits | len | seedLo | seedHi | regWord | bufWord => exact absurd rfl hr
    | id | status | errcode | errcmd | kbytes | cmdcnt | wparam | reserved | outside =>
      exact .kept _ _ _ _ _ fun _ => rfl

theorem busyAccess_of_step {s t : State} {off size : Nat} {v : Word} {es : List Event}
    (hb : s.busy = true)
    (hp : s.pending = .read off size :: es ∨ s.pending = .write off size v :: es)
    (ht : step s = .next t) : BusyAccess s t := by
  have hbus : BusyAccess s ((s.takeEvent es).answer .busError) := .kept _ _ _ _ _ fun _ => rfl
  rcases hp with hp | hp
  · rw [step_read hp] at ht
    rcases hostRead_cases off size (s.takeEvent es) with e | e | e <;> rw [e] at ht
    · cases ht
    · exact Host.Outcome.next.inj ht ▸ hbus
    · exact Host.Outcome.next.inj ht ▸ busyAccess_read s es _
  · rw [step_write hp] at ht
    rcases hostWrite_cases off size v (s.takeEvent es) with e | e | e <;> rw [e] at ht
    · cases ht
    · exact Host.Outcome.next.inj ht ▸ hbus
    · exact Host.Outcome.next.inj ht ▸ busyAccess_write hb es _ v

/-- Settles O13: neither kind of access reaches an operand, and an abort leaves nothing running. -/
theorem busyAccessKeepsOperands : Obligations.BusyAccessKeepsOperands := by
  intro s t off size v es hinv hb hp ht
  cases busyAccess_of_step hb hp ht with
  | kept ie hosterr done pending resp hd =>
    exact ⟨rfl, fun _ => rfl, fun _ => rfl, rfl, rfl, rfl, rfl, rfl, rfl, rfl,
      fun _ => ⟨rfl, rfl, rfl, hb, hd hinv, rfl, rfl, rfl, rfl⟩⟩
  | aborted =>
    exact ⟨rfl, fun _ => rfl, fun _ => rfl, rfl, rfl, rfl, rfl, rfl, rfl, rfl, nofun⟩

/-! ## Reads of the busy block -/

/-- `s` with other registers, another buffer, progress of a search and generator state. -/
def withSecrets (s : State) (regs : Vector Nat 16) (buf : Memory) (passes : Nat) (g : Option Nat) :
    State :=
  { s with regs := regs, buf := buf, passes := passes, g := g }

/-- Outside the windows a value shows of all this only whether there is a generator state. -/
theorem readValue_withSecrets {s : State} (regs : Vector Nat 16) (buf : Memory) (passes : Nat)
    {g : Option Nat} (hg : g.isSome = s.g.isSome) {x : Target} (hx : refusedRead x = false) :
    (withSecrets s regs buf passes g).readValue x = s.readValue x := by
  cases x with
  | regWord | bufWord => cases hx
  | status => simp [withSecrets, State.readValue, State.statusWord, State.seeded, hg]
  | _ => rfl

/-- The same of a busy read's answer and of its mark: the windows are refused. -/
theorem readTarget_withSecrets {s : State} (hb : s.busy = true) (regs : Vector Nat 16)
    (buf : Memory) (passes : Nat) {g : Option Nat} (hg : g.isSome = s.g.isSome) (x : Target) :
    (withSecrets s regs buf passes g).readTarget x =
      withSecrets (s.readTarget x) regs buf passes g := by
  cases hx : refusedRead x with
  | false =>
    simp only [State.readTarget, hx, Bool.and_false, readValue_withSecrets regs buf passes hg hx]
    rfl
  | true =>
    have hb' : (withSecrets s regs buf passes g).busy = true := hb
    simp only [State.readTarget, hx, hb, hb']
    rfl

/-- Other key material goes through a busy read unseen. -/
theorem hostRead_withSecrets {s t : State} (hb : s.busy = true) (regs : Vector Nat 16)
    (buf : Memory) (passes : Nat) {g : Option Nat} (hg : g.isSome = s.g.isSome) {off size : Nat}
    (ht : hostRead off size s = .next t) :
    hostRead off size (withSecrets s regs buf passes g) =
      .next (withSecrets t regs buf passes g) := by
  have hw : (withSecrets s regs buf passes g).width = s.width := rfl
  unfold hostRead at ht ⊢
  rw [hw, readTarget_withSecrets hb regs buf passes hg]
  split at ht
  · cases ht
  · next hl =>
    rw [if_neg hl]
    split at ht
    · next ha =>
      obtain rfl := Host.Outcome.next.inj ht
      exact if_pos ha
    · next ha =>
      obtain rfl := Host.Outcome.next.inj ht
      exact if_neg ha

/-- Settles O14: the two runs read alike, and differ afterwards in the key material alone. -/
theorem busyReadsAreBlind : Obligations.BusyReadsAreBlind := by
  intro s t regs buf passes g off size es hb hg hp ht
  rw [step_read hp] at ht
  have hread := hostRead_withSecrets (s := s.takeEvent es) hb regs buf passes hg ht
  exact ⟨_, (step_read (s := withSecrets s regs buf passes g) hp).trans hread, rfl, rfl⟩

end Sys2Proof.Proofs
end

section
/-! PROOFS. O35: a prime passes every Miller-Rabin round, whatever its witness (rule R173), and
`ISPRIME` reports what the rounds say. -/

namespace Sys2Proof.Proofs

open Sys2Proof Sys2Proof.Machine Sys2Proof.Laws

/-! ## A prime passes every round -/

/-- Modulo a prime the square roots of 1 are 1 and -1. -/
theorem eq_one_or_pred_of_sq_mod {n y : Nat} (hp : n.Prime) (hy : y < n) (h : y * y % n = 1) :
    y = 1 ∨ y = n - 1 := by
  have h0 : y ≠ 0 := by
    rintro rfl
    simp at h
  have hmod : 1 * 1 ≡ y * y [MOD n] := by
    rw [Nat.ModEq, h, Nat.mod_eq_of_lt hp.one_lt]
  have hdvd : n ∣ (y + 1) * (y - 1) := by
    have hpos := Nat.pos_of_ne_zero h0
    rw [← Nat.mul_self_sub_mul_self_eq]
    exact (Nat.modEq_iff_dvd' (Nat.mul_le_mul hpos hpos)).mp hmod
  rcases hp.dvd_mul.mp hdvd with hd | hd
  · have := Nat.le_of_dvd (Nat.succ_pos y) hd
    omega
  · have := Nat.eq_zero_of_dvd_of_lt hd (by omega)
    omega

/-- Squarings that would end at 1 pass through -1 first, modulo a prime. -/
theorem squaringsPass_of_prime {n k y : Nat} (hp : n.Prime) (hy : y < n) (h1 : y ≠ 1)
    (h2 : y ≠ n - 1) (h : y ^ 2 ^ (k + 1) % n = 1) : squaringsPass k y n = true := by
  have hroot : modMul y y n ≠ 1 := fun h0 => (eq_one_or_pred_of_sq_mod hp hy h0).elim h1 h2
  induction k generalizing y with
  | zero => exact absurd ((congrArg (· % n) (Nat.pow_two y)).symm.trans h) hroot
  | succ k ih =>
    rw [squaringsPass, if_neg hroot]
    split
    · rfl
    · next hlast =>
      have hlt : modMul y y n < n := Nat.mod_lt _ hp.pos
      refine ih hlt hroot hlast ?_ fun h0 =>
        (eq_one_or_pred_of_sq_mod hp hlt h0).elim hroot hlast
      rw [modMul, ← Nat.pow_mod, ← Nat.pow_two, ← Nat.pow_mul, ← Nat.pow_succ', h]

/-- What the factoring loop keeps: `2^s * r`. -/
theorem factorTwosLoop_mul (fuel r s : Nat) :
    2 ^ (factorTwosLoop fuel r s).1 * (factorTwosLoop fuel r s).2 = 2 ^ s * r := by
  induction fuel generalizing r s with
  | zero => rfl
  | succ fuel ih =>
    rw [factorTwosLoop]
    split
    · next he =>
      rw [ih, Nat.pow_succ, Nat.mul_assoc, Nat.mul_div_cancel' (Nat.dvd_of_mod_eq_zero he)]
    · rfl

/-- `n - 1 = 2^s * r` (rule R171). -/
theorem factorTwos_mul (n : Nat) : 2 ^ (factorTwos n).1 * (factorTwos n).2 = n - 1 := by
  rw [factorTwos, factorTwosLoop_mul, Nat.pow_zero, Nat.one_mul]

/-- Fermat: a round on a prime passes with every witness in `[2, n - 2]` (rule R173). -/
theorem roundPasses_of_prime {n a : Nat} (hp : n.Prime) (ha : 2 ≤ a) (han : a ≤ n - 2) :
    roundPasses a n (factorTwos n).1 (factorTwos n).2 = true := by
  have hn := factorTwos_mul n
  generalize (factorTwos n).1 = s at hn ⊢
  generalize (factorTwos n).2 = r at hn ⊢
  have hy : powMod a r n = a ^ r % n := by
    rw [powMod_eq]
    split
    · next h0 => rw [h0, Nat.pow_zero, Nat.mod_eq_of_lt hp.one_lt]
    · rfl
  have hfermat : (a ^ r % n) ^ 2 ^ s % n = 1 := by
    have hcop : Nat.Coprime a n := (Nat.coprime_of_lt_prime (by omega) (by omega) hp).symm
    have := Nat.ModEq.pow_totient hcop
    rw [Nat.totient_prime hp, Nat.ModEq, Nat.mod_eq_of_lt hp.one_lt] at this
    rw [← Nat.pow_mod, ← Nat.pow_mul, Nat.mul_comm, hn, this]
  rw [roundPasses, hy]
  split
  · rfl
  · next hne =>
    obtain ⟨h1, h2⟩ := not_or.mp hne
    have hlt : a ^ r % n < n := Nat.mod_lt _ hp.pos
    cases s with
    | zero => exact absurd (by simpa using hfermat) h1
    | succ k => exact squaringsPass_of_prime hp hlt h1 h2 hfermat

/-- `IsPrime` answers true for every prime above 4, whatever is drawn (rule R173). -/
theorem isPrime_of_prime (src : RandSource) {n : Nat} (iters g : Nat) (hn : 4 < n) (hp : n.Prime) :
    (isPrime src n iters g).1 = .ok true := by
  rw [isPrime_eq_of_roundsPass hn (roundsPass_of_all_pass fun j _ => ?_)]
  obtain ⟨h2, hle⟩ := roundWitness_range src hn ((afterRound src n)^[j] g)
  exact roundPasses_of_prime hp h2 hle

/-! ## The command -/

/-- `ISPRIME` completes with the verdict in `T` and the generator state after the draws (R172). -/
theorem exec_isprime {s : State} (rn : RegIx) {g g' : Nat} {b : Bool} (hg : s.g = some g)
    (h : isPrime Config.source (s.reg rn) s.itersArg g = (.ok b, g')) :
    exec (.isprime rn) s = .next ((s.putGen g').putT b).complete := by
  rw [exec, execIsprime, isprimeWith, hg]
  exact drawn_ok s (congrArg Prod.fst h) (congrArg (fun r => Except.ok ((s.putGen r.2).putT b)) h)

/-- Settles O35: it shows the verdict of `IsPrime`, true for a prime and for no round. -/
theorem isprimeReportsPrimes : Obligations.IsprimeReportsPrimes := by
  intro s rn g hg hn
  rcases hrounds : roundsPass Config.source (s.reg rn) (factorTwos (s.reg rn)).1
    (factorTwos (s.reg rn)).2 s.itersArg g with ⟨b, g'⟩
  have hres := isPrime_eq_of_roundsPass hn hrounds
  have hframe : Frame [] [.flag, .gen] s ((s.putGen g').putT b) :=
    frame_trans (putGen_frame s _ (by simp) g') (putT_frame _ _ (by simp) b)
  refine ⟨_, exec_isprime rn hg hres, complete_succeeded rfl rfl, complete_keeps_frame hframe, rfl,
    fun b₁ g₁ h => ?_, fun hp => ?_, fun h0 => ?_⟩
  · obtain ⟨hb, rfl⟩ := Prod.mk.inj (hres.symm.trans h)
    exact ⟨Except.ok.inj hb, rfl⟩
  · have hb := isPrime_of_prime Config.source s.itersArg g hn hp
    rw [hres] at hb
    exact Except.ok.inj hb
  · rw [State.itersArg, h0] at hrounds
    obtain ⟨rfl, rfl⟩ := Prod.mk.inj hrounds
    exact ⟨rfl, rfl⟩

end Sys2Proof.Proofs
end

section
/-! PROOFS. The windows at the port: idle reads (O17) and writes (O19) of a word, refusals of the busy
block (O15), bus errors (O20). `ENCBLK` on the bytes of the buffer (O46). -/

namespace Sys2Proof.Proofs

open Sys2Proof Sys2Proof.Machine Sys2Proof.Laws

/-! ## One access of the idle block -/

/-- Every target of the map stands at a multiple of 4 (rule R44). -/
theorem offsetOf_mod_four {w : Nat} (hw : Config.LegalWidth w) (x : Target) :
    offsetOf w x % 4 = 0 := by
  obtain ⟨-, h32, -⟩ := hw
  have hreg : regBytes w = 4 * (w / 32) := by rw [regBytes]; omega
  cases x with
  | regWord r j => rw [offsetOf, hreg, Nat.mul_left_comm]; omega
  | bufWord | outside => simp only [offsetOf, decodedLimit, bufBase, hreg]; omega
  | _ => simp [offsetOf]

/-- What the map names, the block decodes (rule R69). -/
theorem lt_decodedLimit_of_targetOf_ne {w off : Nat} (h : targetOf w off ≠ .outside) :
    off < decodedLimit w := by
  by_contra hl
  refine h ?_
  unfold targetOf
  rw [if_neg (fun hc => control_decoded w hc (Nat.not_lt.mp hl)),
    if_neg (fun hb => hl (Nat.lt_add_right _ hb)), if_neg hl]

/-- The idle block answers a read with the target's value (rule R62). -/
theorem step_read_idle {s : State} {x : Target} {es : List Event} (hw : Config.LegalWidth s.width)
    (hidle : s.busy = false) (hx : targetOf s.width (offsetOf s.width x) = x) (hne : x ≠ .outside)
    (hp : s.pending = .read (offsetOf s.width x) 4 :: es) :
    step s = .next { s with pending := es, resp := .data (s.readValue x) } := by
  rw [step_read_target hp (lt_decodedLimit_of_targetOf_ne (hx.symm ▸ hne)) (offsetOf_mod_four hw x),
    hx, State.readTarget, if_neg (by simp [hidle]), takeEvent_readValue]
  rfl

/-- The idle block performs a write of a target (rule R62). -/
theorem step_write_idle {s : State} {x : Target} {v : Word} {es : List Event}
    (hw : Config.LegalWidth s.width) (hidle : s.busy = false)
    (hx : targetOf s.width (offsetOf s.width x) = x) (hne : x ≠ .outside)
    (hp : s.pending = .write (offsetOf s.width x) 4 v :: es) :
    step s = .next (((s.takeEvent es).writeValue v x).answer .written) := by
  rw [step_write_target hp (lt_decodedLimit_of_targetOf_ne (hx.symm ▸ hne))
    (offsetOf_mod_four hw x), hx, State.writeTarget, if_neg (by simp [hidle])]

/-! ## Windows of the idle block -/

/-- Settles O17: the map finds the word, and its value has the addressed bits or bytes. -/
theorem windowReads : Obligations.WindowReads := by
  intro s j es hw hidle hj
  refine ⟨fun r hp => ?_, fun hp => ?_⟩
  · exact ⟨_, step_read_idle hw hidle (targetOf_regWord hw r hj) nofun hp,
      fun k hk => getLsbD_wordOf _ _ _ hk⟩
  · exact ⟨_, step_read_idle hw hidle (targetOf_bufWord hw hj) nofun hp,
      fun b hb => lane_bufWordAt s j hb⟩

/-- Bits of the written register, bit by bit (rule R66). -/
theorem testBit_putRegWord (s : State) (r : RegIx) (j : Nat) (v : Word) (k : Nat) :
    ((s.putRegWord r j v).reg r).testBit k =
      if 32 * j ≤ k ∧ k < 32 * j + 32 then v.getLsbD (k - 32 * j) else (s.reg r).testBit k := by
  rw [State.putRegWord, putReg_reg_self, testBit_replaceWord]

/-- Bytes of `BUF` after a word write: the four lanes, and the others as they were (rule R67). -/
theorem putBufWord_bufByte {s : State} (h : Memory.wf s.buf = true) (j : Nat) (v : Word) (i : Nat) :
    (s.putBufWord j v).bufByte i =
      if 4 * j ≤ i ∧ i < 4 * j + 4 then v.extractLsb' (8 * (i - 4 * j)) 8 else s.bufByte i := by
  rw [State.bufByte, putBufWord_buf, read_writeBytes h]
  refine ite_congr rfl (fun hi => ?_) fun _ => rfl
  exact getD_laneBytes v (Nat.sub_lt_left_of_lt_add hi.1 hi.2)

/-- Settles O19: the map finds the word, and the write replaces its bits or lanes alone. -/
theorem windowWrites : Obligations.WindowWrites := by
  intro s j v es hinv hidle hj
  refine ⟨fun r hp => ?_, fun hp => ?_⟩
  · exact ⟨_, step_write_idle hinv.width hidle (targetOf_regWord hinv.width r hj) nofun hp,
      testBit_putRegWord (s.takeEvent es) r j v, fun r' hr => putReg_reg_ne _ r r' _ hr, rfl⟩
  · have hbyte := putBufWord_bufByte (s := s.takeEvent es) hinv.canonical j v
    refine ⟨_, step_write_idle hinv.width hidle (targetOf_bufWord hinv.width hj) nofun hp,
      fun b hb => ?_, fun i hi => ?_, rfl⟩
    · refine (hbyte (4 * j + b)).trans ?_
      rw [if_pos (by omega), Nat.add_sub_cancel_left]
    · exact (hbyte i).trans (if_neg (by omega))

/-! ## Refusals and bus errors -/

/-- A refused read answers 0 and leaves the mark (rule R70). -/
theorem step_read_refused {s : State} {off : Nat} {es : List Event} (hb : s.busy = true)
    (hl : off < decodedLimit s.width) (h4 : off % 4 = 0)
    (hr : refusedRead (targetOf s.width off) = true) (hp : s.pending = .read off 4 :: es) :
    step s = .next { s with pending := es, hosterr := true, resp := .data 0 } := by
  rw [step_read_target hp hl h4, State.readTarget, if_pos (by simp [hb, hr])]
  rfl

/-- A refused write leaves the mark alone (rule R70). -/
theorem step_write_refused {s : State} {off : Nat} {v : Word} {es : List Event}
    (hb : s.busy = true) (hl : off < decodedLimit s.width) (h4 : off % 4 = 0)
    (hr : refusedWrite (targetOf s.width off) = true) (hp : s.pending = .write off 4 v :: es) :
    step s = .next { s with pending := es, hosterr := true, resp := .written } := by
  rw [step_write_target hp hl h4, State.writeTarget, if_pos (by simp [hb, hr])]
  rfl

/-- The control registers a busy block refuses to write: `CMD` and the parameters (rule R70). -/
theorem control_refusedWrite :
    ∀ off ∈ [0x004, 0x01C, 0x020, 0x024, 0x02C, 0x030],
      off < 0x1000 ∧ refusedWrite (controlTarget off) = true := by
  decide

/-- Settles O15: the windows are refused both ways, `CMD` and the parameters for writes. -/
theorem busyAccessIsRefused : Obligations.BusyAccessIsRefused := by
  intro s off v es hb h4
  rw [← decodedLimit_eq]
  refine ⟨fun hlo hl hp => ?_, fun hlo hl hp => ?_, fun hm hp => ?_⟩
  · exact step_read_refused hb hl h4 (window_refused hlo hl).1 hp
  · exact step_write_refused hb hl h4 (window_refused hlo hl).2 hp
  · obtain ⟨hlt, hr⟩ := control_refusedWrite off hm
    exact step_write_refused hb (Nat.not_le.mp (control_decoded _ hlt)) h4
      ((targetOf_control s.width hlt).symm ▸ hr) hp

theorem aligned_eq_false {off size : Nat} (h : size ≠ 4 ∨ off % 4 ≠ 0) :
    aligned off size = false := by
  simpa [aligned, Decidable.imp_iff_not_or] using h

/-- Settles O20: inside the decoded range the two accesses turn on the width and the alignment. -/
theorem otherAccessIsBusError : Obligations.OtherAccessIsBusError := by
  intro s off size v es hl h hp
  rw [← decodedLimit_eq] at hl
  have hl' : ¬decodedLimit (s.takeEvent es).width ≤ off := Nat.not_le.mpr hl
  rcases hp with hp | hp
  · rw [step_read hp, hostRead, if_neg hl', aligned_eq_false h]
    rfl
  · rw [step_write hp, hostWrite, if_neg hl', aligned_eq_false h]
    rfl

/-! ## `ENCBLK` -/

/-- The block integer of a chunk in the buffer, byte by byte (rule R213). -/
theorem packBlock_bufBytes (s : State) (n : Nat) :
    packBlock (s.bufBytes n) =
      0xFF * 256 ^ n + ∑ i ∈ Finset.range n, (s.bufByte i).toNat * 256 ^ (n - 1 - i) := by
  have hlen : (s.bufBytes n).length = n := length_readBytes s.buf 0 n
  rw [packBlock, beValue_cons, beValue_eq_sum, hlen]
  refine congrArg (_ + ·) (Finset.sum_congr rfl fun i hi => ?_)
  have hget : (s.bufBytes n)[i]? = some (s.bufByte i) := by
    rw [State.bufBytes, getElem?_readBytes, if_pos (Finset.mem_range.mp hi), Nat.zero_add]
    rfl
  rw [List.getD_eq_getElem?_getD, hget, Option.getD_some]

/-- `ENCBLK` past its two checks writes the power of the block integer, which fits (rule R213). -/
theorem exec_encblk {s : State} (hinv : s.Inv) (rd re : RegIx) {rn : RegIx}
    (hlen : s.lenArg + 1 ≤ s.width / 8) (hn : s.reg rn ≠ 0) :
    exec (.encblk rd re rn) s = .next (s.putReg rd
      (powMod (packBlock (s.bufBytes s.lenArg)) (s.reg re) (s.reg rn))).complete := by
  rw [exec, execEncblk, if_neg (Nat.not_lt.mpr hlen), if_neg hn,
    writeReg_fits rd (powMod_fits hinv _ _ hn), commit_ok]

/-- Settles O46: the value is the block's power, the frame that of one register write. -/
theorem encblkEncryptsChunk : Obligations.EncblkEncryptsChunk := by
  intro s rd re rn hinv hlen hn
  refine ⟨_, exec_encblk hinv rd re hlen hn, complete_succeeded rfl rfl,
    putReg_complete_frame s rd _, ?_⟩
  rw [complete_reg, putReg_reg_self, powMod_eq, packBlock_bufBytes]

end Sys2Proof.Proofs
end

section
/-! PROOFS. The command word: a decoded word and its row of the opcode table (O3), the round trips
of encoder and decoder (O1, O2), example words (O4). The engine's turn: the latched word, legal (O6)
or illegal (O5), the idle block (O11), and the write that latches it (O12). -/

namespace Sys2Proof.Proofs

open Sys2Proof Sys2Proof.Machine Sys2Proof.Laws

/-! ## A row of the opcode table -/

/-- The word has the row's match value under the row's mask (rule R99). -/
abbrev RowMatches (row : OpcodeRow) (v : Word) : Prop :=
  v &&& formatMask row.fmt = matchWord row.code

/-- The command a row makes of a word's fields (rule R98). -/
abbrev rowCommand (row : OpcodeRow) (v : Word) : Instr :=
  row.make (fieldA v) (fieldB v) (fieldC v) (fieldD v) (fieldImm v)

/-- No two rows share an opcode (rule R98). -/
theorem opcodeTable_codes_nodup : (opcodeTable.map OpcodeRow.code).Nodup := by decide

/-- The row found for a word's opcode is the one row that has it. -/
theorem find?_opcodeTable {row : OpcodeRow} (hm : row ∈ opcodeTable) {op : BitVec 8}
    (hop : op = row.code) : opcodeTable.find? (fun r => r.code == op) = some row := by
  have hsome : (opcodeTable.find? (fun r => r.code == op)).isSome :=
    List.find?_isSome.mpr ⟨row, hm, by simp [hop]⟩
  obtain ⟨r, hr⟩ := Option.isSome_iff_exists.mp hsome
  have hcode : r.code = row.code := by simpa [hop] using List.find?_some hr
  rw [hr, List.inj_on_of_nodup_map opcodeTable_codes_nodup (List.mem_of_find?_eq_some hr) hm hcode]

/-! ## What a word decodes to (rules R99 to R101) -/

/-- A word that matches a row is the row's command, unless rule R101 makes it illegal. -/
theorem decode_of_rowMatches {row : OpcodeRow} (hm : row ∈ opcodeTable) {v : Word}
    (h : RowMatches row v) :
    decode v = if (rowCommand row v).wf then .ok (rowCommand row v)
      else .error .coincidingDestinations := by
  obtain ⟨hop, hres⟩ := (mask_iff row.fmt row.code v).mp h
  simp only [decode, find?_opcodeTable hm hop, hres, if_true]

/-- A word that matches no row is no command (rule R100). -/
theorem decode_of_no_rowMatches {v : Word} (h : ∀ row ∈ opcodeTable, ¬RowMatches row v) :
    ∃ e, decode v = .error e := by
  unfold decode
  split
  · exact ⟨_, rfl⟩
  · next row hrow =>
    have hop : row.code = opcodeField v := by simpa using List.find?_some hrow
    have hres : ¬reservedClear row.fmt v = true := fun hres =>
      h row (List.mem_of_find?_eq_some hrow) ((mask_iff _ _ _).mpr ⟨hop.symm, hres⟩)
    rw [if_neg hres]
    exact ⟨_, rfl⟩

/-- A word that decodes matches a row, and is that row's command. -/
theorem rowMatches_of_decode {v : Word} {i : Instr} (h : decode v = .ok i) :
    ∃ row ∈ opcodeTable, RowMatches row v ∧ rowCommand row v = i ∧ i.wf = true := by
  by_cases hrow : ∃ row ∈ opcodeTable, RowMatches row v
  · obtain ⟨row, hm, hmatch⟩ := hrow
    rw [decode_of_rowMatches hm hmatch] at h
    split at h
    · next hwf =>
      obtain rfl := Except.ok.inj h
      exact ⟨row, hm, hmatch, rfl, hwf⟩
    · nomatch h
  · obtain ⟨e, he⟩ := decode_of_no_rowMatches fun row hm hmatch => hrow ⟨row, hm, hmatch⟩
    nomatch h.symm.trans he

/-- Settles O3: the table's pairs, a word that matches a row, one that matches none, and one opcode
for all rows a word matches. -/
theorem decodingFollowsMatchAndMask : Obligations.DecodingFollowsMatchAndMask := by
  refine ⟨by decide, fun v row hm => decode_of_rowMatches hm, fun v => decode_of_no_rowMatches,
    fun v row _ row' _ h h' => ?_⟩
  have hop := ((mask_iff row.fmt row.code v).mp h).1
  have hop' := ((mask_iff row'.fmt row'.code v).mp h').1
  exact hop.symm.trans hop'

/-! ## The round trips (rule R105) -/

/-- Where a command stands in the opcode table (rule R98). -/
def rowIndex : Instr → Fin 19
  | .nop => 0
  | .mov _ _ => 1
  | .ldi _ _ => 2
  | .clr _ => 3
  | .clrall => 4
  | .seed => 5
  | .rngclr => 6
  | .gcd _ _ _ => 7
  | .modinv _ _ _ => 8
  | .modmul _ _ _ _ => 9
  | .powmod _ _ _ _ => 10
  | .isprime _ => 11
  | .mkprime _ => 12
  | .mkpub _ _ _ _ => 13
  | .mkpriv _ _ _ _ => 14
  | .verify _ _ _ _ => 15
  | .blksz _ => 16
  | .encblk _ _ _ => 17
  | .decblk _ _ _ => 18

/-- A command's row. -/
def rowOf (i : Instr) : OpcodeRow := opcodeTable[rowIndex i]

theorem rowOf_mem (i : Instr) : rowOf i ∈ opcodeTable := List.getElem_mem _

/-- Every command's word matches the command's row, format by format. -/
theorem rowMatches_encode (i : Instr) : RowMatches (rowOf i) (encode i) := by
  cases i with
  | nop | clrall | seed | rngclr => exact mask_wordN _
  | clr | isprime | mkprime | blksz => exact mask_wordR1 ..
  | mov => exact mask_wordR2 ..
  | gcd | modinv | encblk | decblk => exact mask_wordR3 ..
  | modmul | powmod | mkpub | mkpriv | verify => exact mask_wordR4 ..
  | ldi => exact mask_wordI ..

/-- The row reads every operand back from the command's word. -/
theorem rowCommand_encode (i : Instr) : rowCommand (rowOf i) (encode i) = i := by
  cases i <;> simp [rowCommand, rowOf, rowIndex, opcodeTable, encode]

/-- Settles O1: the command's word matches its row, and the command passes the row's check. -/
theorem decodeEncodeRoundTrip : Obligations.DecodeEncodeRoundTrip := by
  intro i hwf
  rw [decode_of_rowMatches (rowOf_mem i) (rowMatches_encode i), rowCommand_encode, if_pos hwf]

/-- A format's word with a given opcode and another word's fields (rule R95). -/
def formatWord (op : BitVec 8) (v : Word) : Format → Word
  | .n => wordN op
  | .r1 => wordR1 op (fieldA v)
  | .r2 => wordR2 op (fieldA v) (fieldB v)
  | .r3 => wordR3 op (fieldA v) (fieldB v) (fieldC v)
  | .r4 => wordR4 op (fieldA v) (fieldB v) (fieldC v) (fieldD v)
  | .i => wordI op (fieldA v) (fieldImm v)

/-- A word whose reserved bits are 0 is the word of its own opcode and fields. -/
theorem formatWord_self {f : Format} {v : Word} (h : reservedClear f v = true) :
    formatWord (opcodeField v) v f = v := by
  cases f with
  | n => exact reassembleN v h
  | r1 => exact reassembleR1 v h
  | r2 => exact reassembleR2 v h
  | r3 => exact reassembleR3 v h
  | r4 => exact reassembleR4 v h
  | i => exact reassembleI v h

/-- The encoder writes a row's command in the row's format, with the row's opcode. -/
theorem encode_rowCommand {row : OpcodeRow} (hm : row ∈ opcodeTable) (v : Word) :
    encode (rowCommand row v) = formatWord row.code v row.fmt := by
  simp only [opcodeTable, List.mem_cons, List.not_mem_nil, or_false] at hm
  rcases hm with rfl | rfl | rfl | rfl | rfl | rfl | rfl | rfl | rfl | rfl | rfl | rfl | rfl | rfl |
    rfl | rfl | rfl | rfl | rfl
  all_goals rfl

/-- Settles O2: a decoded word is put together again from its row's opcode and its fields. -/
theorem decodedWordIsItsEncoding : Obligations.DecodedWordIsItsEncoding := by
  intro v i h
  obtain ⟨row, hm, hmatch, rfl, hwf⟩ := rowMatches_of_decode h
  obtain ⟨hop, hres⟩ := (mask_iff row.fmt row.code v).mp hmatch
  refine ⟨?_, hwf⟩
  rw [encode_rowCommand hm, ← hop, formatWord_self hres]

/-- Settles O4: the legal words are their commands' encodings, the illegal ones are evaluated. -/
theorem specWordsDecode : Obligations.SpecWordsDecode := by
  have hrt := decodeEncodeRoundTrip
  refine ⟨hrt .nop rfl, hrt (.mov 1 2) rfl, hrt (.ldi 0 3233) rfl, hrt .rngclr rfl,
    hrt (.gcd 3 1 2) rfl, hrt (.powmod 7 6 1 0) rfl, hrt (.isprime 4) rfl, hrt (.mkpub 4 5 0 1) rfl,
    hrt (.verify 3 1 0 6) rfl, hrt (.decblk 7 2 0) rfl, ?_⟩
  decide

/-! ## The engine's turn (rules R93, R107, R287) -/

theorem runLatched_of_ok {s : State} {i : Instr} (h : decode s.cmdlatch = .ok i) :
    runLatched s = exec i s := by
  rw [runLatched, h]

theorem runLatched_of_error {s : State} {e : DecodeError} (h : decode s.cmdlatch = .error e) :
    runLatched s = .next (s.failWith .illegal) := by
  rw [runLatched, h, raise_eq]

theorem engineTurn_busy {s : State} (h : s.busy = true) : engineTurn s = runLatched s :=
  if_pos h

theorem engineTurn_idle {s : State} (h : s.busy = false) : engineTurn s = .next s :=
  if_neg (Bool.eq_false_iff.mp h)

theorem hostWait_busy {s : State} (h : s.busy = true) (es : List Event) :
    hostWait es s = runLatched s :=
  if_pos h

theorem hostWait_idle {s : State} (h : s.busy = false) (es : List Event) :
    hostWait es s = .next ((s.takeEvent es).answer (.data s.statusWord)) :=
  if_neg (Bool.eq_false_iff.mp h)

/-- With no action of the host left, or a waiting host, the busy block runs the latched word. -/
theorem step_busy {s : State} {es : List Event} (hb : s.busy = true)
    (hp : s.pending = [] ∨ s.pending = .wait :: es) : step s = runLatched s := by
  rcases hp with hp | hp
  · rw [step_none hp, engineTurn_busy hb]
  · rw [step_wait hp, hostWait_busy hb]

/-- The engine's own event is taken before it runs the latched word. -/
theorem step_engine_busy {s : State} {es : List Event} (hb : s.busy = true)
    (hp : s.pending = .engine :: es) : step s = runLatched (s.takeEvent es) :=
  (step_engine hp).trans (engineTurn_busy hb)

/-- `MKPUB` with coinciding destinations raises `ILLEGAL` (rule R101). -/
theorem exec_mkpub_coinciding {rp rq rn re : RegIx} (h : pairwiseDistinct rp rq rn re = false)
    (s : State) : exec (.mkpub rp rq rn re) s = .next (s.failWith .illegal) := by
  rw [exec, execMkpub, mkpubWith, if_neg (Bool.eq_false_iff.mp h), raise_eq]

/-- Settles O5: an error completion on the state the engine moves from. -/
theorem illegalWordEndsInIllegal : Obligations.IllegalWordEndsInIllegal := by
  refine ⟨fun s e hb he => ⟨fun es hp => ?_, fun es hp => ?_⟩, fun s rp rq rn re hd => ?_⟩
  · exact ⟨_, (step_busy hb hp).trans (runLatched_of_error he), failWith_failed _ rfl rfl,
      failWith_frame _ _⟩
  · exact ⟨_, (step_engine_busy hb hp).trans (runLatched_of_error he), failWith_failed _ rfl rfl,
      failWith_frame _ _⟩
  · exact ⟨_, exec_mkpub_coinciding hd s, failWith_failed _ rfl rfl, failWith_frame _ _⟩

/-- A whole word is placed as it is (log entry 6). -/
theorem withFetchWord_toNat (s : State) (v : Word) :
    s.withFetchWord 32 v.toNat = s.placeCommand v := by
  rw [State.withFetchWord, Nat.mod_eq_of_lt v.isLt, BitVec.ofNat_toNat, BitVec.setWidth_eq]

/-- A placed word is run on the state that issues it. -/
theorem step_placeCommand (s : State) (v : Word) :
    step (s.placeCommand v) = runLatched (s.issue v) :=
  step_engine_busy rfl rfl

/-- Settles O6: each of the engine's moves runs the latched word, and that is its command. -/
theorem stepRunsLatchedCommand : Obligations.StepRunsLatchedCommand := by
  refine ⟨fun s i hb hi => ⟨fun hp => ?_, fun es hp => ?_, fun es hp => ?_⟩, fun s v i hi => ?_⟩
  · rw [step_busy (es := []) hb (.inl hp), runLatched_of_ok hi]
  · exact (step_engine_busy hb hp).trans (runLatched_of_ok hi)
  · rw [step_busy hb (.inr hp), runLatched_of_ok hi]
  · rw [withFetchWord_toNat, step_placeCommand]
    exact runLatched_of_ok hi

/-- Settles O11: neither the engine's turn nor the end of a wait touches the idle block. -/
theorem idleBlockDoesNothing : Obligations.IdleBlockDoesNothing := by
  refine fun s hidle => ⟨fun hp => ?_, fun es hp => ?_, fun es hp => ?_⟩
  · rw [step_none hp, engineTurn_idle hidle]
  · exact (step_engine hp).trans (engineTurn_idle hidle)
  · rw [step_wait hp, hostWait_idle hidle]
    rfl

/-! ## The write that issues a word (rule R92) -/

/-- The idle block takes a write of `CMD` by issuing its word. -/
theorem step_write_cmd {s : State} {v : Word} {es : List Event} (hidle : s.busy = false)
    (hp : s.pending = .write 0x004 4 v :: es) :
    step s = .next (((s.takeEvent es).issue v).answer .written) :=
  step_write_control hp (by decide) rfl (by rw [hidle]; rfl)

/-- Settles O12: of the spec's state the issue writes the latch, `BUSY`, `DONE` and `ERR` alone. -/
theorem issueLatchesWord : Obligations.IssueLatchesWord := by
  intro s v es hidle hp
  exact ⟨_, step_write_cmd hidle hp, rfl, rfl, rfl, rfl, rfl, rfl, rfl, rfl, rfl, rfl,
    fun _ => rfl, fun _ => rfl, rfl, rfl, rfl, rfl, rfl, rfl, rfl, rfl, rfl⟩

end Sys2Proof.Proofs
end

section
/-! PROOFS. The register-file and random-source commands: `NOP` (O25), the register writes (O26),
`CLRALL` (O27), `SEED` and `RNGCLR` (O28), and which commands read the generator state (O54). -/

namespace Sys2Proof.Proofs

open Sys2Proof Sys2Proof.Machine Sys2Proof.Laws

/-! ## Two runs that differ in the generator state (rule R128) -/

/-- Both runs answer, the first from `s` and the second from `s` with generator state `x`: they end
alike but for the generator state, and each keeps its own. -/
def GenUntouched (s : State) (x : Option Nat) (o o' : Host.Outcome State Fault Refusal) : Prop :=
  ∃ t, o = .next t ∧ o' = .next { t with g := x } ∧ t.g = s.g

theorem raise_genUntouched (s : State) (x : Option Nat) (c : ErrCode) :
    GenUntouched s x (s.raise c) (State.raise { s with g := x } c) :=
  ⟨_, rfl, rfl, rfl⟩

theorem commit_writeReg_genUntouched (s : State) (x : Option Nat) (rd : RegIx) (v : Nat) :
    GenUntouched s x (s.commit (s.writeReg rd v))
      (State.commit { s with g := x } (State.writeReg { s with g := x } rd v)) := by
  rcases Nat.lt_or_ge v (2 ^ s.width) with h | h
  · rw [writeReg_fits rd h, writeReg_fits (s := { s with g := x }) rd h]
    exact ⟨_, rfl, rfl, rfl⟩
  · rw [writeReg_overflows rd h, writeReg_overflows (s := { s with g := x }) rd h]
    exact raise_genUntouched s x .overflow

theorem commit_writeInverse_genUntouched (s : State) (x : Option Nat) (rd : RegIx)
    (inv : Nat × Bool) :
    GenUntouched s x (s.commit (s.writeInverse rd inv))
      (State.commit { s with g := x } (State.writeInverse { s with g := x } rd inv)) := by
  rcases Nat.lt_or_ge inv.1 (2 ^ s.width) with h | h
  · rw [writeInverse_fits rd h, writeInverse_fits (s := { s with g := x }) rd h]
    exact ⟨_, rfl, rfl, rfl⟩
  · rw [writeInverse_overflows rd h, writeInverse_overflows (s := { s with g := x }) rd h]
    exact raise_genUntouched s x .overflow

/-- A check that both runs decide alike. -/
theorem ite_genUntouched {s : State} {x : Option Nat} {c : Prop} [Decidable c]
    {o₁ o₂ o₁' o₂' : Host.Outcome State Fault Refusal} (h₁ : GenUntouched s x o₁ o₁')
    (h₂ : GenUntouched s x o₂ o₂') :
    GenUntouched s x (if c then o₁ else o₂) (if c then o₁' else o₂') := by
  split
  · exact h₁
  · exact h₂

/-- The generator state is no part of the register file. -/
theorem setGen_reg (s : State) (x : Option Nat) (r : RegIx) :
    State.reg { s with g := x } r = s.reg r := rfl

/-- Of the commands that do not draw, three write the generator state; the others leave it alone. -/
theorem exec_genUntouched {i : Instr} (hd : drawing i = false)
    (hi : ¬(i = .seed ∨ i = .rngclr ∨ i = .clrall)) (s : State) (x : Option Nat) :
    GenUntouched s x (exec i s) (exec i { s with g := x }) := by
  cases i with
  | isprime | mkprime | mkpub => cases hd
  | seed | rngclr | clrall => simp at hi
  | nop => exact ⟨_, rfl, rfl, rfl⟩
  | mov rd rs => exact commit_writeReg_genUntouched s x rd _
  | ldi rd imm => exact commit_writeReg_genUntouched s x rd _
  | clr rd => exact commit_writeReg_genUntouched s x rd _
  | gcd rd ra rb => exact commit_writeReg_genUntouched s x rd _
  | modinv rd ra rn => exact commit_writeInverse_genUntouched s x rd _
  | modmul rd ra rb rm =>
    exact ite_genUntouched (raise_genUntouched s x _) (commit_writeReg_genUntouched s x rd _)
  | powmod rd rb re rm =>
    exact ite_genUntouched (raise_genUntouched s x _) (commit_writeReg_genUntouched s x rd _)
  | mkpriv rd re rp rq =>
    simp only [exec, execMkpriv, setGen_reg]
    refine ite_genUntouched (raise_genUntouched s x _) ?_
    split
    · exact raise_genUntouched s x _
    · exact commit_writeInverse_genUntouched s x rd _
  | verify rs re rn rm => exact ite_genUntouched (raise_genUntouched s x _) ⟨_, rfl, rfl, rfl⟩
  | blksz rn => exact ite_genUntouched (raise_genUntouched s x _) ⟨_, rfl, rfl, rfl⟩
  | encblk rd re rn =>
    exact ite_genUntouched (raise_genUntouched s x _)
      (ite_genUntouched (raise_genUntouched s x _) (commit_writeReg_genUntouched s x rd _))
  | decblk rc rd rn =>
    exact ite_genUntouched (raise_genUntouched s x _)
      (ite_genUntouched (raise_genUntouched s x _) ⟨_, rfl, rfl, rfl⟩)

/-- `SEED`, `RNGCLR` and `CLRALL` overwrite the generator state, so they end alike from any. -/
theorem exec_overwrites_gen {i : Instr} (hi : i = .seed ∨ i = .rngclr ∨ i = .clrall) (s : State)
    (x : Option Nat) : exec i { s with g := x } = exec i s := by
  rcases hi with rfl | rfl | rfl <;> rfl

/-- Settles O54: three commands overwrite the generator state, the others leave it alone. -/
theorem onlyDrawingCommandsReadGenerator : Obligations.OnlyDrawingCommandsReadGenerator := by
  intro i s x hd
  by_cases hw : i = .seed ∨ i = .rngclr ∨ i = .clrall
  · obtain ⟨t, ht, -⟩ := exec_moves i s
    exact ⟨t, t, ht, (exec_overwrites_gen hw s x).trans ht, rfl,
      fun hs hr hc => (hw.elim hs fun h => h.elim hr hc).elim⟩
  · obtain ⟨t, ht, ht', hg⟩ := exec_genUntouched hd hw s x
    exact ⟨t, _, ht, ht', rfl, fun _ _ _ => hg⟩

/-! ## How a command that writes one register ends -/

/-- A value that fits is stored in the destination, and nothing else is written. -/
theorem commit_writeReg_fits (s : State) (rd : RegIx) {v : Nat} (h : v < 2 ^ s.width) :
    ∃ t, s.commit (s.writeReg rd v) = .next t ∧ Succeeded s t ∧ Frame [rd] [] s t ∧ t.reg rd = v := by
  rw [writeReg_fits rd h]
  exact ⟨_, rfl, complete_succeeded rfl rfl, putReg_complete_frame s rd v, putReg_reg_self s rd v⟩

/-- A register is wider than the immediate (rules R5, R97). -/
theorem immediate_fits {s : State} (h : s.Inv) (imm : Imm16) : immediate imm < 2 ^ s.width :=
  have hwidth : 16 ≤ s.width := le_trans (by decide) h.width.1
  imm.isLt.trans_le (Nat.pow_le_pow_right Nat.two_pos hwidth)

/-- Settles O26: a register's value, an immediate and 0 fit the destination. -/
theorem moveCommandsWriteDestination : Obligations.MoveCommandsWriteDestination := fun s hinv =>
  ⟨fun rd rs => commit_writeReg_fits s rd (hinv.regs rs),
    fun rd imm => commit_writeReg_fits s rd (immediate_fits hinv imm),
    fun rd => commit_writeReg_fits s rd (Nat.two_pow_pos s.width)⟩

/-! ## The commands without operands -/

/-- Settles O25: the state completes as it stands. -/
theorem nopOnlyCompletes : Obligations.NopOnlyCompletes := fun s =>
  ⟨s.complete, rfl, complete_succeeded rfl rfl, complete_frame s⟩

/-- Settles O27: the wiped state completes. -/
theorem clrallWipesKeyMaterial : Obligations.ClrallWipesKeyMaterial := fun s =>
  ⟨s.wipe.complete, rfl, complete_succeeded rfl rfl, wipe_reg s, wipe_bufByte s, rfl, rfl, rfl, rfl,
    rfl, rfl, rfl, rfl, rfl, rfl, rfl, rfl, rfl, rfl⟩

/-- Settles O28: the state completes with the new generator state, or with none. -/
theorem seedAndClearGenerator : Obligations.SeedAndClearGenerator := fun s =>
  have hgen : Part.gen ∈ [Part.gen] := List.mem_singleton_self _
  ⟨⟨_, rfl, complete_succeeded rfl rfl, complete_keeps_frame (putGen_frame s [] hgen _), rfl, rfl⟩,
    ⟨_, rfl, complete_succeeded rfl rfl, complete_keeps_frame (dropGen_frame s [] hgen), rfl, rfl⟩⟩

end Sys2Proof.Proofs
end

section
/-! PROOFS. The modular arithmetic commands: `GCD` (O29), `MODINV` (O30), `MODMUL` (O32), `POWMOD`
(O33), `VERIFY` (O44), `DECBLK` (O47). The round trip of `PowMod` under an RSA key (O56). -/

namespace Sys2Proof.Proofs

open Sys2Proof Sys2Proof.Machine Sys2Proof.Laws

/-! ## The commands that write one register -/

/-- Settles O29: `Gcd` is the greatest common divisor, and it fits. -/
theorem gcdGivesGreatestDivisor : Obligations.GcdGivesGreatestDivisor := by
  intro s rd ra rb hinv
  rw [← gcdFn_eq]
  exact commit_writeReg_fits s rd (gcdFn_fits (hinv.regs ra) (hinv.regs rb))

/-- Settles O30: the inverse or the sentinel of `ModInv` fits, and `T` tells which of them it is. -/
theorem modinvGivesInverse : Obligations.ModinvGivesInverse := by
  intro s rd ra rn hinv
  have hwidth : 0 < s.width := lt_of_lt_of_le (by decide) hinv.width.1
  obtain ⟨t, ht, hs, hf, hreg, hflag⟩ :=
    commit_writeInverse_fits s rd (modInv_fits (s.reg ra) hwidth (hinv.regs rn).le)
  refine ⟨t, ht, hs, hf, fun hn hg => ?_, fun hg => ?_⟩ <;> rw [hreg, hflag]
  · obtain ⟨hok, hlt, hone⟩ := modInv_coprime (s.reg ra) (s.reg rn) hn hg
    exact ⟨hlt, hone, hok⟩
  · rw [modInv_gcd_gt (s.reg ra) (s.reg rn) hg]
    exact ⟨rfl, rfl⟩

/-- Settles O32: the remainder is below the modulus, so it fits. -/
theorem modmulReducesProduct : Obligations.ModmulReducesProduct := by
  intro s rd ra rb rm hinv hm
  have hfits : modMul (s.reg ra) (s.reg rb) (s.reg rm) < 2 ^ s.width :=
    (Nat.mod_lt _ (Nat.pos_of_ne_zero hm)).trans (hinv.regs rm)
  rw [exec, execModmul, if_neg hm]
  exact commit_writeReg_fits s rd hfits

/-- Settles O33: `PowMod` is the power, and it fits. -/
theorem powmodGivesPower : Obligations.PowmodGivesPower := by
  intro s rd rb re rm hinv hm
  rw [exec, execPowmod, if_neg hm, ← powMod_eq]
  exact commit_writeReg_fits s rd (powMod_fits hinv _ _ hm)

/-! ## `VERIFY` -/

/-- Settles O44: past its check `VERIFY` writes the comparison to `T`. -/
theorem verifyComparesSignature : Obligations.VerifyComparesSignature := by
  intro s rs re rn rm hn
  rw [exec, execVerify, if_neg hn, commit_ok, ← powMod_eq]
  refine ⟨_, rfl, complete_succeeded rfl rfl,
    complete_keeps_frame (putT_frame s [] (List.mem_singleton_self _) _), ?_⟩
  rw [complete_tflag, putT_tflag, beq_iff_eq]

/-! ## `DECBLK` -/

/-- Byte `i` of an unpacked block is byte `i + 1` of the integer, counted from its leading one
(rule R215). -/
theorem unpackBlock_getD_toNat {m i : Nat} (h : i < bytelen m - 1) :
    ((unpackBlock m).getD i 0).toNat = m / 256 ^ (bytelen m - 1 - 1 - i) % 256 := by
  have htail : (unpackBlock m).getD i 0 = (toBE m (bytelen m)).getD (i + 1) 0 := by
    simp [unpackBlock, List.getD_eq_getElem?_getD]
  rw [htail, getD_toBE m _ _ (by omega), beByte, BitVec.toNat_ofNat,
    show bytelen m - 1 - (i + 1) = bytelen m - 1 - 1 - i by omega]

/-- The length of an unpacked block fits `LEN`. -/
theorem storeBlock_len_toNat {s : State} (hw : Config.LegalWidth s.width) {m : Nat}
    (hm : m < 2 ^ s.width) : (s.storeBlock m).len.toNat = bytelen m - 1 := by
  have hlen : bytelen m ≤ s.width / 8 := bytelen_le hw hm
  obtain ⟨-, -, hmax⟩ := hw
  exact Nat.mod_eq_of_lt (by omega)

/-- An unpacked block goes to `BUF` and `LEN` alone. -/
theorem storeBlock_frame (s : State) (m : Nat) : Frame [] [.buffer, .len] s (s.storeBlock m) :=
  ⟨rfl, rfl, rfl, rfl, rfl, rfl, ⟨rfl, rfl⟩, fun _ _ => rfl, fun _ => rfl,
    fun hn => absurd (by simp) hn, fun hn => absurd (by simp) hn, fun _ => rfl,
    fun _ => ⟨rfl, rfl⟩, fun _ => rfl⟩

/-- `DECBLK` of a decrypted integer other than 0 stores its block (rule R215). -/
theorem exec_decblk {s : State} {rc rd rn : RegIx} (hn : s.reg rn ≠ 0)
    (hm : powMod (s.reg rc) (s.reg rd) (s.reg rn) ≠ 0) :
    exec (.decblk rc rd rn) s =
      .next (s.storeBlock (powMod (s.reg rc) (s.reg rd) (s.reg rn))).complete := by
  rw [exec, execDecblk, if_neg hn, if_neg (mt (bytelen_eq_zero_iff _).mp hm), commit_ok]

/-- `DECBLK` of a decrypted integer 0 ends with `BADBLOCK` (rule R267). -/
theorem exec_decblk_zero {s : State} {rc rd rn : RegIx} (hn : s.reg rn ≠ 0)
    (hm : powMod (s.reg rc) (s.reg rd) (s.reg rn) = 0) :
    exec (.decblk rc rd rn) s = .next (s.failWith .badblock) := by
  rw [exec, execDecblk, if_neg hn, if_pos ((bytelen_eq_zero_iff _).mpr hm), raise_eq]

/-- Settles O47: `LEN` is one byte fewer than `m` occupies, and that bounds `m` from both sides. -/
theorem decblkUnpacksBlock : Obligations.DecblkUnpacksBlock := by
  intro s rc rd rn m hinv hn hm
  rw [← powMod_eq] at hm
  have hfits : m < 2 ^ s.width := hm ▸ powMod_fits hinv (s.reg rc) (s.reg rd) hn
  refine ⟨fun hm0 => ?_, fun hm0 => ?_⟩
  · have hlen : (s.storeBlock m).complete.len.toNat = bytelen m - 1 :=
      storeBlock_len_toNat hinv.width hfits
    have hbyte : ∀ i, (s.storeBlock m).complete.bufByte i =
        if i < bytelen m - 1 then (unpackBlock m).getD i 0 else s.bufByte i :=
      storeBlock_bufByte hinv.canonical m
    have hpos : bytelen m - 1 + 1 = bytelen m :=
      Nat.succ_pred (mt (bytelen_eq_zero_iff m).mp hm0)
    refine ⟨(s.storeBlock m).complete, hm ▸ exec_decblk hn (hm ▸ hm0),
      complete_succeeded rfl rfl, complete_keeps_frame (storeBlock_frame s m), ?_⟩
    rw [hlen, hpos]
    refine ⟨pow_pred_bytelen_le hm0, lt_pow_bytelen m, fun i hi => ?_, fun i hi => ?_⟩
    · rw [hbyte, if_pos hi, unpackBlock_getD_toNat hi]
    · rw [hbyte, if_neg (Nat.not_lt.mpr hi)]
  · exact ⟨_, exec_decblk_zero hn (hm.symm.trans hm0), failWith_failed _ rfl rfl,
      failWith_frame s _⟩

/-! ## The round trip under an RSA key -/

/-- `PowMod` of `PowMod` is the power to the product of two positive exponents. -/
theorem powMod_powMod (m n : Nat) {e d : Nat} (he : e ≠ 0) (hd : d ≠ 0) :
    powMod (powMod m e n) d n = m ^ (e * d) % n := by
  rw [powMod_eq, if_neg hd, powMod_eq, if_neg he, ← Nat.pow_mod, ← Nat.pow_mul]

/-- Fermat's little theorem, for every base: an exponent one above a multiple of `p - 1`. -/
theorem pow_succ_modEq_self {p k : Nat} (hp : p.Prime) (hk : p - 1 ∣ k) (m : Nat) :
    m ^ (k + 1) ≡ m [MOD p] := by
  rcases Nat.coprime_or_dvd_of_prime hp m with hcop | hdvd
  · obtain ⟨c, rfl⟩ := hk
    have hfermat : m ^ (p - 1) ≡ 1 [MOD p] :=
      Nat.totient_prime hp ▸ Nat.ModEq.pow_totient hcop.symm
    calc m ^ ((p - 1) * c + 1) = (m ^ (p - 1)) ^ c * m := by rw [Nat.pow_succ, Nat.pow_mul]
      _ ≡ 1 ^ c * m [MOD p] := (hfermat.pow c).mul_right m
      _ = m := by rw [Nat.one_pow, Nat.one_mul]
  · have hzero : m ≡ 0 [MOD p] := Nat.modEq_zero_iff_dvd.mpr hdvd
    have hpow : m ^ (k + 1) ≡ 0 [MOD p] :=
      Nat.modEq_zero_iff_dvd.mpr (dvd_pow hdvd k.succ_ne_zero)
    exact hpow.trans hzero.symm

/-- Settles O56: the power to `e * d` is the message modulo each prime, so modulo `p * q`. -/
theorem rsaRoundTrip : Obligations.RsaRoundTrip := by
  intro p q e d m hp hq hne hed hm
  obtain ⟨he, hd⟩ : e ≠ 0 ∧ d ≠ 0 := by
    rw [← Nat.mul_ne_zero_iff]
    intro hzero
    simp [hzero] at hed
  have hexp : Nat.lcm (p - 1) (q - 1) * (e * d / Nat.lcm (p - 1) (q - 1)) + 1 = e * d :=
    (congrArg (_ + ·) hed).symm.trans (Nat.div_add_mod (e * d) _)
  have hmodp : m ^ (e * d) ≡ m [MOD p] :=
    hexp ▸ pow_succ_modEq_self hp ((Nat.dvd_lcm_left _ _).mul_right _) m
  have hmodq : m ^ (e * d) ≡ m [MOD q] :=
    hexp ▸ pow_succ_modEq_self hq ((Nat.dvd_lcm_right _ _).mul_right _) m
  have hcop : Nat.Coprime p q := (Nat.coprime_primes hp hq).mpr hne
  have hmod : m ^ (e * d) ≡ m [MOD p * q] :=
    (Nat.modEq_and_modEq_iff_modEq_mul hcop).mp ⟨hmodp, hmodq⟩
  calc powMod (powMod m e (p * q)) d (p * q) = m ^ (e * d) % (p * q) := powMod_powMod m _ he hd
    _ = m % (p * q) := hmod
    _ = m := Nat.mod_eq_of_lt hm

end Sys2Proof.Proofs
end

section
/-! PROOFS. `42_primality.md`: what a Miller-Rabin round accepts (O36), how a move of `MKPRIME` ends
(O38), what its moves add up to (O39), candidates up to 4 (O50). -/

namespace Sys2Proof.Proofs

open Sys2Proof Sys2Proof.Machine Sys2Proof.Laws

/-! ## A Miller-Rabin round (rule R171) -/

/-- The factoring loop ends at an odd number, when its passes are enough. -/
theorem factorTwosLoop_odd {fuel r : Nat} (s : Nat) (h0 : r ≠ 0) (h : r < 2 ^ fuel) :
    (factorTwosLoop fuel r s).2 % 2 = 1 := by
  induction fuel generalizing r s with
  | zero => exact absurd (Nat.lt_one_iff.mp h) h0
  | succ fuel ih =>
    rw [factorTwosLoop]
    split
    · exact ih (s + 1) (by omega) (by rw [Nat.pow_succ] at h; omega)
    · next hodd => exact Nat.mod_two_ne_zero.mp hodd

theorem factorTwos_odd {n : Nat} (hn : 2 ≤ n) : (factorTwos n).2 % 2 = 1 :=
  factorTwosLoop_odd 0 (by omega) (lt_two_pow_bitlength (n - 1))

/-- The first of `j + 1` squarings, taken out. -/
theorem pow_two_pow_succ_mod (y n j : Nat) :
    y ^ 2 ^ (j + 1) % n = modMul y y n ^ 2 ^ j % n := by
  rw [Nat.pow_succ', Nat.pow_mul, Nat.pow_mod, Nat.pow_two, modMul]

/-- The squarings pass exactly when one of them is `n - 1`: past a 1 they all stay 1. -/
theorem squaringsPass_iff {n : Nat} (hn : 2 < n) (k y : Nat) :
    squaringsPass k y n = true ↔ ∃ j, j < k ∧ y ^ 2 ^ (j + 1) % n = n - 1 := by
  induction k generalizing y with
  | zero => simp [squaringsPass]
  | succ k ih =>
    have hlt : modMul y y n < n := Nat.mod_lt _ (by omega)
    simp only [pow_two_pow_succ_mod y]
    rw [squaringsPass]
    split
    · next h1 =>
      refine iff_of_false Bool.false_ne_true fun ⟨j, _, hj⟩ => ?_
      rw [h1, Nat.one_pow, Nat.mod_eq_of_lt (by omega)] at hj
      omega
    · split
      · next hlast =>
        refine iff_of_true rfl ⟨0, k.succ_pos, ?_⟩
        rw [Nat.pow_zero, Nat.pow_one, Nat.mod_eq_of_lt hlt, hlast]
      · next hlast =>
        rw [ih, Nat.exists_lt_succ_left, Nat.pow_zero, Nat.pow_one, Nat.mod_eq_of_lt hlt,
          or_iff_right hlast]

/-- A round passes when `y = a^r mod n` is 1, or one of `y` and its squarings is `n - 1`. -/
theorem roundPasses_iff (a n s r : Nat) :
    roundPasses a n s r = true ↔ powMod a r n = 1 ∨ powMod a r n = n - 1 ∨
      squaringsPass (s - 1) (powMod a r n) n = true := by
  rw [roundPasses, ← or_assoc]
  split
  · next h => exact iff_of_true rfl (.inl h)
  · next h => exact (or_iff_right h).symm

/-- Settles O36: the factoring loop keeps `2^s * r`, and `y` and its squarings are the powers. -/
theorem millerRabinRound : Obligations.MillerRabinRound := by
  refine ⟨fun n hn => ⟨(factorTwos_mul n).symm, factorTwos_odd hn⟩, fun a n s r hn hr => ?_⟩
  have hy : powMod a r n = a ^ r % n := by rw [powMod_eq, if_neg (Nat.pos_iff_ne_zero.mp hr)]
  have hpow : ∀ j, (a ^ r % n) ^ 2 ^ j % n = a ^ (2 ^ j * r) % n := fun j => by
    rw [← Nat.pow_mod, ← Nat.pow_mul, Nat.mul_comm]
  rw [roundPasses_iff, hy, squaringsPass_iff (by omega)]
  simp only [hpow, ← Nat.lt_succ_iff (n := s - 1), Nat.exists_lt_succ_left, Nat.pow_zero,
    Nat.one_mul]

/-! ## Candidates (rule R174) -/

/-- The candidate drawn from generator state `g`. -/
def candidate (src : RandSource) (bits g : Nat) : Nat := (randBits src g bits).1 + 2 ^ bits

/-- The test of that candidate. -/
def candidateTest (src : RandSource) (bits iters g : Nat) : Except ErrCode Bool × Nat :=
  isPrime src (candidate src bits g) iters (randBits src g bits).2

/-- The generator state the draw and the test leave. -/
def afterCandidate (src : RandSource) (bits iters g : Nat) : Nat :=
  (candidateTest src bits iters g).2

section
variable {src : RandSource} {bits iters g : Nat}

/-- A pass is what the search makes of the candidate's test. -/
theorem makePrimePass_eq : makePrimePass src bits iters g =
    (acceptCandidate (candidate src bits g) (candidateTest src bits iters g).1,
      afterCandidate src bits iters g) := rfl

theorem makePrimeWithin_of_accepts (fuel : Nat) (h : (candidateTest src bits iters g).1 = .ok true) :
    makePrimeWithin src bits iters (fuel + 1) g =
      some (.ok (candidate src bits g), afterCandidate src bits iters g) := by
  rw [makePrimeWithin, makePrimePass_eq, h]
  rfl

theorem makePrimeWithin_of_raises (fuel : Nat) {e : ErrCode}
    (h : (candidateTest src bits iters g).1 = .error e) :
    makePrimeWithin src bits iters (fuel + 1) g =
      some (.error e, afterCandidate src bits iters g) := by
  rw [makePrimeWithin, makePrimePass_eq, h]
  rfl

theorem makePrimeWithin_of_rejects (fuel : Nat) (h : (candidateTest src bits iters g).1 = .ok false) :
    makePrimeWithin src bits iters (fuel + 1) g =
      makePrimeWithin src bits iters fuel (afterCandidate src bits iters g) := by
  rw [makePrimeWithin, makePrimePass_eq, h]
  rfl

/-- `k` rejected candidates cost `k` passes. -/
theorem makePrimeWithin_of_all_reject {k : Nat} (fuel : Nat)
    (h : ∀ j, j < k → (candidateTest src bits iters ((afterCandidate src bits iters)^[j] g)).1 =
      .ok false) :
    makePrimeWithin src bits iters (fuel + k) g =
      makePrimeWithin src bits iters fuel ((afterCandidate src bits iters)^[k] g) := by
  induction k generalizing g with
  | zero => rfl
  | succ k ih =>
    calc makePrimeWithin src bits iters (fuel + k + 1) g
        = makePrimeWithin src bits iters (fuel + k) (afterCandidate src bits iters g) :=
          makePrimeWithin_of_rejects (fuel + k) (h 0 k.succ_pos)
      _ = makePrimeWithin src bits iters fuel ((afterCandidate src bits iters)^[k + 1] g) :=
          ih fun j hj => h (j + 1) (Nat.succ_lt_succ hj)

/-- A pass that accepts ends every search that makes it. -/
theorem makePrimeWithin_of_pass_accepts (fuel : Nat) {c g' : Nat}
    (h : makePrimePass src bits iters g = (.ok (some c), g')) :
    makePrimeWithin src bits iters (fuel + 1) g = some (.ok c, g') := by
  rw [makePrimeWithin, h]

/-- More passes do not change how a search has ended. -/
theorem makePrimeWithin_mono {m n : Nat} {r : Except ErrCode Nat × Nat} (hmn : m ≤ n)
    (h : makePrimeWithin src bits iters m g = some r) :
    makePrimeWithin src bits iters n g = some r := by
  induction m generalizing n g with
  | zero => cases h
  | succ m ih =>
    obtain ⟨n, rfl⟩ := Nat.exists_eq_add_one_of_ne_zero (show n ≠ 0 by omega)
    rw [makePrimeWithin] at h ⊢
    split at h
    · exact h
    · exact h
    · exact ih (Nat.le_of_succ_le_succ hmn) h

end

/-! ## Moves that carry out a search (rule R320) -/

/-- From `s` on, the move `f` carries out the search `run`, a function of the passes it is given:
one more at every move (log entry 8). -/
def CarriesOut {α : Type} (f : State → Host.Outcome State Fault Refusal)
    (run : Nat → Option (Except ErrCode α × Nat)) (write : α → State → Except ErrCode State)
    (s : State) : Prop :=
  ∀ n, f { s with passes := n } = State.search { s with passes := n } (run (n + 1)) write

/-- A search that has ended ends alike with more passes. -/
def EndsOnce {α : Type} (run : Nat → Option (Except ErrCode α × Nat)) : Prop :=
  ∀ m n r, m ≤ n → run m = some r → run n = some r

/-- However a drawing command ends, the block is idle. -/
theorem drawn_idle {α : Type} (s : State) (r : Except ErrCode α × Nat)
    (write : α → State → Except ErrCode State) :
    ∃ t, s.drawn r write = .next t ∧ t.busy = false := by
  rw [State.drawn]
  split
  · exact ⟨_, rfl, rfl⟩
  · next v _ =>
    cases write v (s.putGen r.2) with
    | ok u => exact ⟨_, rfl, rfl⟩
    | error c => exact ⟨_, rfl, rfl⟩

section
variable {α : Type} {f : State → Host.Outcome State Fault Refusal}
  {run : Nat → Option (Except ErrCode α × Nat)} {write : α → State → Except ErrCode State}
  {s : State}

theorem CarriesOut.move (h : CarriesOut f run write s) :
    f s = s.search (run (s.passes + 1)) write := h s.passes

theorem CarriesOut.goOn (h : CarriesOut f run write s) : CarriesOut f run write s.goOn := h

/-- The move in which the search ends is the last. -/
theorem movesOf_succ_of_ended (h : CarriesOut f run write s) {r : Except ErrCode α × Nat}
    (hr : run (s.passes + 1) = some r) (k : Nat) : movesOf f (k + 1) s = s.drawn r write := by
  obtain ⟨t, ht, hidle⟩ := drawn_idle s r write
  simp [movesOf, h.move, hr, ht, hidle]

/-- A move in which the search does not end is followed by the next. -/
theorem movesOf_succ_of_running (h : CarriesOut f run write s) (hb : s.busy = true)
    (hr : run (s.passes + 1) = none) (k : Nat) : movesOf f (k + 1) s = movesOf f k s.goOn := by
  simp [movesOf, h.move, hr, hb]

/-- The moves end as the search does. -/
theorem movesOf_of_ended (honce : EndsOnce run) {r : Except ErrCode α × Nat} {k : Nat}
    (h : CarriesOut f run write s) (hb : s.busy = true) (hr : run (s.passes + (k + 1)) = some r) :
    ∃ n, movesOf f (k + 1) s = State.drawn { s with passes := n } r write := by
  induction k generalizing s with
  | zero => exact ⟨s.passes, movesOf_succ_of_ended h hr 0⟩
  | succ k ih =>
    cases hnow : run (s.passes + 1) with
    | none =>
      rw [movesOf_succ_of_running h hb hnow]
      exact ih h.goOn hb (by rw [goOn_passes, Nat.add_assoc, Nat.add_comm 1]; exact hr)
    | some r' =>
      obtain rfl := Option.some.inj ((honce _ _ _ (by omega) hnow).symm.trans hr)
      exact ⟨s.passes, movesOf_succ_of_ended h hnow (k + 1)⟩

/-- As long as the search has not ended, the moves count passes and do nothing else. -/
theorem movesOf_of_running (honce : EndsOnce run) {k : Nat} (h : CarriesOut f run write s)
    (hb : s.busy = true) (hr : run (s.passes + k) = none) :
    movesOf f k s = .next { s with passes := s.passes + k } := by
  induction k generalizing s with
  | zero => rfl
  | succ k ih =>
    have hnow : run (s.passes + 1) = none := Option.eq_none_iff_forall_ne_some.mpr fun r hnow =>
      nomatch hr.symm.trans (honce _ (s.passes + (k + 1)) r (by omega) hnow)
    have hswap : s.goOn.passes + k = s.passes + (k + 1) := by rw [goOn_passes]; omega
    rw [movesOf_succ_of_running h hb hnow, ih h.goOn hb (hswap ▸ hr), hswap]
    rfl

end

/-- Only the count of passes differs while a search goes on. -/
theorem setPasses_running {s : State} (hb : s.busy = true) (n : Nat) :
    Running s { s with passes := n } :=
  ⟨hb, rfl, rfl, rfl, rfl, rfl⟩

theorem setPasses_frame (s : State) (n : Nat) : Frame [] [] s { s with passes := n } :=
  { frame_refl [] [] s with }

/-! ## How `MKPRIME` ends (rule R176) -/

/-- Past its two checks a move of `MKPRIME` is a search. -/
theorem mkprimeWith_eq_search (src : RandSource) (rd : RegIx) {s : State} {g : Nat}
    (hg : s.g = some g) (hw : s.bitsArg + 1 ≤ s.width) :
    mkprimeWith src rd s = s.search (makePrimeWithin src s.bitsArg s.itersArg (s.passes + 1) g)
      fun c t => t.writeReg rd c := by
  rw [mkprimeWith, hg]
  exact if_neg (Nat.not_lt.mpr hw)

theorem mkprimeWith_carriesOut (src : RandSource) (rd : RegIx) {s : State} {g : Nat}
    (hg : s.g = some g) (hw : s.bitsArg + 1 ≤ s.width) :
    CarriesOut (mkprimeWith src rd) (fun fuel => makePrimeWithin src s.bitsArg s.itersArg fuel g)
      (fun c t => t.writeReg rd c) s :=
  fun n => mkprimeWith_eq_search src rd (s := { s with passes := n }) hg hw

/-- The state in which a `MKPRIME` that found `c` ends, its draws leaving generator state `g`. -/
def primeStored (s : State) (rd : RegIx) (c g : Nat) : State := ((s.putGen g).putReg rd c).complete

theorem primeStored_frame (s : State) (rd : RegIx) (c g : Nat) :
    Frame [rd] [.gen] s (primeStored s rd c g) :=
  complete_keeps_frame (frame_trans (putGen_frame s _ (List.mem_singleton_self _) g)
    (putReg_frame _ (List.mem_singleton_self _) _ c))

theorem primeStored_reg (s : State) (rd : RegIx) (c g : Nat) : (primeStored s rd c g).reg rd = c := by
  rw [primeStored, complete_reg, putReg_reg_self]

theorem primeStored_succeeded (s : State) (rd : RegIx) (c g : Nat) :
    Succeeded s (primeStored s rd c g) := complete_succeeded rfl rfl

/-- An error keeps the draws made and writes nothing else (rule R270). -/
theorem putGen_failWith_frame (s : State) (g : Nat) (e : ErrCode) :
    Frame [] [.gen] s ((s.putGen g).failWith e) :=
  frame_trans (putGen_frame s _ (List.mem_singleton_self _) g)
    (frame_weaken (failWith_frame _ e) (List.nil_subset _) (List.nil_subset _))

/-- A prime that is found has its top bit and no higher one. -/
theorem makePrimeWithin_ok_range {src : RandSource} {bits iters fuel g c g' : Nat}
    (h : makePrimeWithin src bits iters fuel g = some (.ok c, g')) :
    2 ^ bits ≤ c ∧ c < 2 ^ (bits + 1) := by
  rcases makePrimeWithin_sound h with ⟨_, hc, -, hrange⟩ | ⟨he, -⟩
  · exact Except.ok.inj hc ▸ hrange
  · cases he

/-- A prime that is found fits the destination (rules R11, R263). -/
theorem makePrimeWithin_ok_fits {src : RandSource} {bits iters fuel g c g' w : Nat}
    (h : makePrimeWithin src bits iters fuel g = some (.ok c, g')) (hw : bits + 1 ≤ w) :
    c < 2 ^ w :=
  (makePrimeWithin_ok_range h).2.trans_le (Nat.pow_le_pow_right Nat.two_pos hw)

theorem drawn_writeReg_fits (s : State) (rd : RegIx) {c : Nat} (g : Nat) (hc : c < 2 ^ s.width) :
    s.drawn (.ok c, g) (fun c t => t.writeReg rd c) = .next (primeStored s rd c g) :=
  drawn_ok s rfl (writeReg_fits (s := s.putGen g) rd hc)

/-- A move of `MKPRIME` whose search finds `c` stores it. -/
theorem exec_mkprime_of_found {s : State} (rd : RegIx) {g c g' : Nat} (hg : s.g = some g)
    (hw : s.bitsArg + 1 ≤ s.width)
    (h : makePrimeWithin Config.source s.bitsArg s.itersArg (s.passes + 1) g = some (.ok c, g')) :
    exec (.mkprime rd) s = .next (primeStored s rd c g') := by
  rw [exec, execMkprime, mkprimeWith_eq_search _ rd hg hw, h, search_some,
    drawn_writeReg_fits s rd g' (makePrimeWithin_ok_fits h hw)]

/-- A candidate of `BITS >= 3` passes when no round is asked for. -/
theorem makePrimePass_of_no_rounds (src : RandSource) {bits : Nat} (g : Nat) (hb : 3 ≤ bits) :
    makePrimePass src bits 0 g =
      (.ok (some (candidate src bits g)), (randBits src g bits).2) := by
  have hlow : 2 ^ 3 ≤ 2 ^ bits := Nat.pow_le_pow_right Nat.two_pos hb
  have hbig : 4 < candidate src bits g := by
    have := (candidate_range src g bits).1
    rw [candidate]
    omega
  have htest : candidateTest src bits 0 g = (.ok true, (randBits src g bits).2) :=
    isPrime_eq_of_roundsPass hbig rfl
  rw [makePrimePass_eq, afterCandidate, htest]
  rfl

/-- Settles O38: what a search finds fits and is stored; a first candidate that is accepted, as it is
without rounds, is what the search finds. -/
theorem mkprimeStoresCandidate : Obligations.MkprimeStoresCandidate := by
  intro s rd g hg hw
  have hfound : ∀ c g', makePrimeWithin Config.source s.bitsArg s.itersArg (s.passes + 1) g =
      some (.ok c, g') →
      ∃ t, exec (.mkprime rd) s = .next t ∧ Succeeded s t ∧ Frame [rd] [.gen] s t ∧
        t.reg rd = c ∧ t.g = some g' ∧ 2 ^ s.bitsArg ≤ c ∧ c < 2 ^ (s.bitsArg + 1) :=
    fun c g' h => ⟨_, exec_mkprime_of_found rd hg hw h, primeStored_succeeded s rd c g',
      primeStored_frame s rd c g', primeStored_reg s rd c g', rfl, makePrimeWithin_ok_range h⟩
  have hpass : ∀ c g', makePrimePass Config.source s.bitsArg s.itersArg g = (.ok (some c), g') →
      makePrimeWithin Config.source s.bitsArg s.itersArg (s.passes + 1) g = some (.ok c, g') :=
    fun c g' h => makePrimeWithin_of_pass_accepts s.passes h
  refine ⟨hfound, fun c g' h => hfound c g' (hpass c g' h), fun h0 hb => ?_⟩
  have hiters : s.itersArg = 0 := congrArg BitVec.toNat h0
  have hfirst := makePrimePass_of_no_rounds Config.source g hb
  rw [← hiters] at hfirst
  obtain ⟨t, ht, hs, hf, hreg, -, hrange⟩ := hfound _ _ (hpass _ _ hfirst)
  exact ⟨t, ht, hs, hf, hreg ▸ hrange⟩

/-! ## `MKPRIME` and its loop (rules R174, R320) -/

theorem makePrimeWithin_endsOnce (src : RandSource) (bits iters g : Nat) :
    EndsOnce fun fuel => makePrimeWithin src bits iters fuel g :=
  fun _ _ _ => makePrimeWithin_mono

/-- When the loop ends within some number of passes, the moves end with its result. -/
theorem movesOf_mkprime_of_ended {src : RandSource} {s : State} (rd : RegIx) {g fuel : Nat}
    (hg : s.g = some g) (hb : s.busy = true) (hw : s.bitsArg + 1 ≤ s.width)
    {r : Except ErrCode Nat × Nat}
    (h : makePrimeWithin src s.bitsArg s.itersArg fuel g = some r) :
    ∃ k n, movesOf (mkprimeWith src rd) k s =
      State.drawn { s with passes := n } r fun c t => t.writeReg rd c :=
  ⟨fuel + 1, movesOf_of_ended (makePrimeWithin_endsOnce src _ _ g)
    (mkprimeWith_carriesOut src rd hg hw) hb (makePrimeWithin_mono (by omega) h)⟩

/-- Settles O39: a move has one pass more than the one before, and a loop that has ended stays ended;
the loop skips the rejected candidates. -/
theorem mkprimeRefinesMakePrime : Obligations.MkprimeRefinesMakePrime := by
  refine ⟨fun src s rd g fuel hg hb hw => ⟨fun c g' h => ?_, fun e g' h => ?_, fun h => ?_⟩,
    ?_⟩
  · obtain ⟨k, n, hmoves⟩ := movesOf_mkprime_of_ended rd hg hb hw h
    have hfits := makePrimeWithin_ok_fits h hw
    exact ⟨k, primeStored s rd c g', hmoves.trans (drawn_writeReg_fits _ rd g' hfits),
      primeStored_succeeded s rd c g', primeStored_frame s rd c g', primeStored_reg s rd c g', rfl⟩
  · obtain ⟨k, n, hmoves⟩ := movesOf_mkprime_of_ended rd hg hb hw h
    exact ⟨k, (s.putGen g').failWith e, hmoves.trans (drawn_error _ rfl _),
      failWith_failed e rfl rfl, putGen_failWith_frame s g' e, rfl⟩
  · exact ⟨_, movesOf_of_running (makePrimeWithin_endsOnce src _ _ g)
      (mkprimeWith_carriesOut src rd hg hw) hb h, setPasses_running hb _, setPasses_frame s _⟩
  · intro src bits iters fuel g k hk cand test next hrejects
    obtain ⟨m, rfl⟩ := Nat.exists_eq_add_of_lt hk
    have hskip : makePrimeWithin src bits iters (k + m + 1) g =
        makePrimeWithin src bits iters (m + 1) (next^[k] g) := by
      rw [Nat.add_assoc, Nat.add_comm]
      exact makePrimeWithin_of_all_reject (m + 1) hrejects
    rw [hskip, Function.iterate_succ_apply']
    exact ⟨makePrimeWithin_of_accepts m, fun e => makePrimeWithin_of_raises m⟩

/-! ## Candidates up to 4 (rule R265) -/

theorem isPrime_of_le_four (src : RandSource) {n : Nat} (iters g : Nat) (hn : n ≤ 4) :
    isPrime src n iters g = (.error .smalln, g) := if_pos hn

/-- A candidate of at most two bits is refused after its draw. -/
theorem candidateTest_of_bits_le_one (src : RandSource) {bits : Nat} (iters g : Nat)
    (hb : bits ≤ 1) :
    candidateTest src bits iters g = (.error .smalln, (randBits src g bits).2) := by
  have hlt : candidate src bits g < 2 ^ (bits + 1) := (candidate_range src g bits).2
  have hpow : 2 ^ (bits + 1) ≤ 2 ^ 2 := Nat.pow_le_pow_right Nat.two_pos (by omega)
  exact isPrime_of_le_four src iters _ (by omega)

/-- Settles O50: the check of `IsPrime`, and each command's error completion with it. -/
theorem smallCandidatesAreErrors : Obligations.SmallCandidatesAreErrors := by
  refine ⟨fun src n iters g => ⟨isPrime_of_le_four src iters g,
    fun hn => ⟨_, _, isPrime_eq_of_roundsPass hn rfl⟩⟩, fun s rn hseed hn => ?_,
    fun s rd g hg hb hw => ?_⟩
  · obtain ⟨g, hg⟩ := Option.isSome_iff_exists.mp hseed
    have hexec : exec (.isprime rn) s = .next ((s.putGen g).failWith .smalln) := by
      rw [exec, execIsprime, isprimeWith, hg]
      exact (congrArg (s.drawn · _) (isPrime_of_le_four _ _ g hn)).trans (drawn_error s rfl _)
    refine ⟨_, hexec, failWith_failed _ rfl rfl, ?_⟩
    have hsame : s.putGen g = s := by rw [State.putGen, ← hg]
    rw [hsame]
    exact failWith_frame s _
  · have htest := candidateTest_of_bits_le_one Config.source s.itersArg g hb
    have hraises := makePrimeWithin_of_raises s.passes (congrArg Prod.fst htest)
    rw [afterCandidate, htest] at hraises
    have hexec : exec (.mkprime rd) s =
        .next ((s.putGen (randBits Config.source g s.bitsArg).2).failWith .smalln) := by
      rw [exec, execMkprime, mkprimeWith_eq_search _ rd hg (by omega), hraises, search_some,
        drawn_error s rfl]
    exact ⟨_, hexec, failWith_failed _ rfl rfl, putGen_failWith_frame s _ _, rfl⟩

end Sys2Proof.Proofs
end

section
/-! PROOFS. `MKPUB` (rule R191): `make_public` loop by loop and what more passes change, how a move
stores a key (O40), the moves that carry the rule out (O41), no `SMALLN` from 12 bits on (O42). -/

namespace Sys2Proof.Proofs

open Sys2Proof Sys2Proof.Machine Sys2Proof.Laws

/-! ## The exponent loop -/

/-- The generator state an exponent draw leaves. -/
def afterExponent (src : RandSource) (bits g : Nat) : Nat := (randBits src g bits).2

section
variable {src : RandSource} {bits tot g : Nat}

theorem exponentWithin_of_coprime (fuel : Nat) (h : Nat.gcd (randBits src g bits).1 tot = 1) :
    exponentWithin src bits tot (fuel + 1) g = some (randBits src g bits) := by
  rw [exponentWithin, gcdFn_eq, if_pos h]

theorem exponentWithin_of_not_coprime (fuel : Nat)
    (h : Nat.gcd (randBits src g bits).1 tot ≠ 1) :
    exponentWithin src bits tot (fuel + 1) g =
      exponentWithin src bits tot fuel (afterExponent src bits g) := by
  rw [exponentWithin, gcdFn_eq, if_neg h, afterExponent]

/-- The loop answers the first draw coprime to the totient. -/
theorem exponentWithin_of_first_coprime {fuel k : Nat} (hk : k < fuel)
    (hskip : ∀ j, j < k →
      Nat.gcd (randBits src ((afterExponent src bits)^[j] g) bits).1 tot ≠ 1)
    (h : Nat.gcd (randBits src ((afterExponent src bits)^[k] g) bits).1 tot = 1) :
    exponentWithin src bits tot fuel g =
      some (randBits src ((afterExponent src bits)^[k] g) bits) := by
  induction fuel generalizing k g with
  | zero => omega
  | succ fuel ih =>
    cases k with
    | zero => exact exponentWithin_of_coprime fuel h
    | succ k =>
      calc exponentWithin src bits tot (fuel + 1) g
          = exponentWithin src bits tot fuel (afterExponent src bits g) :=
            exponentWithin_of_not_coprime fuel (hskip 0 k.succ_pos)
        _ = some (randBits src ((afterExponent src bits)^[k + 1] g) bits) :=
            ih (Nat.lt_of_succ_lt_succ hk) (fun j hj => hskip (j + 1) (Nat.succ_lt_succ hj)) h

/-- More passes do not change the exponent found. -/
theorem exponentWithin_mono {m n : Nat} {r : Nat × Nat} (hmn : m ≤ n)
    (h : exponentWithin src bits tot m g = some r) : exponentWithin src bits tot n g = some r := by
  induction m generalizing n g with
  | zero => cases h
  | succ m ih =>
    obtain ⟨n, rfl⟩ := Nat.exists_eq_add_one_of_ne_zero (show n ≠ 0 by omega)
    by_cases hc : Nat.gcd (randBits src g bits).1 tot = 1
    · rwa [exponentWithin_of_coprime _ hc] at h ⊢
    · rw [exponentWithin_of_not_coprime _ hc] at h ⊢
      exact ih (Nat.le_of_succ_le_succ hmn) h

end

/-! ## `make_public`, loop by loop -/

/-- The draw that splits `BITS`, and the generator state it leaves. -/
def splitDraw (src : RandSource) (bits g : Nat) : Nat × Nat :=
  randBelow src g (splitHigh bits - splitLow bits)

/-- The width of `p`, one bit less than it has. -/
def primeBits (src : RandSource) (bits g : Nat) : Nat := splitLow bits + (splitDraw src bits g).1

section
variable {src : RandSource} {bits iters fuel g : Nat}

theorem splitRange_pos (hb : 2 ≤ bits) : splitHigh bits - splitLow bits ≠ 0 := by
  rw [splitHigh, splitLow]
  omega

/-- Nothing is drawn when the split range is empty (rule R191). -/
theorem makePublicWithin_of_bits_lt_two (hb : bits < 2) :
    makePublicWithin src bits iters fuel g = some (.error .param, g) := by
  rw [makePublicWithin, if_pos (by rw [splitHigh, splitLow]; omega)]

theorem makePublicWithin_of_p_runs (hb : 2 ≤ bits)
    (hp : makePrimeWithin src (primeBits src bits g) iters fuel (splitDraw src bits g).2 = none) :
    makePublicWithin src bits iters fuel g = none := by
  rw [primeBits, splitDraw] at hp
  simp only [makePublicWithin, if_neg (splitRange_pos hb), hp]

theorem makePublicWithin_of_p_raises (hb : 2 ≤ bits) {c : ErrCode} {g1 : Nat}
    (hp : makePrimeWithin src (primeBits src bits g) iters fuel (splitDraw src bits g).2 =
      some (.error c, g1)) :
    makePublicWithin src bits iters fuel g = some (.error c, g1) := by
  rw [primeBits, splitDraw] at hp
  simp only [makePublicWithin, if_neg (splitRange_pos hb), hp]

theorem makePublicWithin_of_q_runs (hb : 2 ≤ bits) {p g1 : Nat}
    (hp : makePrimeWithin src (primeBits src bits g) iters fuel (splitDraw src bits g).2 =
      some (.ok p, g1))
    (hq : makePrimeWithin src (bits - primeBits src bits g) iters fuel g1 = none) :
    makePublicWithin src bits iters fuel g = none := by
  rw [primeBits, splitDraw] at hp hq
  simp only [makePublicWithin, if_neg (splitRange_pos hb), hp, hq]

theorem makePublicWithin_of_q_raises (hb : 2 ≤ bits) {p g1 g2 : Nat} {c : ErrCode}
    (hp : makePrimeWithin src (primeBits src bits g) iters fuel (splitDraw src bits g).2 =
      some (.ok p, g1))
    (hq : makePrimeWithin src (bits - primeBits src bits g) iters fuel g1 = some (.error c, g2)) :
    makePublicWithin src bits iters fuel g = some (.error c, g2) := by
  rw [primeBits, splitDraw] at hp hq
  simp only [makePublicWithin, if_neg (splitRange_pos hb), hp, hq]

theorem makePublicWithin_of_primes (hb : 2 ≤ bits) {p q g1 g2 : Nat}
    (hp : makePrimeWithin src (primeBits src bits g) iters fuel (splitDraw src bits g).2 =
      some (.ok p, g1))
    (hq : makePrimeWithin src (bits - primeBits src bits g) iters fuel g1 = some (.ok q, g2)) :
    makePublicWithin src bits iters fuel g = publicTail src bits fuel p q g2 := by
  rw [primeBits, splitDraw] at hp hq
  simp only [makePublicWithin, if_neg (splitRange_pos hb), hp, hq]

/-- A prime that is found is above 4. -/
theorem makePrimeWithin_ok_gt_four {c g' : Nat}
    (h : makePrimeWithin src bits iters fuel g = some (.ok c, g')) : 4 < c := by
  rcases makePrimeWithin_sound h with ⟨_, hc, hgt, -⟩ | ⟨he, -⟩
  · exact Except.ok.inj hc ▸ hgt
  · cases he

/-- The tail is the exponent loop for the least common multiple, which is not that of two zeros. -/
theorem publicTail_eq {p q : Nat} (hp : 4 < p) :
    publicTail src bits fuel p q g =
      (exponentWithin src bits (Nat.lcm (p - 1) (q - 1)) fuel g).map fun r =>
        (.ok ⟨p, q, p * q, r.1⟩, r.2) := by
  rw [publicTail, lcmFn_eq (by omega)]

/-- More passes do not change how the tail has ended. -/
theorem publicTail_mono {m n p q : Nat} {r : Except ErrCode PublicMaterial × Nat} (hmn : m ≤ n)
    (hp : 4 < p) (h : publicTail src bits m p q g = some r) :
    publicTail src bits n p q g = some r := by
  rw [publicTail_eq hp, Option.map_eq_some_iff] at h
  obtain ⟨e, he, hr⟩ := h
  rw [publicTail_eq hp, exponentWithin_mono hmn he, Option.map_some, hr]

/-- More passes for each loop do not change how `make_public` has ended. -/
theorem makePublicWithin_mono {m n : Nat} {r : Except ErrCode PublicMaterial × Nat} (hmn : m ≤ n)
    (h : makePublicWithin src bits iters m g = some r) :
    makePublicWithin src bits iters n g = some r := by
  rcases Nat.lt_or_ge bits 2 with hb | hb
  · rwa [makePublicWithin_of_bits_lt_two hb] at h ⊢
  · rcases hp : makePrimeWithin src (primeBits src bits g) iters m (splitDraw src bits g).2
      with _ | ⟨c | p, g1⟩
    · cases (makePublicWithin_of_p_runs hb hp).symm.trans h
    · rwa [makePublicWithin_of_p_raises hb hp,
        ← makePublicWithin_of_p_raises hb (makePrimeWithin_mono hmn hp)] at h
    · have hpn := makePrimeWithin_mono hmn hp
      rcases hq : makePrimeWithin src (bits - primeBits src bits g) iters m g1
        with _ | ⟨c | q, g2⟩
      · cases (makePublicWithin_of_q_runs hb hp hq).symm.trans h
      · rwa [makePublicWithin_of_q_raises hb hp hq,
          ← makePublicWithin_of_q_raises hb hpn (makePrimeWithin_mono hmn hq)] at h
      · rw [makePublicWithin_of_primes hb hp hq] at h
        rw [makePublicWithin_of_primes hb hpn (makePrimeWithin_mono hmn hq)]
        exact publicTail_mono hmn (makePrimeWithin_ok_gt_four hp) h

/-- Key material that is returned is sound. -/
theorem makePublicWithin_ok_sound {m : PublicMaterial} {g' : Nat}
    (h : makePublicWithin src bits iters fuel g = some (.ok m, g')) :
    ∃ pbits, PublicSound bits pbits m := by
  rcases makePublicWithin_sound h with ⟨m', pbits, hm, hsound⟩ | ⟨he, -⟩ | ⟨he, -⟩
  · exact ⟨pbits, Except.ok.inj hm ▸ hsound⟩
  · cases he
  · cases he

end

theorem makePublicWithin_endsOnce (src : RandSource) (bits iters g : Nat) :
    EndsOnce fun fuel => makePublicWithin src bits iters fuel g :=
  fun _ _ _ => makePublicWithin_mono

/-! ## How a move of `MKPUB` ends -/

/-- Past its checks a move of `MKPUB` is a search. -/
theorem mkpubWith_eq_search (src : RandSource) {rp rq rn re : RegIx} {s : State} {g : Nat}
    (hd : pairwiseDistinct rp rq rn re = true) (hg : s.g = some g) (hw : s.bitsArg + 2 ≤ s.width) :
    mkpubWith src rp rq rn re s =
      s.search (makePublicWithin src s.bitsArg s.itersArg (s.passes + 1) g)
        fun m t => t.writeKey rp rq rn re m.p m.q m.e := by
  rw [mkpubWith, if_pos hd, hg]
  exact if_neg (Nat.not_lt.mpr hw)

theorem mkpubWith_carriesOut (src : RandSource) {rp rq rn re : RegIx} {s : State} {g : Nat}
    (hd : pairwiseDistinct rp rq rn re = true) (hg : s.g = some g) (hw : s.bitsArg + 2 ≤ s.width) :
    CarriesOut (mkpubWith src rp rq rn re)
      (fun fuel => makePublicWithin src s.bitsArg s.itersArg fuel g)
      (fun m t => t.writeKey rp rq rn re m.p m.q m.e) s :=
  fun n => mkpubWith_eq_search src (s := { s with passes := n }) hd hg hw

/-- The key parts in their destinations. -/
def putKey (s : State) (rp rq rn re : RegIx) (m : PublicMaterial) : State :=
  (((s.putReg rp m.p).putReg rq m.q).putReg rn (m.p * m.q)).putReg re m.e

/-- The state in which a `MKPUB` that found `m` ends, its draws leaving generator state `g`. -/
def keyStored (s : State) (rp rq rn re : RegIx) (m : PublicMaterial) (g : Nat) : State :=
  (putKey (s.putGen g) rp rq rn re m).complete

section
variable (s : State) {rp rq rn re : RegIx} (m : PublicMaterial) (g : Nat)

theorem keyStored_succeeded : Succeeded s (keyStored s rp rq rn re m g) :=
  complete_succeeded rfl rfl

theorem putKey_frame (ps : List Part) : Frame [rp, rq, rn, re] ps s (putKey s rp rq rn re m) :=
  frame_trans (putReg_frame s (by simp) ps m.p) <|
  frame_trans (putReg_frame _ (by simp) ps m.q) <|
  frame_trans (putReg_frame _ (by simp) ps (m.p * m.q)) (putReg_frame _ (by simp) ps m.e)

theorem keyStored_frame : Frame [rp, rq, rn, re] [.gen] s (keyStored s rp rq rn re m g) :=
  complete_keeps_frame
    (frame_trans (putGen_frame s _ (List.mem_singleton_self _) g) (putKey_frame _ m _))

/-- No later write of a key part meets an earlier one (rule R101). -/
theorem keyStored_regs (hd : pairwiseDistinct rp rq rn re = true) :
    (keyStored s rp rq rn re m g).reg rp = m.p ∧ (keyStored s rp rq rn re m g).reg rq = m.q ∧
      (keyStored s rp rq rn re m g).reg rn = m.p * m.q ∧
      (keyStored s rp rq rn re m g).reg re = m.e := by
  simp only [pairwiseDistinct, Bool.and_eq_true, bne_iff_ne] at hd
  obtain ⟨⟨⟨⟨⟨hpq, hpn⟩, hpe⟩, hqn⟩, hqe⟩, hne⟩ := hd
  simp only [keyStored, complete_reg, putKey, putReg_reg, hpq, hpn, hpe, hqn, hqe, hne, if_true,
    if_false, and_self]

end

/-- Key material that `make_public` returned fits, so it is stored. -/
theorem drawn_writeKey_fits {src : RandSource} {bits iters fuel g g' : Nat} {m : PublicMaterial}
    {s : State} (rp rq rn re : RegIx) (hw : bits + 2 ≤ s.width)
    (h : makePublicWithin src bits iters fuel g = some (.ok m, g')) :
    s.drawn (.ok m, g') (fun m t => t.writeKey rp rq rn re m.p m.q m.e) =
      .next (keyStored s rp rq rn re m g') := by
  obtain ⟨pbits, hsound⟩ := makePublicWithin_ok_sound h
  obtain ⟨hp, hq, hn, he⟩ := hsound.fits hw
  exact drawn_ok s rfl (writeKey_fits (s := s.putGen g') rp rq rn re hp hq hn he)

/-- Settles O40: a move is a search, with three ways to end; and `make_public` is its searches in their
order, the exponents up to the first coprime one. -/
theorem mkpubFirstAndLastMove : Obligations.MkpubFirstAndLastMove := by
  constructor
  · intro src s rp rq rn re g hd hg hb hw result
    have hexec : src = Config.source →
        exec (.mkpub rp rq rn re) s = mkpubWith src rp rq rn re s := fun h => by rw [h]; rfl
    have hmove : mkpubWith src rp rq rn re s = s.search result _ := mkpubWith_eq_search src hd hg hw
    rcases hr : result with _ | ⟨c | m, g'⟩ <;> rw [hr] at hmove
    · exact ⟨s.goOn, hmove, fun hsrc => (hexec hsrc).trans hmove,
        fun _ => ⟨goOn_running hb, goOn_frame s, rfl⟩, nofun, nofun⟩
    · have hends := hmove.trans
        (drawn_error s (r := (.error c, g')) rfl fun m t => t.writeKey rp rq rn re m.p m.q m.e)
      refine ⟨_, hends, fun hsrc => (hexec hsrc).trans hends, nofun, nofun, fun c' g'' heq => ?_⟩
      cases heq
      exact ⟨failWith_failed c rfl rfl, putGen_failWith_frame s g' c, rfl⟩
    · have hends := hmove.trans (drawn_writeKey_fits rp rq rn re hw hr)
      refine ⟨_, hends, fun hsrc => (hexec hsrc).trans hends, nofun, fun m' g'' heq => ?_, nofun⟩
      cases heq
      obtain ⟨hp, hq, hn, he⟩ := keyStored_regs s m g' hd
      exact ⟨keyStored_succeeded s m g', keyStored_frame s m g', hp, hq, hn, he, rfl⟩
  · intro src bits iters fuel g p q g1 g2 k hb hk split pbits draw hp hq hskip hcop
    rw [makePublicWithin_of_primes hb hp hq, publicTail_eq (makePrimeWithin_ok_gt_four hp),
      exponentWithin_of_first_coprime hk hskip hcop]
    rfl

/-- When `make_public` ends within some number of passes, the moves end with its result. -/
theorem movesOf_mkpub_of_ended {src : RandSource} {s : State} {rp rq rn re : RegIx} {g fuel : Nat}
    (hd : pairwiseDistinct rp rq rn re = true) (hg : s.g = some g) (hb : s.busy = true)
    (hw : s.bitsArg + 2 ≤ s.width) {r : Except ErrCode PublicMaterial × Nat}
    (h : makePublicWithin src s.bitsArg s.itersArg fuel g = some r) :
    ∃ k n, movesOf (mkpubWith src rp rq rn re) k s =
      State.drawn { s with passes := n } r fun m t => t.writeKey rp rq rn re m.p m.q m.e :=
  ⟨fuel + 1, movesOf_of_ended (makePublicWithin_endsOnce src _ _ g)
    (mkpubWith_carriesOut src hd hg hw) hb (makePublicWithin_mono (by omega) h)⟩

/-- Settles O41: a move has one pass more than the one before, and a `make_public` that has ended stays
ended; what it returns is sound. -/
theorem mkpubRefinesMakePublic : Obligations.MkpubRefinesMakePublic := by
  intro src s rp rq rn re g fuel hd hg hb _ hw
  refine ⟨fun m g' h => ?_, fun c g' h => ?_, fun h => ?_⟩
  · obtain ⟨k, n, hmoves⟩ := movesOf_mkpub_of_ended hd hg hb hw h
    obtain ⟨pbits, hsound⟩ := makePublicWithin_ok_sound h
    obtain ⟨hp, hq, hn, he⟩ := keyStored_regs s m g' hd
    obtain ⟨hlow, hhigh⟩ := hsound.range
    obtain ⟨⟨hsplit, hsplit'⟩, ⟨-, hp1, hp2⟩, ⟨-, hqs⟩, hmul, hexp⟩ := hsound
    refine ⟨⟨k, keyStored s rp rq rn re m g',
        hmoves.trans (drawn_writeKey_fits (s := { s with passes := n }) rp rq rn re hw h),
        keyStored_succeeded s m g', keyStored_frame s m g', hp, hq, hn.trans hmul.symm, he, rfl⟩,
      ⟨pbits, hsplit, hsplit', hp1, hp2, hqs⟩, hmul, ?_⟩
    rw [hmul]
    exact ⟨hlow, hhigh, hexp⟩
  · obtain ⟨k, n, hmoves⟩ := movesOf_mkpub_of_ended hd hg hb hw h
    exact ⟨k, (s.putGen g').failWith c, hmoves.trans (drawn_error _ rfl _),
      failWith_failed c rfl rfl, putGen_failWith_frame s g' c, rfl⟩
  · exact ⟨_, movesOf_of_running (makePublicWithin_endsOnce src _ _ g)
      (mkpubWith_carriesOut src hd hg hw) hb h, setPasses_running hb _, setPasses_frame s _⟩

/-! ## Small candidates -/

/-- A move of `MKPUB` is refused by one of its three checks, or is a search. -/
theorem exec_mkpub_cases (rp rq rn re : RegIx) (s : State) :
    (∃ c, c ≠ .smalln ∧ exec (.mkpub rp rq rn re) s = .next (s.failWith c)) ∨
      ∃ g, s.bitsArg + 2 ≤ s.width ∧ exec (.mkpub rp rq rn re) s =
        s.search (makePublicWithin Config.source s.bitsArg s.itersArg (s.passes + 1) g)
          fun m t => t.writeKey rp rq rn re m.p m.q m.e := by
  cases hd : pairwiseDistinct rp rq rn re with
  | false => exact .inl ⟨.illegal, nofun, exec_mkpub_coinciding hd s⟩
  | true =>
    cases hg : s.g with
    | none => exact .inl ⟨.norng, nofun, by rw [exec, execMkpub, mkpubWith, if_pos hd, hg, raise_eq]⟩
    | some g =>
      rcases Nat.lt_or_ge s.width (s.bitsArg + 2) with hw | hw
      · refine .inl ⟨.param, nofun, ?_⟩
        rw [exec, execMkpub, mkpubWith, if_pos hd, hg]
        exact if_pos hw
      · exact .inr ⟨g, hw, mkpubWith_eq_search Config.source hd hg hw⟩

/-- Settles O42: a search that ends from 12 bits on stores its key, and one that goes on shows no
error. -/
theorem mkpubWithTwelveBitsNeverSmall : Obligations.MkpubWithTwelveBitsNeverSmall := by
  intro s t rp rq rn re hinv hb hbits ht herr
  rcases exec_mkpub_cases rp rq rn re s with ⟨c, hc, hfail⟩ | ⟨g, hw, hsearch⟩
  · obtain rfl := Host.Outcome.next.inj (hfail.symm.trans ht)
    exact hc
  · rcases hr : makePublicWithin Config.source s.bitsArg s.itersArg (s.passes + 1) g
      with _ | ⟨c | m, g'⟩ <;> rw [hr] at hsearch
    · obtain rfl := Host.Outcome.next.inj (hsearch.symm.trans ht)
      exact absurd herr (by simp [(hinv.busyClear hb).2])
    · rcases makePublicWithin_sound hr with ⟨m, _, hm, -⟩ | ⟨-, hlt⟩ | ⟨-, hlt⟩
      · cases hm
      · omega
      · omega
    · obtain rfl := Host.Outcome.next.inj
        ((hsearch.trans (drawn_writeKey_fits rp rq rn re hw hr)).symm.trans ht)
      cases herr

end Sys2Proof.Proofs
end

section
/-! PROOFS. The host's procedures on the block (O60): one command with its operands, one chunk and one
ciphertext line, the two streams. -/

namespace Sys2Proof.Proofs

open Sys2Proof Sys2Proof.Machine Sys2Proof.Laws

/-! ## The commands the procedures give -/

theorem exec_verify {s : State} (rs re : RegIx) {rn : RegIx} (rm : RegIx) (hn : s.reg rn ≠ 0) :
    exec (.verify rs re rn rm) s =
      .next (s.putT (powMod (s.reg rs) (s.reg re) (s.reg rn) == s.reg rm)).complete := by
  rw [exec, execVerify, if_neg hn, commit_ok]

theorem exec_verify_of_zero_modulus {s : State} (rs re : RegIx) {rn : RegIx} (rm : RegIx)
    (hn : s.reg rn = 0) : exec (.verify rs re rn rm) s = .next (s.failWith .divzero) := by
  rw [exec, execVerify, if_pos hn, raise_eq]

theorem exec_blksz {s : State} {rn : RegIx} (hn : s.reg rn ≠ 0) :
    exec (.blksz rn) s = .next (s.putKbytes (blockSize (s.reg rn))).complete := by
  rw [exec, execBlksz, if_neg hn, commit_ok]

/-- `ENCBLK` past its two checks, in a block whose modulus register is in range. -/
theorem exec_encblk_of_modulus_fits {s : State} (rd re : RegIx) {rn : RegIx}
    (hlen : s.lenArg + 1 ≤ s.width / 8) (hn : s.reg rn ≠ 0) (hfit : s.reg rn < 2 ^ s.width) :
    exec (.encblk rd re rn) s = .next (s.putReg rd
      (powMod (packBlock (s.bufBytes s.lenArg)) (s.reg re) (s.reg rn))).complete := by
  rw [exec, execEncblk, if_neg (Nat.not_lt.mpr hlen), if_neg hn,
    writeReg_fits rd ((powMod_le _ _ hn).trans_lt hfit), commit_ok]

theorem exec_decblk_of_zero_modulus {s : State} (rc rd : RegIx) {rn : RegIx} (hn : s.reg rn = 0) :
    exec (.decblk rc rd rn) s = .next (s.failWith .divzero) := by
  rw [exec, execDecblk, if_pos hn, raise_eq]

/-! ## One command of the protocol (rule R231) -/

/-- The block once the host has written a command's word: what the engine moves from. -/
def latched (s : State) (i : Instr) : State := (s.issue (encode i)).answer .written

section
variable {how : Waiting} (h : Session) {s s' u : State} {budget : Nat} {operands : HostAct Unit}
  {i : Instr}

/-- A command whose first move completes it answers `T`. -/
theorem command_completes (hb : s.busy = false) (h0 : 0 < budget)
    (ho : operands (h.withMachine (s.answer (.data s.statusWord))) = (.ok (), h.withMachine s'))
    (hr : Ready how s') (hwf : i.wf = true) (hx : exec i (latched s' i) = .next u.complete)
    (hie : u.ie = s'.ie) :
    ∃ x, command how budget operands i (h.withMachine s) =
      (.ok u.tflag, h.withMachine (u.complete.answer x)) :=
  command_ends h hb h0 ho hr (decodeEncodeRoundTrip i hwf) hx rfl rfl hie

/-- A command whose first move raises an error stops the procedure with its code. -/
theorem command_fails (hb : s.busy = false) (h0 : 0 < budget)
    (ho : operands (h.withMachine (s.answer (.data s.statusWord))) = (.ok (), h.withMachine s'))
    (hr : Ready how s') (hwf : i.wf = true) {c : ErrCode}
    (hx : exec i (latched s' i) = .next ((latched s' i).failWith c)) :
    ∃ t, command how budget operands i (h.withMachine s) =
      (.error (.commandError (BitVec.setWidth 32 c.number)), h.withMachine t) := by
  obtain ⟨x, hc⟩ := command_ends h hb h0 ho hr (decodeEncodeRoundTrip i hwf) hx rfl rfl rfl
  exact ⟨_, hc⟩

end

/-! ## A block that holds a key -/

/-- A ready block of width `w` with modulus `n` in `R0` and exponent `x` in register `r`. -/
structure Keyed (how : Waiting) (w n : Nat) (r : RegIx) (x : Nat) (s : State) : Prop where
  ready : Ready how s
  width : s.width = w
  modulus : s.reg 0 = n
  exponent : s.reg r = x

/-- `t` is ready, and like `s` but for register `r`, which holds `v`. -/
structure Loaded (how : Waiting) (r : RegIx) (v : Nat) (s t : State) : Prop where
  ready : Ready how t
  width : t.width = s.width
  self : t.reg r = v
  other : ∀ i, i ≠ r → t.reg i = s.reg i

section
variable {how : Waiting} {w n x : Nat} {r : RegIx}

theorem Keyed.modulus_lt {s : State} (hk : Keyed how w n r x s) : n < 2 ^ w :=
  hk.modulus ▸ hk.width ▸ hk.ready.regs 0

theorem Keyed.width_lt {s : State} (hk : Keyed how w n r x s) : w < 2 ^ 32 := by
  obtain ⟨-, -, hlt⟩ := hk.ready.width
  exact hk.width ▸ hlt

/-- The key's blocks are shorter than the buffer (rule R212). -/
theorem Keyed.blockSize_lt {s : State} (hk : Keyed how w n r x s) (hn : n ≠ 0) :
    blockSize n < w / 8 :=
  Laws.blockSize_lt (hk.width ▸ hk.ready.width) hn hk.modulus_lt

/-- A power modulo the key's modulus fits the block's registers. -/
theorem Keyed.powMod_lt {s : State} (hk : Keyed how w n r x s) (hn : n ≠ 0) (b d : Nat) :
    powMod b d n < 2 ^ s.width :=
  (powMod_le b d hn).trans_lt (hk.width.symm ▸ hk.modulus_lt)

theorem Keyed.answer {s : State} (hk : Keyed how w n r x s) (y : Response) :
    Keyed how w n r x (s.answer y) :=
  ⟨hk.ready.answer y, hk.width, hk.modulus, hk.exponent⟩

/-- A command that writes no register and no byte of the buffer leaves the key. -/
theorem Keyed.completed {s u : State} (hk : Keyed how w n r x s) (hw : u.width = s.width)
    (hregs : u.regs = s.regs) (hbuf : u.buf = s.buf) (hie : u.ie = s.ie) (y : Response) :
    Keyed how w n r x (u.complete.answer y) := by
  have hreg : ∀ i, u.reg i = s.reg i := fun i => by simp only [State.reg, hregs]
  exact ⟨hk.ready.congr hw rfl hregs hbuf hie, hw.trans hk.width, (hreg 0).trans hk.modulus,
    (hreg r).trans hk.exponent⟩

/-- Another register loaded leaves the key. -/
theorem Keyed.loaded {s t : State} (hk : Keyed how w n r x s) {i : RegIx} {v : Nat}
    (hl : Loaded how i v s t) (h0 : 0 ≠ i) (hr : r ≠ i) : Keyed how w n r x t :=
  ⟨hl.ready, hl.width.trans hk.width, (hl.other 0 h0).trans hk.modulus,
    (hl.other r hr).trans hk.exponent⟩

/-- An integer that fits is loaded. -/
theorem putInteger_loads (h : Session) {s : State} (hr : Ready how s) (i : RegIx) {v : Nat}
    (hv : v < 2 ^ s.width) :
    ∃ t, putInteger i v (h.withMachine s) = (.ok (), h.withMachine t) ∧ Loaded how i v s t := by
  obtain ⟨y, hp⟩ := putInteger_fits h hr i hv
  exact ⟨_, hp, (hr.putReg i hv).answer y, rfl, putReg_reg_self s i v,
    fun j hj => putReg_reg_ne s i j v hj⟩

end

/-! ## Verification of a key (rules R196, R246) -/

/-- The operands of the key's verification: modulus, exponent, signature, identity. -/
def keyOperands (n e s m : Nat) : HostAct Unit := do
  putInteger 0 n
  putInteger 1 e
  putInteger 3 s
  putInteger 6 m

section
variable {how : Waiting} (h : Session) {σ : State} {budget n e s m : Nat}

theorem keyOperands_load (hr : Ready how σ) (hn : n < 2 ^ σ.width) (he : e < 2 ^ σ.width)
    (hs : s < 2 ^ σ.width) (hm : m < 2 ^ σ.width) :
    ∃ τ, keyOperands n e s m (h.withMachine σ) = (.ok (), h.withMachine τ) ∧
      Keyed how σ.width n 1 e τ ∧ τ.reg 3 = s ∧ τ.reg 6 = m := by
  obtain ⟨σ₁, h₁, l₁⟩ := putInteger_loads h hr 0 hn
  obtain ⟨σ₂, h₂, l₂⟩ := putInteger_loads h l₁.ready 1 (l₁.width ▸ he)
  have hk₂ : Keyed how σ.width n 1 e σ₂ :=
    ⟨l₂.ready, l₂.width.trans l₁.width, (l₂.other 0 (by decide)).trans l₁.self, l₂.self⟩
  obtain ⟨σ₃, h₃, l₃⟩ := putInteger_loads h hk₂.ready 3 (hk₂.width ▸ hs)
  have hk₃ := hk₂.loaded l₃ (by decide) (by decide)
  obtain ⟨σ₄, h₄, l₄⟩ := putInteger_loads h hk₃.ready 6 (hk₃.width ▸ hm)
  refine ⟨σ₄, ?_, hk₃.loaded l₄ (by decide) (by decide), (l₄.other 3 (by decide)).trans l₃.self,
    l₄.self⟩
  rw [keyOperands, act_bind_ok h₁, act_bind_ok h₂, act_bind_ok h₃, h₄]

/-- A modulus other than 0: the procedure learns whether the signature verifies. -/
theorem command_verify (hr : Ready how σ) (h0 : 0 < budget) (hn : n < 2 ^ σ.width)
    (he : e < 2 ^ σ.width) (hs : s < 2 ^ σ.width) (hm : m < 2 ^ σ.width) (hn0 : n ≠ 0) :
    ∃ τ, command how budget (keyOperands n e s m) (.verify 3 1 0 6) (h.withMachine σ) =
      (.ok (powMod s e n == m), h.withMachine τ) ∧ Keyed how σ.width n 1 e τ := by
  obtain ⟨σ', ho, hk, h3, h6⟩ := keyOperands_load h (hr.answer (.data σ.statusWord)) hn he hs hm
  have hx : exec (.verify 3 1 0 6) (latched σ' (.verify 3 1 0 6)) =
      .next ((latched σ' (.verify 3 1 0 6)).putT (powMod s e n == m)).complete := by
    rw [← h3, ← h6, ← hk.exponent, ← hk.modulus]
    exact exec_verify 3 1 6 (show σ'.reg 0 ≠ 0 from hk.modulus.symm ▸ hn0)
  obtain ⟨y, hc⟩ := command_completes h hr.idle h0 ho hk.ready rfl hx rfl
  exact ⟨_, hc, hk.completed (u := (latched σ' _).putT _) rfl rfl rfl rfl y⟩

/-- Modulus 0: `DIVZERO` (rule R264). -/
theorem command_verify_of_zero_modulus (hr : Ready how σ) (h0 : 0 < budget) (he : e < 2 ^ σ.width)
    (hs : s < 2 ^ σ.width) (hm : m < 2 ^ σ.width) :
    ∃ τ, command how budget (keyOperands 0 e s m) (.verify 3 1 0 6) (h.withMachine σ) =
      (.error (.commandError 4), h.withMachine τ) := by
  obtain ⟨σ', ho, hk, -, -⟩ :=
    keyOperands_load h (hr.answer (.data σ.statusWord)) (Nat.two_pow_pos _) he hs hm
  exact command_fails h hr.idle h0 ho hk.ready rfl
    (exec_verify_of_zero_modulus (s := latched σ' (.verify 3 1 0 6)) 3 1 6 hk.modulus)

end

/-! ## Encryption (rule R242) -/

section
variable {how : Waiting} {w n e budget : Nat}

theorem command_blksz (h : Session) {s : State} (hk : Keyed how w n 1 e s) (h0 : 0 < budget)
    (hn : n ≠ 0) :
    ∃ b t, command how budget (pure ()) (.blksz 0) (h.withMachine s) = (.ok b, h.withMachine t) ∧
      Keyed how w n 1 e t ∧ t.kbytes.toNat = blockSize n := by
  have hx : exec (.blksz 0) (latched (s.answer (.data s.statusWord)) (.blksz 0)) =
      .next ((latched (s.answer (.data s.statusWord)) (.blksz 0)).putKbytes
        (blockSize n)).complete := by
    rw [← hk.modulus]
    exact exec_blksz (show s.reg 0 ≠ 0 from hk.modulus.symm ▸ hn)
  obtain ⟨y, hc⟩ := command_completes h hk.ready.idle h0 (operands := pure ()) rfl
    (hk.ready.answer _) rfl hx rfl
  refine ⟨_, _, hc, hk.completed (u := (latched (s.answer _) _).putKbytes _) rfl rfl rfl rfl y, ?_⟩
  have hsize := hk.blockSize_lt hn
  have hw := hk.width_lt
  exact Nat.mod_eq_of_lt (show blockSize n < 2 ^ 32 by omega)

/-- A chunk that fits is in the buffer with its length in `LEN` (rule R107). -/
theorem putChunk_loads (h : Session) {s : State} (hk : Keyed how w n 1 e s) {chunk : List Byte}
    (hl : chunk.length + 1 ≤ w / 8) :
    ∃ t, putChunk chunk (h.withMachine s) = (.ok (), h.withMachine t) ∧ Keyed how w n 1 e t ∧
      t.lenArg = chunk.length ∧ t.bufBytes chunk.length = chunk := by
  have hr := hk.ready
  have hw := hk.width_lt
  obtain ⟨m, y, ho, hm, hread⟩ :=
    putChunk_idle h hr (bytes := chunk) (by rw [hk.width]; omega)
  exact ⟨_, ho, ⟨⟨hr.width, hr.idle, hr.regs, hm, hr.ie⟩, hk.width, hk.modulus, hk.exponent⟩,
    Nat.mod_eq_of_lt (show chunk.length < 2 ^ 32 by omega), hread⟩

theorem command_encblk (h : Session) {s : State} (hk : Keyed how w n 1 e s) (h0 : 0 < budget)
    (hn : n ≠ 0) {chunk : List Byte} (hl : chunk.length + 1 ≤ w / 8) :
    ∃ b t, command how budget (putChunk chunk) (.encblk 7 1 0) (h.withMachine s) =
        (.ok b, h.withMachine t) ∧
      Keyed how w n 1 e t ∧ t.reg 7 = powMod (packBlock chunk) e n := by
  obtain ⟨s', ho, hk', hlen, hbuf⟩ := putChunk_loads h (hk.answer (.data s.statusWord)) hl
  rw [← hlen] at hbuf
  have hx : exec (.encblk 7 1 0) (latched s' (.encblk 7 1 0)) =
      .next ((latched s' (.encblk 7 1 0)).putReg 7 (powMod (packBlock chunk) e n)).complete := by
    rw [← hbuf, ← hk'.exponent, ← hk'.modulus]
    exact exec_encblk_of_modulus_fits 7 1
      (show s'.lenArg + 1 ≤ s'.width / 8 by rw [hlen, hk'.width]; exact hl)
      (show s'.reg 0 ≠ 0 from hk'.modulus.symm ▸ hn) (hk'.ready.regs 0)
  obtain ⟨y, hc⟩ := command_completes h hk.ready.idle h0 ho hk'.ready rfl hx rfl
  have hload : Loaded how 7 (powMod (packBlock chunk) e n) s' (s'.putReg 7 _) :=
    ⟨hk'.ready.putReg 7 (hk'.powMod_lt hn _ e), rfl, putReg_reg_self s' 7 _, fun i hi => putReg_reg_ne s' 7 i _ hi⟩
  exact ⟨_, _, hc, (hk'.loaded hload (by decide) (by decide)).completed
    (u := (latched s' _).putReg 7 _) rfl rfl rfl rfl y, hload.self⟩

/-- The ciphertext line of a chunk, without its line feed. -/
def chunkLine (n e : Nat) (chunk : List Byte) : List Char :=
  hexText (powMod (packBlock chunk) e n)

theorem encryptChunk_emits {u : Session} (hk : Keyed how w n 1 e u.machine) (h0 : 0 < budget)
    (hn : n ≠ 0) {chunk : List Byte} (hl : chunk.length + 1 ≤ w / 8) :
    ∃ u', encryptChunk how budget chunk u = (.ok (), u') ∧ Keyed how w n 1 e u'.machine ∧
      u'.text = u.text ++ textLine (chunkLine n e chunk) ∧ u'.bytes = u.bytes := by
  obtain ⟨b, t, hc, hkt, hv⟩ := command_encblk u hk h0 hn hl
  obtain ⟨y, hg⟩ := getInteger_idle u hkt.ready 7
  rw [hv] at hg
  have hrun : encryptChunk how budget chunk u =
      emitText (textLine (chunkLine n e chunk)) (u.withMachine (t.answer y)) :=
    (act_bind_ok hc).trans (act_bind_ok hg)
  exact ⟨_, hrun, hkt.answer y, rfl, rfl⟩

/-- The chunks of a stream leave as its ciphertext lines, in order. -/
theorem encryptChunks_emit {u : Session} (hk : Keyed how w n 1 e u.machine) (h0 : 0 < budget)
    (hn : n ≠ 0) {cs : List (List Byte)} (hl : ∀ c ∈ cs, c.length + 1 ≤ w / 8) :
    ∃ u', cs.forM (encryptChunk how budget) u = (.ok (), u') ∧ Keyed how w n 1 e u'.machine ∧
      u'.text = u.text ++ cipherText (cs.map (chunkLine n e)) ∧ u'.bytes = u.bytes := by
  refine act_forM (f := encryptChunk how budget) (h := u) (fun done v => Keyed how w n 1 e v.machine ∧
    v.text = u.text ++ cipherText (done.map (chunkLine n e)) ∧ v.bytes = u.bytes) cs
    ⟨hk, by simp [cipherText], rfl⟩ fun done c rest v hsplit ⟨hkv, htext, hbytes⟩ => ?_
  obtain ⟨v', hrun, hkv', htext', hbytes'⟩ := encryptChunk_emits hkv h0 hn (hl c (by simp [hsplit]))
  refine ⟨v', hrun, hkv', ?_, hbytes'.trans hbytes⟩
  rw [htext', htext]
  simp [cipherText]

/-- The chunks of a stream leave room for the marker in a block of the key. -/
theorem chunks_room {s : State} (hk : Keyed how w n 1 e s) (hn : n ≠ 0) {bs : List Byte}
    {cs : List (List Byte)} (h : chunks (blockSize n) bs = some cs) :
    ∀ c ∈ cs, c.length + 1 ≤ w / 8 := by
  have hsize := hk.blockSize_lt hn
  rw [chunks] at h
  split at h
  · cases h
  · obtain rfl := Option.some.inj h
    obtain ⟨-, hle, -⟩ := chunksLoop_spec (size := blockSize n - 1) (by omega)
      (Nat.lt_succ_self bs.length)
    intro c hc
    have := hle c hc
    omega

/-- What is done with a stream's chunks, if there are any. -/
def encryptChunks (how : Waiting) (budget : Nat) : Option (List (List Byte)) → HostAct Unit
  | none => throw .smallModulus
  | some cs => cs.forM (encryptChunk how budget)

/-- What follows the verification. -/
def encryptVerified (how : Waiting) (budget : Nat) (input : List Byte) (verified : Bool) :
    HostAct Unit := do
  if verified then
    let _ ← command how budget (pure ()) (.blksz 0)
    encryptChunks how budget (chunks (← readWord .kbytes).toNat input)
  else throw .mismatch

/-- Past the parsing of the key file, the encryption is the verification and what follows it. -/
theorem encryptStream_eq {h : Session} {keyFile identity : List Char} {s m : Nat}
    (hkey : parsePublicKey keyFile = some (n, e, s, identity))
    (hid : identityInteger h.machine.width identity = some m) (input : List Byte) :
    encryptStream how budget keyFile input h =
      (command how budget (keyOperands n e s m) (.verify 3 1 0 6) >>=
        encryptVerified how budget input) h := by
  unfold encryptStream
  rw [hkey, act_bind_ok (x := parsed (some (n, e, s, identity))) rfl]
  dsimp only
  rw [act_bind_ok (x := blockWidth) (a := h.machine.width) rfl, hid,
    act_bind_ok (x := parsed (some m)) rfl]
  rfl

/-- After a successful verification the block size decides the chunks. -/
theorem encryptVerified_true {u : Session} (hk : Keyed how w n 1 e u.machine) (h0 : 0 < budget)
    (hn : n ≠ 0) (input : List Byte) :
    ∃ u', encryptVerified how budget input true u =
        encryptChunks how budget (chunks (blockSize n) input) u' ∧
      Keyed how w n 1 e u'.machine ∧ u'.text = u.text ∧ u'.bytes = u.bytes := by
  obtain ⟨b, t, hc, hkt, hsize⟩ := command_blksz u hk h0 hn
  have hread := readWord_open u (named_kbytes t.width) (Bool.and_eq_false_iff.mpr (.inl hkt.ready.idle))
  rw [← hsize]
  exact ⟨_, (act_bind_ok hc).trans (act_bind_ok hread), hkt.answer _, rfl, rfl⟩

/-- An identity's integer fits (rule R240). -/
theorem identityInteger_lt {identity : List Char} {m : Nat} (h : identityInteger w identity = some m) :
    m < 2 ^ w := by
  rw [identityInteger, Option.bind_eq_some_iff] at h
  obtain ⟨v, -, hv⟩ := h
  split at hv
  · next hlt => exact Option.some.inj hv ▸ hlt
  · cases hv

end

section
variable {how : Waiting} {budget : Nat} {h : Session} {keyFile identity : List Char} {n e s m : Nat}

/-- With modulus 0 the verification ends with `DIVZERO` (rules R231, R264). -/
theorem encryptStream_of_zero_modulus (hr : Ready how h.machine) (h0 : 0 < budget)
    (hkey : parsePublicKey keyFile = some (0, e, s, identity))
    (hid : identityInteger h.machine.width identity = some m) (he : e < 2 ^ h.machine.width)
    (hs : s < 2 ^ h.machine.width) (input : List Byte) :
    ∃ u, encryptStream how budget keyFile input h = (.error (.commandError 4), u) ∧
      u.text = h.text ∧ u.bytes = h.bytes := by
  obtain ⟨t, hc⟩ := command_verify_of_zero_modulus h hr h0 he hs (identityInteger_lt hid)
  exact ⟨_, (encryptStream_eq hkey hid input).trans (act_bind_error hc), rfl, rfl⟩

/-- With another modulus it is decided whether the signature verifies, and nothing is written yet
(rule R246). -/
theorem encryptStream_verifies (hr : Ready how h.machine) (h0 : 0 < budget)
    (hkey : parsePublicKey keyFile = some (n, e, s, identity))
    (hid : identityInteger h.machine.width identity = some m) (hn : n < 2 ^ h.machine.width)
    (he : e < 2 ^ h.machine.width) (hs : s < 2 ^ h.machine.width) (hn0 : n ≠ 0)
    (input : List Byte) :
    ∃ u, encryptStream how budget keyFile input h =
        encryptVerified how budget input (powMod s e n == m) u ∧
      Keyed how h.machine.width n 1 e u.machine ∧ u.text = h.text ∧ u.bytes = h.bytes := by
  obtain ⟨t, hc, hk⟩ := command_verify h hr h0 hn he hs (identityInteger_lt hid) hn0
  exact ⟨_, (encryptStream_eq hkey hid input).trans (act_bind_ok hc), hk, rfl, rfl⟩

end

/-! ## Decryption (rule R244) -/

section
variable {how : Waiting} {w n d budget : Nat}

/-- A ciphertext integer that fits is the operand of `DECBLK`. -/
theorem putCipher_loads (u : Session) {s : State} (hk : Keyed how w n 2 d s) {c : Nat}
    (hc : c < 2 ^ w) :
    ∃ t, putInteger 7 c (u.withMachine s) = (.ok (), u.withMachine t) ∧ Keyed how w n 2 d t ∧
      t.reg 7 = c := by
  obtain ⟨t, ho, hl⟩ := putInteger_loads u hk.ready 7 (hk.width.symm ▸ hc)
  exact ⟨t, ho, hk.loaded hl (by decide) (by decide), hl.self⟩

/-- The bytes the host reads back are those of the unpacked block (rules R107, R215). -/
theorem storeBlock_bufBytes {s : State} (h : Memory.wf s.buf = true) (m : Nat) :
    (s.storeBlock m).bufBytes (bytelen m - 1) = unpackBlock m := by
  refine List.ext_getElem? fun i => ?_
  rw [State.bufBytes, getElem?_readBytes, Nat.zero_add]
  split
  · next hi =>
    have hi' : i < (unpackBlock m).length := by rwa [length_unpackBlock]
    have hbyte := storeBlock_bufByte h m i
    rw [if_pos hi, List.getD_eq_getElem _ _ hi'] at hbyte
    rw [List.getElem?_eq_getElem hi', ← hbyte]
    rfl
  · next hi => rw [List.getElem?_eq_none (by rw [length_unpackBlock]; omega)]

theorem command_decblk (u : Session) {s : State} (hk : Keyed how w n 2 d s) (h0 : 0 < budget)
    {c : Nat} (hc : c < 2 ^ w) (hn : n ≠ 0) (hm : powMod c d n ≠ 0) :
    ∃ b t, command how budget (putInteger 7 c) (.decblk 7 2 0) (u.withMachine s) =
        (.ok b, u.withMachine t) ∧
      Keyed how w n 2 d t ∧ t.lenArg = bytelen (powMod c d n) - 1 ∧
      t.bufBytes t.lenArg = unpackBlock (powMod c d n) := by
  obtain ⟨s', ho, hk', h7⟩ := putCipher_loads u (hk.answer (.data s.statusWord)) hc
  have hx : exec (.decblk 7 2 0) (latched s' (.decblk 7 2 0)) =
      .next ((latched s' (.decblk 7 2 0)).storeBlock (powMod c d n)).complete := by
    have hm' : powMod (s'.reg 7) (s'.reg 2) (s'.reg 0) ≠ 0 := by
      rwa [h7, hk'.exponent, hk'.modulus]
    rw [← h7, ← hk'.exponent, ← hk'.modulus]
    exact exec_decblk (show s'.reg 0 ≠ 0 from hk'.modulus.symm ▸ hn) hm'
  obtain ⟨y, hrun⟩ := command_completes u hk.ready.idle h0 ho hk'.ready rfl hx rfl
  have hr := hk'.ready
  have hlen := storeBlock_len_toNat (s := latched s' (.decblk 7 2 0)) hr.width
    (hk'.powMod_lt hn c d)
  refine ⟨_, _, hrun, ⟨⟨hr.width, rfl, hr.regs, wf_writeBytes hr.buf 0 _, hr.ie⟩, hk'.width,
    hk'.modulus, hk'.exponent⟩, hlen, ?_⟩
  exact (congrArg (State.bufBytes _) hlen).trans (storeBlock_bufBytes hr.buf _)

theorem command_decblk_fails (u : Session) {s : State} (hk : Keyed how w n 2 d s) (h0 : 0 < budget)
    {c : Nat} (hc : c < 2 ^ w) (hm : n = 0 ∨ powMod c d n = 0) :
    ∃ t, command how budget (putInteger 7 c) (.decblk 7 2 0) (u.withMachine s) =
        (.error (.commandError (if n = 0 then 4 else 7)), u.withMachine t) := by
  obtain ⟨s', ho, hk', h7⟩ := putCipher_loads u (hk.answer (.data s.statusWord)) hc
  by_cases hn : n = 0
  · rw [if_pos hn]
    exact command_fails u hk.ready.idle h0 ho hk'.ready rfl
      (exec_decblk_of_zero_modulus (s := latched s' _) 7 2 (hk'.modulus.trans hn))
  · rw [if_neg hn]
    have hm' : powMod (s'.reg 7) (s'.reg 2) (s'.reg 0) = 0 := by
      rw [h7, hk'.exponent, hk'.modulus]
      exact hm.resolve_left hn
    exact command_fails u hk.ready.idle h0 ho hk'.ready rfl
      (exec_decblk_zero (s := latched s' _) (show s'.reg 0 ≠ 0 from hk'.modulus.symm ▸ hn) hm')

/-- A line that decrypts holds an integer that fits and whose power is not 0 (rules R215, R244). -/
theorem of_plainChunk_eq_some {line : List Char} {bs : List Byte}
    (h : plainChunk w n d line = some bs) :
    ∃ c, parseHex line = some c ∧ c < 2 ^ w ∧ n ≠ 0 ∧ powMod c d n ≠ 0 ∧
      unpackBlock (powMod c d n) = bs := by
  rw [plainChunk, Option.bind_eq_some_iff] at h
  obtain ⟨c, hc, h⟩ := h
  split at h
  · cases h
  · next h1 =>
    split at h
    · cases h
    · next h2 =>
      obtain ⟨hlt, hn⟩ := not_or.mp h1
      exact ⟨c, hc, Nat.not_le.mp hlt, hn, h2, Option.some.inj h⟩

/-- An integer that fits, of a line that does not decrypt, has power 0 or no modulus. -/
theorem of_plainChunk_eq_none {line : List Char} {c : Nat} (h : plainChunk w n d line = none)
    (hp : parseHex line = some c) (hc : c < 2 ^ w) : n = 0 ∨ powMod c d n = 0 := by
  by_contra hcon
  obtain ⟨hn, hm⟩ := not_or.mp hcon
  rw [plainChunk, hp, Option.bind_some, if_neg (by omega), if_neg hm] at h
  cases h

theorem decryptLine_emits {u : Session} (hk : Keyed how w n 2 d u.machine) (h0 : 0 < budget)
    {line : List Char} {bs : List Byte} (h : plainChunk w n d line = some bs) :
    ∃ u', decryptLine how budget line u = (.ok (), u') ∧ Keyed how w n 2 d u'.machine ∧
      u'.bytes = u.bytes ++ bs ∧ u'.text = u.text := by
  obtain ⟨c, hp, hc, hn, hm, rfl⟩ := of_plainChunk_eq_some h
  obtain ⟨b, t, hcmd, hkt, hlen, hbuf⟩ := command_decblk u hk h0 hc hn hm
  have hroom : t.lenArg ≤ t.width / 8 := by
    have hle : bytelen (powMod c d n) ≤ t.width / 8 :=
      bytelen_le hkt.ready.width (hkt.powMod_lt hn c d)
    omega
  obtain ⟨y, hg⟩ := getChunk_idle u hkt.ready hroom
  rw [hbuf] at hg
  have hrun : decryptLine how budget line u =
      emitBytes (unpackBlock (powMod c d n)) (u.withMachine (t.answer y)) := by
    unfold decryptLine
    rw [hp, act_bind_ok (x := parsed (some c)) rfl]
    exact (act_bind_ok hcmd).trans (act_bind_ok hg)
  exact ⟨_, hrun, hkt.answer y, rfl, rfl⟩

/-- A line that does not decrypt stops the procedure with nothing written: as malformed without an
integer that fits, else with the command's code (rules R244, R248, R264, R267). -/
theorem decryptLine_stops {u : Session} (hk : Keyed how w n 2 d u.machine) (h0 : 0 < budget)
    {line : List Char} (h : plainChunk w n d line = none) :
    ∃ stop u', decryptLine how budget line u = (.error stop, u') ∧ u'.bytes = u.bytes ∧
      u'.text = u.text ∧
      ((∀ c, parseHex line = some c → 2 ^ w ≤ c) → stop = .malformed) ∧
      (∀ c, parseHex line = some c → c < 2 ^ w → stop = .commandError (if n = 0 then 4 else 7)) := by
  unfold decryptLine
  cases hp : parseHex line with
  | none => exact ⟨.malformed, u, rfl, rfl, rfl, fun _ => rfl, nofun⟩
  | some c =>
    rw [act_bind_ok (x := parsed (some c)) rfl]
    rcases Nat.lt_or_ge c (2 ^ w) with hc | hc
    · obtain ⟨t, hcmd⟩ := command_decblk_fails u hk h0 hc (of_plainChunk_eq_none h hp hc)
      exact ⟨_, _, act_bind_error hcmd, rfl, rfl, fun hbig => absurd (hbig c rfl) (Nat.not_le.mpr hc),
        fun _ _ _ => rfl⟩
    · have ho := putInteger_overflows u (s := u.machine.answer (.data u.machine.statusWord)) 7
        (v := c) (hk.width.symm ▸ hc)
      have hcmd := command_operands_stop (how := how) u hk.ready.idle h0 ho (.decblk 7 2 0)
      refine ⟨_, _, act_bind_error hcmd, rfl, rfl, fun _ => rfl, fun c' hc' hlt => ?_⟩
      obtain rfl := Option.some.inj hc'
      omega

/-- Lines that decrypt leave as their bytes, in order, and the lines after them are next. -/
theorem decryptLines_emit {u : Session} (hk : Keyed how w n 2 d u.machine) (h0 : 0 < budget)
    {lines : List (List Char)} (rest : List (List Char)) {parts : List (List Byte)}
    (h : lines.mapM (plainChunk w n d) = some parts) :
    ∃ u', (lines ++ rest).forM (decryptLine how budget) u = rest.forM (decryptLine how budget) u' ∧
      Keyed how w n 2 d u'.machine ∧ u'.bytes = u.bytes ++ parts.flatten ∧ u'.text = u.text := by
  induction lines generalizing u parts with
  | nil =>
    obtain rfl := Option.some.inj h
    exact ⟨u, rfl, hk, by simp, rfl⟩
  | cons line lines ih =>
    simp only [List.mapM_cons, Option.bind_eq_bind, Option.bind_eq_some_iff, Option.pure_def] at h
    obtain ⟨bs, hline, parts', hlines, hparts⟩ := h
    obtain rfl := Option.some.inj hparts
    obtain ⟨u₁, h₁, hk₁, hb₁, ht₁⟩ := decryptLine_emits hk h0 hline
    obtain ⟨u₂, h₂, hk₂, hb₂, ht₂⟩ := ih hk₁ hlines
    exact ⟨u₂, (act_bind_ok h₁).trans h₂, hk₂, by rw [hb₂, hb₁]; simp, ht₂.trans ht₁⟩

/-- The first element at which a collecting loop ends. -/
theorem exists_first_none_of_mapM {α β : Type} {f : α → Option β} {l : List α}
    (h : l.mapM f = none) :
    ∃ before a after bs, l = before ++ a :: after ∧ before.mapM f = some bs ∧ f a = none := by
  induction l with
  | nil => cases h
  | cons a l ih =>
    cases ha : f a with
    | none => exact ⟨[], a, l, [], rfl, rfl, ha⟩
    | some b =>
      have hl : l.mapM f = none := by
        cases hl : l.mapM f with
        | none => rfl
        | some bs => simp [ha, hl] at h
      obtain ⟨before, a', after, bs, rfl, hbefore, ha'⟩ := ih hl
      exact ⟨a :: before, a', after, b :: bs, rfl, by simp [ha, hbefore], ha'⟩

/-- Past its key the decryption is the loop over the lines. -/
theorem decryptStream_loads {h : Session} (hr : Ready how h.machine) (h0 : 0 < budget)
    {keyFile : List Char} (hkey : parsePrivateKey keyFile = some (n, d))
    (hn : n < 2 ^ h.machine.width) (hd : d < 2 ^ h.machine.width) (input : List Char) :
    ∃ u, decryptStream how budget keyFile input h =
        (textLines input).forM (decryptLine how budget) u ∧
      Keyed how h.machine.width n 2 d u.machine ∧ u.bytes = h.bytes ∧ u.text = h.text := by
  have hidle := awaitIdle_idle h hr.idle h0
  obtain ⟨s₁, h₁, l₁⟩ := putInteger_loads h (hr.answer (.data h.machine.statusWord)) 0 hn
  obtain ⟨s₂, h₂, l₂⟩ := putInteger_loads h l₁.ready 2 (l₁.width ▸ hd)
  have hk : Keyed how h.machine.width n 2 d s₂ :=
    ⟨l₂.ready, l₂.width.trans l₁.width, (l₂.other 0 (by decide)).trans l₁.self, l₂.self⟩
  refine ⟨h.withMachine s₂, ?_, hk, rfl, rfl⟩
  unfold decryptStream
  rw [hkey, act_bind_ok (x := parsed (some (n, d))) rfl]
  exact (act_bind_ok hidle).trans ((act_bind_ok h₁).trans (act_bind_ok h₂))

end

/-- Between two commands the invariant gives what the procedures ask of the block. -/
theorem ready_of_inv {how : Waiting} {s : State} (hinv : s.Inv) (hb : s.busy = false)
    (hie : how = .interrupt → s.ie = true) : Ready how s :=
  ⟨hinv.width, hb, hinv.regs, hinv.canonical, hie⟩

/-- Settles O60: the key's verification, then the block size, decide how an encryption ends; a decryption
emits the lines in front of the first that does not decrypt, and stops there. -/
theorem proceduresRunTheStreams : Obligations.ProceduresRunTheStreams := by
  intro h how budget hinv hb hie h0
  have hr := ready_of_inv hinv hb hie
  refine ⟨fun keyFile identity n e s m input hkey hid hn he hs => ⟨?_, ?_, ?_, ?_⟩,
    fun keyFile input n d hkey hn hd => ⟨fun parts hparts => ?_, fun hnone => ?_⟩⟩
  · rintro rfl
    exact encryptStream_of_zero_modulus hr h0 hkey hid he hs input
  · intro hn0 hne
    obtain ⟨u, hrun, -, htext, hbytes⟩ :=
      encryptStream_verifies hr h0 hkey hid hn he hs hn0 input
    rw [beq_false_of_ne hne] at hrun
    exact ⟨u, hrun, htext, hbytes⟩
  · intro hn0 heq hsmall
    obtain ⟨u, hrun, hk, htext, hbytes⟩ :=
      encryptStream_verifies hr h0 hkey hid hn he hs hn0 input
    obtain ⟨u', hrun', -, htext', hbytes'⟩ := encryptVerified_true hk h0 hn0 input
    rw [heq, beq_self_eq_true, hrun', chunks, if_pos hsmall] at hrun
    exact ⟨u', hrun, htext'.trans htext, hbytes'.trans hbytes⟩
  · intro lines hn0 heq hlines
    obtain ⟨u, hrun, hk, htext, hbytes⟩ :=
      encryptStream_verifies hr h0 hkey hid hn he hs hn0 input
    obtain ⟨u', hrun', hk', htext', hbytes'⟩ := encryptVerified_true hk h0 hn0 input
    rw [cipherLines, Option.map_eq_some_iff] at hlines
    obtain ⟨cs, hcs, rfl⟩ := hlines
    obtain ⟨v, hloop, hkv, htextv, hbytesv⟩ :=
      encryptChunks_emit hk' h0 hn0 (chunks_room hk' hn0 hcs)
    rw [heq, beq_self_eq_true, hrun', hcs] at hrun
    exact ⟨v, hrun.trans hloop, by rw [htextv, htext', htext]; rfl,
      hbytesv.trans (hbytes'.trans hbytes), hkv.ready.idle⟩
  · obtain ⟨u, hrun, hk, hbytes, htext⟩ := decryptStream_loads hr h0 hkey hn hd input
    obtain ⟨v, hloop, hkv, hbytesv, htextv⟩ := decryptLines_emit hk h0 [] hparts
    rw [List.append_nil] at hloop
    exact ⟨v, hrun.trans hloop, by rw [hbytesv, hbytes], htextv.trans htext, hkv.ready.idle⟩
  · obtain ⟨u, hrun, hk, hbytes, htext⟩ := decryptStream_loads hr h0 hkey hn hd input
    obtain ⟨before, line, after, parts, hsplit, hparts, hline⟩ := exists_first_none_of_mapM hnone
    obtain ⟨v, hloop, hkv, hbytesv, htextv⟩ := decryptLines_emit hk h0 (line :: after) hparts
    obtain ⟨stop, v', hstop, hbytes', htext', hmal, hcode⟩ := decryptLine_stops hkv h0 hline
    rw [hsplit, hloop] at hrun
    exact ⟨before, line, after, parts, stop, v', hsplit, hparts, hline,
      hrun.trans (act_bind_error hstop), by rw [hbytes', hbytesv, hbytes],
      htext'.trans (htextv.trans htext), hmal, hcode⟩

end Sys2Proof.Proofs
end

section
/-! PROOFS. The block size and the blocks below the modulus (O45); one block encrypted and decrypted on
the machine (O57). -/

namespace Sys2Proof.Proofs

open Sys2Proof Sys2Proof.Machine Sys2Proof.Laws

/-! ## Blocks of the block size (rules R211, R212) -/

/-- A chunk that leaves room for the marker makes a block below the modulus. -/
theorem packBlock_lt_modulus {n : Nat} (hn : n ≠ 0) {chunk : List Byte}
    (h : chunk.length + 1 ≤ blockSize n) : packBlock chunk < n :=
  calc packBlock chunk < 256 ^ (chunk.length + 1) := packBlock_lt chunk
    _ ≤ 256 ^ blockSize n := Nat.pow_le_pow_right (by decide) h
    _ ≤ n := (blockSize_spec hn).1

/-- The block size of a register's integer fits `KBYTES`. -/
theorem putKbytes_blockSize_toNat {s : State} (hinv : s.Inv) {rn : RegIx} (hn : s.reg rn ≠ 0) :
    (s.putKbytes (blockSize (s.reg rn))).kbytes.toNat = blockSize (s.reg rn) := by
  have hsize : blockSize (s.reg rn) < s.width / 8 := blockSize_lt hinv.width hn (hinv.regs rn)
  obtain ⟨-, -, hmax⟩ := hinv.width
  exact Nat.mod_eq_of_lt (by omega)

theorem putKbytes_frame (s : State) (k : Nat) : Frame [] [.kbytes] s (s.putKbytes k) :=
  { frame_refl [] [.kbytes] s with kbytes := fun hn => absurd (List.mem_singleton_self _) hn }

/-- Settles O45: `KBYTES` holds the block size, whose powers of 256 bound the modulus. -/
theorem blkszGivesBlockSize : Obligations.BlkszGivesBlockSize := by
  intro s rn hinv hn
  obtain ⟨hle, hlt⟩ := blockSize_spec hn
  refine ⟨_, exec_blksz hn, complete_succeeded rfl rfl,
    complete_keeps_frame (putKbytes_frame s _), ?_⟩
  rw [complete_kbytes, putKbytes_blockSize_toNat hinv hn]
  exact ⟨hle, hlt, fun _ hroom => packBlock_lt_modulus hn hroom⟩

/-! ## One block there and back (rule R216) -/

/-- The block packed from the buffer, unpacked into it, leaves `LEN` and every byte as they were. -/
theorem storeBlock_packBlock_bufBytes {s : State} (h : Memory.wf s.buf = true) :
    (s.storeBlock (packBlock (s.bufBytes s.lenArg))).len = s.len ∧
      ∀ i, (s.storeBlock (packBlock (s.bufBytes s.lenArg))).bufByte i = s.bufByte i := by
  have hlen : bytelen (packBlock (s.bufBytes s.lenArg)) - 1 = s.lenArg := by
    rw [(bytelen_packBlock _).2, Nat.add_sub_cancel]
    exact length_readBytes s.buf 0 s.lenArg
  have hback : BitVec.ofNat 32 s.lenArg = s.len := by
    rw [State.lenArg, BitVec.ofNat_toNat, BitVec.setWidth_eq]
  refine ⟨(congrArg (BitVec.ofNat 32) hlen).trans hback, fun i => ?_⟩
  rw [storeBlock_bufByte h, hlen, unpackBlock_packBlock]
  split
  · next hi =>
    rw [State.bufBytes, List.getD_eq_getElem?_getD, getElem?_readBytes, if_pos hi, Nat.zero_add]
    rfl
  · rfl

/-- `DECBLK` of a value that decrypts to the block of the buffer's own chunk leaves `LEN` and `BUF`. -/
theorem exec_decblk_of_own_block {s : State} (hbuf : Memory.wf s.buf = true) {rc rd rn : RegIx}
    {c d n : Nat} (hc : s.reg rc = c) (hd : s.reg rd = d) (hn : s.reg rn = n) (hn0 : n ≠ 0)
    (hm : powMod c d n = packBlock (s.bufBytes s.lenArg)) :
    ∃ u, exec (.decblk rc rd rn) s = .next u ∧ Succeeded s u ∧ u.len = s.len ∧
      ∀ i, u.bufByte i = s.bufByte i := by
  subst hc hd hn
  have hm0 : powMod (s.reg rc) (s.reg rd) (s.reg rn) ≠ 0 := hm ▸ (bytelen_packBlock _).1
  obtain ⟨hlen, hbytes⟩ := storeBlock_packBlock_bufBytes hbuf
  rw [← hm] at hlen hbytes
  exact ⟨_, exec_decblk hn0 hm0, complete_succeeded rfl rfl, hlen, hbytes⟩

/-- Settles O57: the block is below the modulus, so its power decrypts to it; what `DECBLK` then stores
is the chunk `ENCBLK` left in the buffer. -/
theorem blockRoundTrip : Obligations.BlockRoundTrip := by
  intro s p q rc re rd rn v hinv hp hq hpq hn hed hroom hrd hrn
  have hn0 : p * q ≠ 0 := Nat.mul_ne_zero hp.ne_zero hq.ne_zero
  have hfits : s.lenArg + 1 ≤ s.width / 8 :=
    hroom.trans (blockSize_lt hinv.width hn0 (hn ▸ hinv.regs rn)).le
  have hblock : packBlock (s.bufBytes s.lenArg) < p * q :=
    packBlock_lt_modulus hn0 (by rwa [State.bufBytes, length_readBytes])
  have henc := exec_encblk hinv rc re hfits (hn ▸ hn0)
  rw [hn] at henc
  have hdec := rsaRoundTrip p q _ _ _ hp hq hpq hed hblock
  obtain ⟨u, hu, hsucc, hlen, hbytes⟩ :=
    exec_decblk_of_own_block (s := (s.putReg rc _).complete.issue v) hinv.canonical
      (putReg_reg_self s rc _) (putReg_reg_ne s rc rd _ hrd.symm)
      ((putReg_reg_ne s rc rn _ hrn.symm).trans hn) hn0 hdec
  exact ⟨_, u, henc, complete_succeeded rfl rfl, hu, hsucc, hlen, fun i _ => hbytes i⟩

end Sys2Proof.Proofs
end

section
/-! PROOFS. The host's texts read back: the ciphertext lines of a stream (O58), key files (O59). -/

namespace Sys2Proof.Proofs

open Sys2Proof Sys2Proof.Machine Sys2Proof.Laws

/-! ## Ciphertext lines (rules R242, R244) -/

/-- Lines exist only for a block size that leaves room for data, and they are those of the chunks. -/
theorem cipherLines_eq_some {n e : Nat} {bs : List Byte} {lines : List (List Char)}
    (h : cipherLines n e bs = some lines) :
    2 ≤ blockSize n ∧
      (chunksLoop (blockSize n - 1) (bs.length + 1) bs).map (chunkLine n e) = lines := by
  rw [cipherLines, chunks] at h
  split at h
  · cases h
  · next hk => exact ⟨Nat.not_lt.mp hk, Option.some.inj h⟩

/-- The line of a chunk whose block the key's exponents give back decrypts to the chunk. -/
theorem plainChunk_chunkLine {w n e d : Nat} (hn : 1 < n) (hw : n ≤ 2 ^ w) {chunk : List Byte}
    (hback : powMod (powMod (packBlock chunk) e n) d n = packBlock chunk) :
    plainChunk w n d (chunkLine n e chunk) = some chunk := by
  have hfits : powMod (packBlock chunk) e n < 2 ^ w := (powMod_lt _ e hn).trans_le hw
  rw [plainChunk, chunkLine, parseHex_hexText, Option.bind_some, if_neg (by omega), hback,
    if_neg (bytelen_packBlock chunk).1, unpackBlock_packBlock]

/-- What is written element by element is collected again when each element is read back. -/
theorem mapM_map_eq_some {α β : Type} {write : α → β} {read : β → Option α} {l : List α}
    (h : ∀ a ∈ l, read (write a) = some a) : (l.map write).mapM read = some l := by
  induction l with
  | nil => rfl
  | cons a l ih =>
    obtain ⟨ha, hl⟩ := List.forall_mem_cons.mp h
    simp [ha, ih hl]

/-- Settles O58: a chunk's block is below the modulus, so its line decrypts to the chunk, and the chunks
together are the stream. -/
theorem streamRoundTrip : Obligations.StreamRoundTrip := by
  intro w p q e d bs lines hp hq hpq hw hed hlines
  have hn : 1 < p * q := Nat.one_lt_mul_iff.mpr ⟨hp.pos, hq.pos, .inl hp.one_lt⟩
  obtain ⟨hk, rfl⟩ := cipherLines_eq_some hlines
  obtain ⟨hflat, hsize, hcount⟩ :=
    chunksLoop_spec (size := blockSize (p * q) - 1) (by omega) bs.length.lt_succ_self
  refine ⟨by rw [List.length_map, hcount], _, mapM_map_eq_some fun chunk hc => ?_, hflat⟩
  have hlen := hsize chunk hc
  have hblock : packBlock chunk < p * q := packBlock_lt_modulus (by omega) (by omega)
  exact plainChunk_chunkLine hn hw (rsaRoundTrip p q e d _ hp hq hpq hed hblock)

/-! ## Key files (rules R233, R234) -/

/-- A text of ended lines, none with a line feed of its own, is split into these lines. -/
theorem textLines_flatMap_textLine {ls : List (List Char)} (h : ∀ l ∈ ls, '\n' ∉ l) :
    textLines (ls.flatMap textLine) = ls := by
  induction ls with
  | nil => rfl
  | cons l ls ih =>
    obtain ⟨hl, hls⟩ := List.forall_mem_cons.mp h
    rw [List.flatMap_cons, textLine, List.append_assoc, List.singleton_append, textLines_line _ hl,
      ih hls]

theorem textLines_privateKeyText (n d : Nat) :
    textLines (privateKeyText n d) = [hexText n, hexText d] := by
  have hlines : privateKeyText n d = [hexText n, hexText d].flatMap textLine := by
    simp [privateKeyText]
  rw [hlines, textLines_flatMap_textLine]
  simp [newline_notMem_hexText]

theorem textLines_publicKeyText (n e s : Nat) {identity : List Char} (h : '\n' ∉ identity) :
    textLines (publicKeyText n e s identity) = [hexText n, hexText e, hexText s, identity] := by
  have hlines : publicKeyText n e s identity =
      [hexText n, hexText e, hexText s, identity].flatMap textLine := by simp [publicKeyText]
  rw [hlines, textLines_flatMap_textLine]
  simp [newline_notMem_hexText, h]

/-- Settles O59: each integer's line has no line feed and is read back, and the identity is a line. -/
theorem keyFilesReadBack : Obligations.KeyFilesReadBack := by
  refine ⟨fun n d => ?_, fun n e s identity h => ?_⟩
  · simp [parsePrivateKey, textLines_privateKeyText, parseHex_hexText]
  · simp [parsePublicKey, textLines_publicKeyText n e s h, parseHex_hexText]

end Sys2Proof.Proofs
end

section
/-! PROOFS. How a command ends in error: `NORNG` (O48), `PARAM` (O49), `DIVZERO` (O34), what an error
leaves unchanged (O51), which errors a command may raise (O52). -/

namespace Sys2Proof.Proofs

open Sys2Proof Sys2Proof.Machine Sys2Proof.Laws

/-! ## Any error -/

/-- A command that ends by raising on the state as it stands changes the status fields alone (rule
R270). -/
theorem raises_of_exec {i : Instr} {s : State} {c : ErrCode} (h : exec i s = .next (s.failWith c)) :
    ∃ t, exec i s = .next t ∧ Failed c s t ∧ Frame [] [] s t :=
  ⟨_, h, failWith_failed c rfl rfl, failWith_frame s c⟩

theorem setGen_failWith_frame (s : State) (x : Option Nat) (c : ErrCode) :
    Frame [] [.gen] s ({ s with g := x }.failWith c) :=
  { frame_refl [] [.gen] s with gen := fun hn => absurd (List.mem_singleton_self _) hn }

/-- A search that goes on shows no error: `ERR` is clear while busy (rule R26). -/
theorem goOn_err {s : State} (hinv : s.Inv) (hb : s.busy = true) : s.goOn.err = false :=
  (hinv.busyClear hb).2

/-- Settles O51, by the kind of move: only one that raises shows an error, on the state at issue with
another generator state. -/
theorem errorsArePrecise : Obligations.ErrorsArePrecise := by
  intro i s t hinv hb h herr
  cases moves_of_exec h with
  | done u _ => cases herr
  | raised c x hgen hseed hnone haborted _ =>
    exact ⟨failWith_failed c rfl rfl, hnone, haborted, setGen_failWith_frame s x c, hgen, hseed⟩
  | searching _ => exact absurd herr (Bool.eq_false_iff.mp (goOn_err hinv hb))

/-- Settles O52, by the kind of move: a word that decodes is a well-formed command, which raises only
what the table gives it. -/
theorem errorsFollowTable : Obligations.ErrorsFollowTable := by
  intro i s t hinv hb hdec h herr
  cases moves_of_exec h with
  | done u _ => cases herr
  | raised c x _ _ _ _ htable => exact htable hinv (decodedWordIsItsEncoding s.cmdlatch i hdec).2
  | searching _ => exact absurd herr (Bool.eq_false_iff.mp (goOn_err hinv hb))

/-! ## `NORNG` (rule R262) -/

/-- Settles O48: in each drawing command the generator state is looked at before all else, in `MKPUB`
after its destinations. -/
theorem norngWithoutGenerator : Obligations.NorngWithoutGenerator := by
  intro s hg
  refine ⟨fun rn => raises_of_exec ?_, fun rd => raises_of_exec ?_,
    fun rp rq rn re hd => raises_of_exec ?_⟩
  · rw [exec, execIsprime, isprimeWith, hg, raise_eq]
  · rw [exec, execMkprime, mkprimeWith, hg, raise_eq]
  · rw [exec, execMkpub, mkpubWith, if_pos hd, hg, raise_eq]

/-! ## `PARAM` (rule R263) -/

theorem exec_mkprime_of_bits_exceed {s : State} (rd : RegIx) (hseed : s.seeded = true)
    (hw : s.width < s.bitsArg + 1) : exec (.mkprime rd) s = .next (s.failWith .param) := by
  obtain ⟨g, hg⟩ := Option.isSome_iff_exists.mp hseed
  rw [exec, execMkprime, mkprimeWith, hg]
  exact if_pos hw

theorem putGen_own {s : State} {g : Nat} (hg : s.g = some g) : s.putGen g = s := by
  rw [State.putGen, ← hg]

/-- A width that does not fit is refused at `MKPUB`'s own check, one below 2 at `make_public`'s,
which has drawn nothing (rule R191). -/
theorem exec_mkpub_of_bits_out_of_range {s : State} {rp rq rn re : RegIx}
    (hd : pairwiseDistinct rp rq rn re = true) (hseed : s.seeded = true)
    (hbits : s.bitsArg < 2 ∨ s.width < s.bitsArg + 2) :
    exec (.mkpub rp rq rn re) s = .next (s.failWith .param) := by
  obtain ⟨g, hg⟩ := Option.isSome_iff_exists.mp hseed
  rw [exec, execMkpub]
  rcases Nat.lt_or_ge s.width (s.bitsArg + 2) with hw | hw
  · rw [mkpubWith, if_pos hd, hg]
    exact if_pos hw
  · rw [mkpubWith_eq_search _ hd hg hw, makePublicWithin_of_bits_lt_two (by omega), search_some,
      drawn_error s rfl, putGen_own hg]

/-- Settles O49: each command raises `PARAM` at a check that stands before its first draw and before
any computation. -/
theorem paramOutOfRange : Obligations.ParamOutOfRange := by
  intro s
  refine ⟨fun rd hseed hw => raises_of_exec (exec_mkprime_of_bits_exceed rd hseed hw),
    fun rp rq rn re hd hseed hbits =>
      raises_of_exec (exec_mkpub_of_bits_out_of_range hd hseed hbits),
    fun rd re rp rq hpq => raises_of_exec ?_, fun rn hn => raises_of_exec ?_,
    fun rd re rn hlen => raises_of_exec ?_⟩
  · rw [exec, execMkpriv, if_pos hpq, raise_eq]
  · rw [exec, execBlksz, if_pos hn, raise_eq]
  · rw [exec, execEncblk, if_pos hlen, raise_eq]

/-! ## `DIVZERO` (rule R264) -/

/-- `p = q = 1` leaves no totient: the least common multiple of 0 and 0 (rule R193). -/
theorem exec_mkpriv_of_ones {s : State} (rd re : RegIx) {rp rq : RegIx} (hp : s.reg rp = 1)
    (hq : s.reg rq = 1) : exec (.mkpriv rd re rp rq) s = .next (s.failWith .divzero) := by
  rw [exec, execMkpriv, if_neg (by omega), hp, hq]
  rfl

/-- A register write that ends a command leaves success or `OVERFLOW` in `ERRCODE`. -/
theorem commit_writeReg_ne_divzero {s t : State} {rd : RegIx} {v : Nat}
    (h : s.commit (s.writeReg rd v) = .next t) : t.errcode ≠ .divzero := by
  rcases writeReg_cases s rd v with ⟨-, e⟩ | ⟨-, e⟩ <;> rw [e] at h
  · obtain rfl := Host.Outcome.next.inj h
    nofun
  · obtain rfl := Host.Outcome.next.inj h
    nofun

/-- So does the write of an inverse. -/
theorem commit_writeInverse_ne_divzero {s t : State} {rd : RegIx} {inv : Nat × Bool}
    (h : s.commit (s.writeInverse rd inv) = .next t) : t.errcode ≠ .divzero := by
  rcases Nat.lt_or_ge inv.1 (2 ^ s.width) with hfit | hbig
  · rw [writeInverse_fits rd hfit] at h
    obtain rfl := Host.Outcome.next.inj h
    nofun
  · rw [writeInverse_overflows rd hbig] at h
    obtain rfl := Host.Outcome.next.inj h
    nofun

/-- Settles O34: a zero modulus is found before computing, and `GCD` and `MODINV` end in a write
whatever their operands. -/
theorem divzeroOnZeroModulus : Obligations.DivzeroOnZeroModulus := by
  intro s ra rb rc rd
  refine ⟨fun hm => raises_of_exec ?_, fun hm => raises_of_exec ?_,
    fun hn => raises_of_exec (exec_verify_of_zero_modulus ra rb rd hn),
    fun hn hlen => raises_of_exec ?_,
    fun hn => raises_of_exec (exec_decblk_of_zero_modulus ra rb hn),
    fun hp hq => raises_of_exec (exec_mkpriv_of_ones ra rb hp hq), fun t ht => ?_⟩
  · rw [exec, execModmul, if_pos hm, raise_eq]
  · rw [exec, execPowmod, if_pos hm, raise_eq]
  · rw [exec, execEncblk, if_neg (Nat.not_lt.mpr hlen), if_pos hn, raise_eq]
  · rcases ht with hgcd | hmodinv
    · exact commit_writeReg_ne_divzero hgcd
    · exact commit_writeInverse_ne_divzero hmodinv

end Sys2Proof.Proofs
end

section
/-! PROOFS. `MODINV` and `MKPRIV` for a modulus up to 1 (O31), accesses outside the block (O21). -/

namespace Sys2Proof.Proofs

open Sys2Proof Sys2Proof.Machine Sys2Proof.Laws

/-! ## A modulus up to 1 (rule R144) -/

/-- The row `n = 0`, `a > 1`: the greatest common divisor is `a` itself. -/
theorem modInv_zero_of_one_lt {a : Nat} (h : 1 < a) : modInv a 0 = (0, false) :=
  modInv_gcd_gt a 0 ((Nat.gcd_zero_right a).symm ▸ h)

/-- What a command stores that takes the inverse modulo 0 or 1: it always fits. -/
theorem commit_writeInverse_degenerate {s : State} (hinv : s.Inv) (rd : RegIx) (a : Nat) {n : Nat}
    (hn : n ≤ 1) :
    ∃ t, s.commit (s.writeInverse rd (modInv a n)) = .next t ∧ Succeeded s t ∧
      Frame [rd] [.flag] s t ∧
      (n = 1 → t.reg rd = (if a = 1 then 1 else 0) ∧ t.tflag = true) ∧
      (n = 0 → a ≤ 1 → t.reg rd = a ∧ t.tflag = true) ∧
      (n = 0 → 1 < a → t.reg rd = 0 ∧ t.tflag = false) := by
  have hwidth : 0 < s.width := lt_of_lt_of_le (by decide) hinv.width.1
  obtain ⟨t, ht, hs, hf, hreg, hflag⟩ :=
    commit_writeInverse_fits s rd (modInv_fits a hwidth (hn.trans Nat.one_le_two_pow))
  refine ⟨t, ht, hs, hf, ?_, ?_, ?_⟩ <;> rw [hreg, hflag]
  · rintro rfl
    rw [modInv_one]
    exact ⟨rfl, rfl⟩
  · rintro rfl ha
    rw [modInv_zero a ha]
    exact ⟨rfl, rfl⟩
  · rintro rfl ha
    rw [modInv_zero_of_one_lt ha]
    exact ⟨rfl, rfl⟩

/-- Settles O31: both commands store what `ModInv` answers, `MKPRIV` modulo the totient. -/
theorem degenerateInverseRows : Obligations.DegenerateInverseRows := by
  intro s hinv
  refine ⟨fun rd ra rn hn => ?_, fun rd re rp rq hp hq h1 htot => ?_⟩
  · obtain ⟨t, ht, hs, -, hrows⟩ := commit_writeInverse_degenerate hinv rd (s.reg ra) hn
    exact ⟨t, ht, hs, hrows⟩
  · rw [exec_mkpriv rd re hp hq h1]
    exact commit_writeInverse_degenerate hinv rd (s.reg re) htot

/-! ## Outside the block (rule R69) -/

/-- Settles O21: the two accesses look at the end of the decoded range before all else. -/
theorem outsideOffsetFaults : Obligations.OutsideOffsetFaults := by
  intro s off size v es hl hp
  rw [← decodedLimit_eq] at hl
  rcases hp with hp | hp
  · exact (step_read hp).trans (if_pos hl)
  · exact (step_write hp).trans (if_pos hl)

end Sys2Proof.Proofs
end
